-- ==== Sys2Proof/Word.lean ====
section
/-! DEFINITION. The machine words and the numbers of SSN-PSK CORE (spec/00_scope.md R8, R10, R12).

`RNum` is the `Num` of the spec, the number system NUM over its reference semantics, the real numbers. A value is a closed-form expression in
the operations of the numerics record of R12 (with the two open parameters NOISE_FLOOR and JIT as symbols), so that it
is plain data that can be written out and compared; the real number it stands for is `RNum.val`
(Sys2Proof/Machine/Numerics.lean). DESIGN CHOICE, notes/assumptions/1.md. -/
namespace Sys2Proof

/-- A U32 register or word: WORD = 32 (R8, R10). -/
abbrev Word := BitVec 32

/-- A U8 buffer element (R49). -/
abbrev Byte := BitVec 8

/-- A value of the number system NUM: a closed-form expression over the reals (R12). -/
inductive RNum
  /-- A rational number. -/
  | rat (q : ℚ)
  /-- The rational multiple `q·π`. -/
  | pi (q : ℚ)
  /-- Sum. -/
  | add (a b : RNum)
  /-- Difference. -/
  | sub (a b : RNum)
  /-- Product. -/
  | mul (a b : RNum)
  /-- Quotient. -/
  | div (a b : RNum)
  /-- Square `x²`. -/
  | sq (a : RNum)
  /-- Square root. -/
  | sqrt (a : RNum)
  /-- Natural logarithm. -/
  | ln (a : RNum)
  /-- `10^x`. -/
  | pow10 (a : RNum)
  /-- Cosine of an angle in radians. -/
  | cos (a : RNum)
  /-- Sine of an angle in radians. -/
  | sin (a : RNum)
  /-- The greater of two numbers (R196). -/
  | max (a b : RNum)
  /-- `JIT(u)`, the open dispersion function of R8. -/
  | jit (u : RNum)
  /-- NOISE_FLOOR, the open parameter of R8. -/
  | noiseFloor
  deriving DecidableEq, Repr, Inhabited

/-- One whole element or register on the host interface: a U8, a U32 or a `Num` (R60, R62, R26). -/
inductive Val
  /-- A U8 element. -/
  | u8 (b : Byte)
  /-- A U32 register or field. -/
  | u32 (w : Word)
  /-- A `Num` register or element. -/
  | num (x : RNum)
  deriving DecidableEq, Repr, Inhabited

end Sys2Proof
end

