-- ==== Sys2Proof/Syntax.lean ====
section
/-! DEFINITION. The operations of SSN-PSK CORE, one constructor of `Instr` per row of spec/opcode_table.json, and the
encoded forms they are decoded from (spec/30_encoding.md R90 to R96). -/
namespace Sys2Proof

/-- The 22 registers of spec/10_state.md R28. -/
inductive Reg
  | id | cmd | status | cause | verrmask | ien | txcount
  | bitrate | carfreq | caramp | modtype | datalen | noiseen | snrdb | spb
  | berErrcnt | berTotal | berValue | berSnrdb | nsamp | nsymb | npts
  deriving DecidableEq, Repr

/-- The eight buffer spaces of spec/10_state.md R49. -/
inductive Space
  | txbits | runbits | time | mod | rx | rxbits | ctx | crx
  deriving DecidableEq, Repr

/-- An operation of the block: a host command (format CMD), a bus transaction (format BUS) or a stage operation (format
STAGE) (R90). -/
inductive Instr
  /-- NOP (R221). -/
  | nop
  /-- START (R222). -/
  | start
  /-- ABORT (R223). -/
  | abort
  /-- CLEAR (R224). -/
  | clear
  /-- RD: `RegRead(idx)` (R26). -/
  | rd (idx : BitVec 16)
  /-- WR: `RegWrite(idx, v)` (R26). -/
  | wr (idx : BitVec 16) (v : Val)
  /-- RB: `BufRead(space, i)` (R62). -/
  | rb (space : BitVec 4) (i : Word)
  /-- WB: `BufWrite(space, i, v)` (R62). -/
  | wb (space : BitVec 4) (i : Word) (v : Val)
  /-- VALIDATE (R230). -/
  | validate
  /-- GENERATE (R121). -/
  | generate
  /-- MOD.BPSK (R131). -/
  | modBpsk
  /-- MOD.QPSK (R141). -/
  | modQpsk
  /-- NOISE (R152). -/
  | noise
  /-- DEMOD.BPSK (R171). -/
  | demodBpsk
  /-- DEMOD.QPSK (R175). -/
  | demodQpsk
  /-- MAP.BPSK (R192). -/
  | mapBpsk
  /-- MAP.QPSK (R193). -/
  | mapQpsk
  /-- BER.BPSK (R211). -/
  | berBpsk
  /-- BER.QPSK (R212). -/
  | berQpsk
  deriving DecidableEq, Repr

/-- What an operation is decoded from, one form per format of R91. -/
inductive Code
  /-- Format CMD: a value written to the register CMD (R92). -/
  | cmd (w : Word)
  /-- Format BUS: a header word and its operands, an element index and a value; a kind that has no such operand ignores
  it (R94). -/
  | bus (header index : Word) (value : Val)
  /-- Format STAGE: the selector `S = m ++ phase` (R95). -/
  | stage (sel : BitVec 5)
  deriving DecidableEq, Repr

/-- Why an encoding selects no operation (R96, R98). -/
inductive DecodeError
  /-- A command word outside the table of R93: an illegal command. -/
  | illegalCommand
  /-- A BUS header with a nonzero must-be-zero field: an illegal access. -/
  | nonzeroField
  /-- A stage selector whose phase is not a busy one: no operation. -/
  | noStage
  deriving DecidableEq, Repr

end Sys2Proof
end

