-- ==== Sys2Proof/Machine/RegisterMap.lean ====
section
/-! DEFINITION. The address map (spec/20_memory.md R67): the register indices of spec/10_state.md R28 and the space ids of
R49, with the type and direction of each. -/
namespace Sys2Proof

/-- The index of a register (R28). -/
def Reg.index : Reg → BitVec 16
  | .id => 0x00
  | .cmd => 0x01
  | .status => 0x02
  | .cause => 0x03
  | .verrmask => 0x04
  | .ien => 0x05
  | .txcount => 0x06
  | .bitrate => 0x10
  | .carfreq => 0x11
  | .caramp => 0x12
  | .modtype => 0x13
  | .datalen => 0x14
  | .noiseen => 0x15
  | .snrdb => 0x16
  | .spb => 0x17
  | .berErrcnt => 0x20
  | .berTotal => 0x21
  | .berValue => 0x22
  | .berSnrdb => 0x23
  | .nsamp => 0x24
  | .nsymb => 0x25
  | .npts => 0x26

/-- Every register, in the order of R28. -/
def Reg.all : List Reg :=
  [.id, .cmd, .status, .cause, .verrmask, .ien, .txcount, .bitrate, .carfreq, .caramp, .modtype, .datalen, .noiseen,
   .snrdb, .spb, .berErrcnt, .berTotal, .berValue, .berSnrdb, .nsamp, .nsymb, .npts]

/-- The register at an index; none for a reserved index (R27, R98). -/
def Reg.ofIndex (idx : BitVec 16) : Option Reg := Reg.all.find? (fun r => r.index == idx)

/-- The register is of type `Num`; the others are U32 (R28). -/
def Reg.isNum : Reg → Bool
  | .bitrate | .carfreq | .caramp | .snrdb | .berValue | .berSnrdb => true
  | _ => false

/-- The id of a space (R49). -/
def Space.id : Space → BitVec 4
  | .txbits => 0
  | .runbits => 1
  | .time => 2
  | .mod => 3
  | .rx => 4
  | .rxbits => 5
  | .ctx => 6
  | .crx => 7

/-- Every space, in the order of R49. -/
def Space.all : List Space := [.txbits, .runbits, .time, .mod, .rx, .rxbits, .ctx, .crx]

/-- The space with an id; none for the ids 8 to 15 (R66, R98). -/
def Space.ofId (id : BitVec 4) : Option Space := Space.all.find? (fun sp => sp.id == id)

/-- The host element of a space at an index is a `Num`; the others are U8 or U32 (R49, R63). -/
def Space.isNumAt : Space → Word → Bool
  | .time, _ | .mod, _ | .rx, _ => true
  | .ctx, i | .crx, i => i.toNat % 4 < 2
  | _, _ => false

end Sys2Proof
end

