-- ==== Sys2Proof/WellFormed.lean ====
section
/-! DEFINITION. Well-formed operations: a written value has the type of what it is written to (spec/30_encoding.md R94:
"one U32 word, or one `Num`"). Field widths are in the types. -/
namespace Sys2Proof

/-- A written value is a U32 word. -/
def Val.isWord : Val → Bool
  | .u32 _ => true
  | _ => false

/-- A written value is a `Num`. -/
def Val.isNum : Val → Bool
  | .num _ => true
  | _ => false

/-- The value operand of WR has the register's type (R26, R94). -/
def wrTyped (idx : BitVec 16) (v : Val) : Bool :=
  match Reg.ofIndex idx with
  | some r => if r.isNum then v.isNum else v.isWord
  | none => v.isNum || v.isWord

/-- The value operand of WB has the element's type (R62, R63, R94). -/
def wbTyped (space : BitVec 4) (i : Word) (v : Val) : Bool :=
  match Space.ofId space with
  | some sp => if sp.isNumAt i then v.isNum else v.isWord
  | none => v.isNum || v.isWord

def Instr.wellFormed : Instr → Bool
  | .nop => true
  | .start => true
  | .abort => true
  | .clear => true
  | .rd _ => true
  | .wr idx v => wrTyped idx v
  | .rb _ _ => true
  | .wb space i v => wbTyped space i v
  | .validate => true
  | .generate => true
  | .modBpsk => true
  | .modQpsk => true
  | .noise => true
  | .demodBpsk => true
  | .demodQpsk => true
  | .mapBpsk => true
  | .mapQpsk => true
  | .berBpsk => true
  | .berQpsk => true

end Sys2Proof
end

