-- ==== Sys2Proof/Decode.lean ====
section
/-! DEFINITION. The decoder, total on every command word, bus header and stage selector (spec/30_encoding.md R90), and the
encoder, from the tables of R93, R94 and R96. -/
namespace Sys2Proof

/-- Format CMD: `op = w[7:0]`, `zero = w[31:8]` (R92, R93). -/
def decodeCommand (w : Word) : Except DecodeError Instr :=
  if w.extractLsb' 8 24 ≠ 0 then .error .illegalCommand
  else
    match (w.extractLsb' 0 8).toNat with
    | 0 => .ok .nop
    | 1 => .ok .start
    | 2 => .ok .abort
    | 3 => .ok .clear
    | _ => .error .illegalCommand

/-- Format BUS: `kind = h[31:30]`; `idx = h[15:0]` with `h[29:16] = 0`, or `space = h[29:26]` with `h[25:0] = 0` (R94). -/
def decodeBus (h index : Word) (value : Val) : Except DecodeError Instr :=
  match (h.extractLsb' 30 2).toNat with
  | 0 => if h.extractLsb' 16 14 = 0 then .ok (.rd (h.extractLsb' 0 16)) else .error .nonzeroField
  | 1 => if h.extractLsb' 16 14 = 0 then .ok (.wr (h.extractLsb' 0 16) value) else .error .nonzeroField
  | 2 => if h.extractLsb' 0 26 = 0 then .ok (.rb (h.extractLsb' 26 4) index) else .error .nonzeroField
  | _ => if h.extractLsb' 0 26 = 0 then .ok (.wb (h.extractLsb' 26 4) index value) else .error .nonzeroField

/-- Format STAGE: `S = m ++ phase`; the selector of phases 1, 2 and 4 ignores `m` (R95, R96). -/
def decodeStage (sel : BitVec 5) : Except DecodeError Instr :=
  match (sel.extractLsb' 0 4).toNat, (sel.extractLsb' 4 1).toNat with
  | 1, _ => .ok .validate
  | 2, _ => .ok .generate
  | 3, 0 => .ok .modBpsk
  | 3, _ => .ok .modQpsk
  | 4, _ => .ok .noise
  | 5, 0 => .ok .demodBpsk
  | 5, _ => .ok .demodQpsk
  | 6, 0 => .ok .mapBpsk
  | 6, _ => .ok .mapQpsk
  | 7, 0 => .ok .berBpsk
  | 7, _ => .ok .berQpsk
  | _, _ => .error .noStage

/-- The operation an encoding selects, or why it selects none. -/
def decode : Code → Except DecodeError Instr
  | .cmd w => decodeCommand w
  | .bus h i v => decodeBus h i v
  | .stage sel => decodeStage sel

/-- The encoding of an operation. An operand that the format does not have is zero. -/
def encode : Instr → Code
  | .nop => .cmd 0x00000000
  | .start => .cmd 0x00000001
  | .abort => .cmd 0x00000002
  | .clear => .cmd 0x00000003
  | .rd idx => .bus ((0 : BitVec 2) ++ (0 : BitVec 14) ++ idx) 0 (.u32 0)
  | .wr idx v => .bus ((1 : BitVec 2) ++ (0 : BitVec 14) ++ idx) 0 v
  | .rb space i => .bus ((2 : BitVec 2) ++ space ++ (0 : BitVec 26)) i (.u32 0)
  | .wb space i v => .bus ((3 : BitVec 2) ++ space ++ (0 : BitVec 26)) i v
  | .validate => .stage 0b00001
  | .generate => .stage 0b00010
  | .modBpsk => .stage 0b00011
  | .modQpsk => .stage 0b10011
  | .noise => .stage 0b00100
  | .demodBpsk => .stage 0b00101
  | .demodQpsk => .stage 0b10101
  | .mapBpsk => .stage 0b00110
  | .mapQpsk => .stage 0b10110
  | .berBpsk => .stage 0b00111
  | .berQpsk => .stage 0b10111

/-- The first 32-bit word of a bus transaction laid out in words, then its operand words, as the encoding they form. -/
def busOfWords (w0 w1 w2 : Word) : Code :=
  if w0.extractLsb' 30 2 = 1 then .bus w0 0 (.u32 w1) else .bus w0 w1 (.u32 w2)

/-- The encoding whose bits spec/opcode_table.json numbers as `w`: a row of at most 8 bits is a stage selector; of the
32-bit rows, a word that R93 gives to a command is format CMD and every other word is format BUS, since the table's rows
of the two formats share the numbers 0 to 3 (notes/assumptions/16.md). -/
def codeOfTable (nbits w : Nat) : Option Code :=
  if nbits ≤ 8 then
    if w < 32 then some (.stage (BitVec.ofNat 5 w)) else none
  else
    if w < 4 then some (.cmd (BitVec.ofNat 32 w))
    else some (busOfWords (BitVec.ofNat 32 w) (BitVec.ofNat 32 (w / 2 ^ 32)) (BitVec.ofNat 32 (w / 2 ^ 64)))

/-- The operation the decoder reads from the bits `w` of a table row. -/
def decodeTableWord (nbits w : Nat) : Option Instr :=
  match codeOfTable nbits w with
  | some c =>
    match decode c with
    | .ok i => some i
    | .error _ => none
  | none => none

end Sys2Proof
end

