-- ==== Sys2Proof/Config.lean ====
section
/-! DEFINITION. What an implementation fixes and what the spec leaves open, as constants with no body: nothing can
evaluate them, so a theorem about the model holds whatever they are (spec/00_scope.md R8; spec/93 I1 to I23). -/
namespace Sys2Proof

/-- JIT: one unit of constellation dispersion as a function of one draw alone (R8, R196). Notes/assumptions/22.md. -/
noncomputable opaque Config.jit : ℝ → ℝ

/-- NOISE_FLOOR: a real number not below 0 (R8, R155). Notes/assumptions/22.md. -/
noncomputable opaque Config.noiseFloor : NNReal

/-- The URNG stream beyond the values a state lists, by stream position (R46). Notes/assumptions/6.md. -/
opaque Config.urng : Nat → RNum

/-- What an element of TXBITS that nothing has written since reset number `epoch` holds (R291, spec/93 I11). Free value,
notes/assumptions/10.md. -/
opaque Config.txInit (epoch index : Nat) : Byte

/-- The number that a U32 operand puts into a `Num` register: the platform's encoding of a `Num` is open (R60). Free
value, notes/assumptions/15.md. -/
opaque Config.numOfWord : Word → RNum

/-- The word that a `Num` operand puts into a U32 register or a TXBITS element (R60). Free value,
notes/assumptions/15.md. -/
opaque Config.wordOfNum : RNum → Word

/-- What a unit reads from a bit buffer at an index that holds no element; no run that passed validation does so. Free
value, notes/assumptions/18.md. -/
opaque Config.absentByte : Nat → Byte

/-- What a unit reads from a sample buffer at an index that holds no element; no run that passed validation does so. Free
value, notes/assumptions/18.md. -/
opaque Config.absentNum : Nat → RNum

/-- The QPSK phase of a pair of elements that are not both 0 or 1; no run that passed validation has one. Free value,
notes/assumptions/18.md. -/
opaque Config.openPhase : Byte → Byte → RNum

/-- The QPSK point of a pair of elements that are not both 0 or 1; no run that passed validation has one. Free value,
notes/assumptions/18.md. -/
opaque Config.openPoint : Byte → Byte → RNum × RNum

/-- LMAX less its least value 4, for the instance that `State.reset` describes (R8: OPEN, LMAX ≥ 4).
Notes/assumptions/4.md. -/
opaque Config.lmaxExtra : BitVec 31

/-- NSMAX less its least value SPB_MIN·4, for the instance that `State.reset` describes (R8: OPEN).
Notes/assumptions/4.md. -/
opaque Config.nsmaxExtra : BitVec 31

end Sys2Proof
end

