-- ==== Sys2Proof/Machine/State.lean ====
section
/-! DEFINITION. The architectural state of SSN-PSK CORE (spec/10_state.md), the state after reset (R53, spec/70 R291) and
the reasons a step can stop. Every piece of state is listed with its rule in INVENTORY.md. -/
namespace Sys2Proof.Machine

/-- PHASE: the state of the sequencer (R24). The codes 10 to 15 are never produced and are no value of the type. -/
inductive Phase
  | idle | validating | generating | modulating | noiseInjection | demodulating | mapping | computing | done | failed
  deriving DecidableEq, Repr, Inhabited

/-- The configuration of a run: the host-writable configuration registers with TXCOUNT, and in the same form their
snapshot `RUN` (R37 to R45, R36, R40). -/
structure Settings where
  /-- BITRATE (R37). -/
  bitrate : RNum
  /-- CARFREQ (R38). -/
  carfreq : RNum
  /-- CARAMP (R39). -/
  caramp : RNum
  /-- MODTYPE, all 32 bits as written (R41). -/
  modtype : Word
  /-- DATALEN (R42). -/
  datalen : Word
  /-- NOISEEN, the one stored bit (R43). -/
  noiseen : Bool
  /-- SNRDB (R44). -/
  snrdb : RNum
  /-- SPB (R45). -/
  spb : Word
  /-- TXCOUNT (R36). -/
  txcount : Word
  deriving DecidableEq, Repr, Inhabited

/-- A ConstellationPoint (R50). -/
structure Point where
  /-- In-phase coordinate. -/
  i : RNum
  /-- Quadrature coordinate. -/
  q : RNum
  /-- The symbol's bits. -/
  sym : Word
  /-- isError in bit 0. -/
  err : Word
  deriving DecidableEq, Repr, Inhabited

/-- The result buffers (spaces 1 to 7, R49) and the result registers (R47, R48). An absent buffer holds no element, an
absent register no value (notes/assumptions/27.md). -/
structure Results where
  /-- RUNBITS. -/
  runbits : List Byte
  /-- TIME. -/
  time : List RNum
  /-- MOD. -/
  mod : List RNum
  /-- RX. -/
  rx : List RNum
  /-- RXBITS. -/
  rxbits : List Byte
  /-- CTX. -/
  ctx : List Point
  /-- CRX. -/
  crx : List Point
  /-- BER_ERRCNT. -/
  berErrcnt : Option Word
  /-- BER_TOTAL. -/
  berTotal : Option Word
  /-- BER_VALUE. -/
  berValue : Option RNum
  /-- BER_SNRDB. -/
  berSnrdb : Option RNum
  /-- NSAMP. -/
  nsamp : Option Word
  /-- NSYMB. -/
  nsymb : Option Word
  /-- NPTS. -/
  npts : Option Word
  deriving DecidableEq, Repr, Inhabited

/-- Every result absent (R13, R70). -/
def Results.absent : Results :=
  { runbits := [], time := [], mod := [], rx := [], rxbits := [], ctx := [], crx := [],
    berErrcnt := none, berTotal := none, berValue := none, berSnrdb := none, nsamp := none, nsymb := none, npts := none }

/-- The working registers (R21). `none` is the spec's "no value" (R22); a stage is one step and leaves none of them a
value (DESIGN CHOICE, notes/assumptions/13.md). -/
structure Work where
  /-- W.N. -/
  n : Option Word
  /-- W.K. -/
  k : Option Word
  /-- W.ISUM. -/
  isum : Option RNum
  /-- W.QSUM. -/
  qsum : Option RNum
  /-- W.PACC. -/
  pacc : Option RNum
  /-- W.ERR. -/
  err : Option Word
  deriving DecidableEq, Repr, Inhabited

/-- No working register holds a value. -/
def Work.empty : Work := { n := none, k := none, isum := none, qsum := none, pacc := none, err := none }

/-- The URNG port as the environment drives it (R46): the stream position and the values that come next from there;
beyond them the stream is the free `Config.urng` (notes/assumptions/6.md). -/
structure Urng where
  /-- URNG.pos. -/
  pos : Nat
  /-- The coming values. -/
  next : List RNum
  deriving DecidableEq, Repr, Inhabited

/-- The parameters of one instance of the block (spec/00_scope.md R8). No step changes them (notes/assumptions/4.md). -/
structure Params where
  /-- SPB_MIN. -/
  spbMin : Nat
  /-- MAXPTS. -/
  maxPts : Nat
  /-- LMAX. -/
  lmax : Nat
  /-- NSMAX. -/
  nsMax : Nat
  /-- CONST_QSCALE. -/
  qscale : RNum
  /-- BITRATE_MAX; none is unbounded. -/
  bitrateMax : Option RNum
  /-- CARFREQ_MAX. -/
  carfreqMax : Option RNum
  /-- CARAMP_MAX. -/
  carampMax : Option RNum
  /-- SNR_MIN. -/
  snrMin : Option RNum
  /-- SNR_MAX. -/
  snrMax : Option RNum
  /-- ABORT_SUPPORTED. -/
  abortSupported : Bool
  deriving DecidableEq, Repr, Inhabited

/-- One turn of an agent (R20): what the host presents, the reset input (R290), or a turn of the sequencer. -/
inductive Turn
  /-- The host writes `w` to CMD (format CMD, R92). -/
  | command (w : Word)
  /-- The host performs a bus transaction (format BUS, R94). -/
  | bus (header index : Word) (value : Val)
  /-- The reset input is asserted (R290). -/
  | reset
  /-- The sequencer takes a step, if it has one (R20, R238). -/
  | sequencer
  deriving DecidableEq, Repr

/-- What a step finds to do. -/
inductive Fetched
  /-- An encoded operation. -/
  | code (c : Code)
  /-- The reset input. -/
  | reset
  /-- Nothing. -/
  | nothing
  deriving DecidableEq, Repr

/-- Why the machine stops with a fault. -/
inductive Fault
  /-- Raised by MAP.QPSK and BER.QPSK when the run's bit count is odd: CD and BC are not defined there
  (spec/70 R305, spec/93 I4), and validation keeps every run from it. Safe. DEDUCED, notes/assumptions/19.md. -/
  | oddQpskLength
  deriving DecidableEq, Repr

/-- Why an operation has no meaning. -/
inductive Refusal
  /-- Raised by `exec` for an operation that has no meaning yet; none is left. Safe. -/
  | notModelled (mnemonic : String)
  /-- Raised by DEMOD.QPSK when the run's bit count is odd: "MFD is not defined on that input and a model refuses it"
  (spec/44 R181), and validation keeps every run from it. Safe. -/
  | oddQpskLength
  deriving DecidableEq, Repr

/-- The machine. -/
structure State where
  /-- The instance's parameters (R8). -/
  params : Params
  /-- PHASE (R24). -/
  phase : Phase
  /-- STATUS.DEGEN (R25). -/
  degen : Bool
  /-- STATUS.SNRV (R25). -/
  snrv : Bool
  /-- STATUS.CMDERR (R25). -/
  cmderr : Bool
  /-- STATUS.ACCERR (R25). -/
  accerr : Bool
  /-- CAUSE[7:0] (R33). -/
  cause : BitVec 8
  /-- VERRMASK[9:0] (R34). -/
  verrmask : BitVec 10
  /-- IEN[1:0] (R35). -/
  ien : BitVec 2
  /-- The configuration registers and TXCOUNT (R28). -/
  cfg : Settings
  /-- TXBITS: the written elements, indices strictly rising (R49, R65). -/
  txbits : List Host.Cell
  /-- The run snapshot RUN (R40). -/
  run : Settings
  /-- The result buffers and registers, RUNBITS included (R47 to R49). -/
  res : Results
  /-- The working registers (R21). -/
  work : Work
  /-- The URNG port (R46). -/
  urng : Urng
  /-- The coming turns (the model's own, notes/assumptions/8.md). -/
  turns : List Turn
  /-- The answer of the last read transaction (the model's own, notes/assumptions/14.md). -/
  rdata : Option Val
  /-- The number of resets so far (the model's own, notes/assumptions/10.md). -/
  epoch : Nat
  deriving DecidableEq, Repr

/-- The configuration registers after reset (R53, R291). -/
def Settings.reset : Settings :=
  { bitrate := .rat 0, carfreq := .rat 0, caramp := .rat 0, modtype := 0, datalen := 0, noiseen := false, snrdb := .rat 0,
    spb := 100, txcount := 0 }

/-- RUN before any START: unspecified and unread (R291); zeros, DESIGN CHOICE, notes/assumptions/11.md. -/
def Settings.beforeStart : Settings :=
  { bitrate := .rat 0, carfreq := .rat 0, caramp := .rat 0, modtype := 0, datalen := 0, noiseen := false, snrdb := .rat 0,
    spb := 0, txcount := 0 }

/-- The instance that `State.reset` describes: R8's defaults where R8 gives one, opaque constants for LMAX and NSMAX
(notes/assumptions/4.md). -/
def Params.instanceDefault : Params :=
  { spbMin := 100, maxPts := 100, lmax := Config.lmaxExtra.toNat + 4, nsMax := Config.nsmaxExtra.toNat + 400,
    qscale := .rat 1, bitrateMax := none, carfreqMax := none, carampMax := none, snrMin := none, snrMax := none,
    abortSupported := true }

/-- The machine right after reset (R53, R291), with nothing yet presented by host or stream. -/
def State.reset : State :=
  { params := Params.instanceDefault
    phase := .idle
    degen := false
    snrv := false
    cmderr := false
    accerr := false
    cause := 0
    verrmask := 0
    ien := 0
    cfg := Settings.reset
    txbits := []
    run := Settings.beforeStart
    res := Results.absent
    work := Work.empty
    urng := { pos := 0, next := [] }
    turns := []
    rdata := none
    epoch := 0 }

end Sys2Proof.Machine
end

