-- ==== Sys2Proof/Machine/Flags.lean ====
section
/-! DEFINITION. The PHASE codes (spec/10_state.md R24), the flags of STATUS (R25, R32), the interrupt line (R54) and the
cause codes (spec/60_exceptions.md R261). -/
namespace Sys2Proof.Machine

/-- The code of a phase (R24). -/
def Phase.code : Phase → BitVec 4
  | .idle => 0
  | .validating => 1
  | .generating => 2
  | .modulating => 3
  | .noiseInjection => 4
  | .demodulating => 5
  | .mapping => 6
  | .computing => 7
  | .done => 8
  | .failed => 9

/-- The phase with a code; none for the codes 10 to 15, which are never produced (R24). -/
def Phase.ofCode (c : BitVec 4) : Option Phase :=
  match c.toNat with
  | 0 => some .idle
  | 1 => some .validating
  | 2 => some .generating
  | 3 => some .modulating
  | 4 => some .noiseInjection
  | 5 => some .demodulating
  | 6 => some .mapping
  | 7 => some .computing
  | 8 => some .done
  | 9 => some .failed
  | _ => none

/-- `1 ≤ PHASE ≤ 7` (R32). -/
def Phase.busy (p : Phase) : Bool := 1 ≤ p.code.toNat && p.code.toNat ≤ 7

/-- STATUS.BUSY (R32). -/
def State.busy (s : State) : Bool := s.phase.busy

/-- STATUS.DONE (R32). -/
def State.isDone (s : State) : Bool := s.phase == .done

/-- STATUS.FAILED (R32). -/
def State.isFailed (s : State) : Bool := s.phase == .failed

/-- The word STATUS reads: PHASE in 3:0, BUSY 4, DONE 5, FAILED 6, DEGEN 7, SNRV 8, CMDERR 9, ACCERR 10, the rest 0
(R32). -/
def State.status (s : State) : Word :=
  (0 : BitVec 21) ++ BitVec.ofBool s.accerr ++ BitVec.ofBool s.cmderr ++ BitVec.ofBool s.snrv ++ BitVec.ofBool s.degen ++
    BitVec.ofBool s.isFailed ++ BitVec.ofBool s.isDone ++ BitVec.ofBool s.busy ++ s.phase.code

/-- The level of the interrupt line (R54, R270): DONE with IE_DONE (IEN bit 0), or FAILED with IE_FAIL (IEN bit 1). -/
def State.irq (s : State) : Bool := (s.isDone && s.ien.getLsbD 0) || (s.isFailed && s.ien.getLsbD 1)

/-- The constant ID reads (R30). -/
def idWord : Word := 0x53534E07

/-- The stage selector `S = m ++ phase` with `m = RUN.MODTYPE[0]` (R95). -/
def State.selector (s : State) : BitVec 5 := BitVec.ofBool (s.run.modtype.getLsbD 0) ++ s.phase.code

/-! Cause codes (R261). -/

/-- 0x00 NONE. -/
def causeNone : BitVec 8 := 0x00

/-- 0x10 E_BITRATE; validation check `i` has code `0x10 + i` (R230). -/
def causeValidation (i : Nat) : BitVec 8 := 0x10 + BitVec.ofNat 8 i

/-- 0x20 F_RNG_RANGE. -/
def causeRngRange : BitVec 8 := 0x20

/-- 0x21 F_NONFINITE. -/
def causeNonfinite : BitVec 8 := 0x21

/-- 0x30 A_ABORTED. -/
def causeAborted : BitVec 8 := 0x30

end Sys2Proof.Machine
end

