-- ==== Sys2Proof/Machine/Numerics.lean ====
section
/-! DEFINITION. The numerics record of spec/00_scope.md R12 over the real numbers: the operations, the real number an
expression stands for, when it stands for one at all, and the comparison with zero.

The operations fold exact results (two rational literals, rational multiples of π, cosines and sines that are 0 or ±1,
square roots of rational squares, integer powers of ten). A fold never changes the real value: one lemma per operation
in Sys2Proof/Laws/Numerics.lean. -/
namespace Sys2Proof

/-- The real number an expression stands for, where it is `finite`. -/
noncomputable def RNum.val : RNum → ℝ
  | .rat q => q
  | .pi q => q * Real.pi
  | .add a b => a.val + b.val
  | .sub a b => a.val - b.val
  | .mul a b => a.val * b.val
  | .div a b => a.val / b.val
  | .sq a => a.val ^ 2
  | .sqrt a => Real.sqrt a.val
  | .ln a => Real.log a.val
  | .pow10 a => (10 : ℝ) ^ a.val
  | .cos a => Real.cos a.val
  | .sin a => Real.sin a.val
  | .max a b => Max.max a.val b.val
  | .jit u => Config.jit u.val
  | .noiseFloor => (Config.noiseFloor : ℝ)

/-! ### Rational bounds of an expression -/

/-- A closed interval with end points `lo/encScale` and `hi/encScale`. -/
structure Ival where
  /-- Lower end, scaled. -/
  lo : Int
  /-- Upper end, scaled. -/
  hi : Int
  deriving DecidableEq, Repr, Inhabited

/-- The denominator of the bounds. -/
@[irreducible] def encScale : Nat := 2 ^ 200

/-- Quotient rounded up, for a positive divisor. -/
def ceilDiv (a : Int) (b : Nat) : Int := -((-a) / (b : Int))

def Ival.ofRat (q : ℚ) : Ival :=
  ⟨(q.num * encScale) / (q.den : Int), ceilDiv (q.num * encScale) q.den⟩

/-- Bounds of π from its first twenty decimals. -/
def Ival.pi : Ival :=
  ⟨(314159265358979323846 * encScale) / ((10 ^ 20 : Nat) : Int), ceilDiv (314159265358979323847 * encScale) (10 ^ 20)⟩

def Ival.add (a b : Ival) : Ival := ⟨a.lo + b.lo, a.hi + b.hi⟩

def Ival.neg (a : Ival) : Ival := ⟨-a.hi, -a.lo⟩

def Ival.sub (a b : Ival) : Ival := ⟨a.lo - b.hi, a.hi - b.lo⟩

def Ival.mul (a b : Ival) : Ival :=
  ⟨(min (min (a.lo * b.lo) (a.lo * b.hi)) (min (a.hi * b.lo) (a.hi * b.hi))) / (encScale : Int),
   ceilDiv (max (max (a.lo * b.lo) (a.lo * b.hi)) (max (a.hi * b.lo) (a.hi * b.hi))) encScale⟩

def Ival.sq (a : Ival) : Ival := ⟨max 0 (a.mul a).lo, (a.mul a).hi⟩

def Ival.max (a b : Ival) : Ival := ⟨Max.max a.lo b.lo, Max.max a.hi b.hi⟩

/-- Bounds of the reciprocal of a positive number. -/
def Ival.invPos (a : Ival) : Ival :=
  ⟨((encScale * encScale : Nat) : Int) / a.hi, ceilDiv ((encScale * encScale : Nat) : Int) a.lo.toNat⟩

def Ival.inv (a : Ival) : Option Ival :=
  if 0 < a.lo then some a.invPos
  else if a.hi < 0 then some a.neg.invPos.neg
  else none

/-- Bounds of `x/2^k`. -/
def Ival.shift (a : Ival) (k : Nat) : Ival := ⟨a.lo / ((2 ^ k : Nat) : Int), ceilDiv a.hi (2 ^ k)⟩

/-- `k` times `f`. -/
def iter (f : Ival → Ival) : Nat → Ival → Ival
  | 0, a => a
  | k + 1, a => iter f k (f a)

/-- From bounds of `cos y` to bounds of `cos (2y)`. -/
def Ival.doubleCos (c : Ival) : Ival :=
  ⟨Max.max (2 * c.sq.lo - encScale) (-(encScale : Int)), min (2 * c.sq.hi - encScale) encScale⟩

/-- How many times an argument is halved before the cosine's quadratic approximation is used. -/
@[irreducible] def cosHalvings : Nat := 40

/-- Bounds of `cos y` for a small `y`. -/
def Ival.cosSmall (y : Ival) : Ival :=
  ⟨encScale - ceilDiv y.sq.hi 2 - ceilDiv (5 * y.sq.sq.hi) 96, encScale - y.sq.lo / 2 + ceilDiv (5 * y.sq.sq.hi) 96⟩

def Ival.cos (x : Ival) : Option Ival :=
  if -(encScale : Int) ≤ (x.shift cosHalvings).lo ∧ (x.shift cosHalvings).hi ≤ encScale then
    some (iter Ival.doubleCos cosHalvings (x.shift cosHalvings).cosSmall)
  else none

def Ival.sin (x : Ival) : Option Ival := ((Ival.pi.mul (.ofRat (1 / 2))).sub x).cos

/-- How many times an argument is halved before the exponential's linear bounds are used. -/
@[irreducible] def expHalvings : Nat := 80

/-- Bounds of `exp y` for `-1 < y < 1`. -/
def Ival.expSmall (y : Ival) : Ival :=
  ⟨encScale + y.lo, ceilDiv ((encScale * encScale : Nat) : Int) ((encScale : Int) - y.hi).toNat⟩

/-- Bounds of `exp x`, for arguments below 4096 in magnitude. -/
def Ival.exp (x : Ival) : Option Ival :=
  if -(4096 * encScale : Int) ≤ x.lo ∧ x.hi ≤ 4096 * encScale then
    some (iter Ival.sq expHalvings (x.shift expHalvings).expSmall)
  else none

/-- A guess of the scaled logarithm of `v/encScale`; nothing is assumed of it. -/
def lnGuess (v : Int) : Nat → Int → Int
  | 0, y => y
  | n + 1, y =>
    match Ival.exp ⟨y, y⟩ with
    | some e => lnGuess v n (y + (2 * encScale * (v - e.lo)) / (v + e.lo))
    | none => y

def lnStart (v : Int) : Int := ((v.toNat.log2 : Int) - 200) * encScale * 7 / 10

/-- `a` as a lower bound of the scaled logarithm of `v/encScale`, kept only when the exponential confirms it. -/
def confirmLower (v a : Int) : Option Int :=
  match Ival.exp ⟨a, a⟩ with
  | some e => if e.hi ≤ v then some a else none
  | none => none

/-- `a` as an upper bound of the scaled logarithm of `v/encScale`, kept only when the exponential confirms it. -/
def confirmUpper (v a : Int) : Option Int :=
  match Ival.exp ⟨a, a⟩ with
  | some e => if v ≤ e.lo then some a else none
  | none => none

def lnLower (v : Int) : Option Int := confirmLower v (lnGuess v 6 (lnStart v) - 2 ^ 140)

def lnUpper (v : Int) : Option Int := confirmUpper v (lnGuess v 6 (lnStart v) + 2 ^ 140)

def Ival.ln (x : Ival) : Option Ival :=
  if 0 < x.lo then
    match lnLower x.lo, lnUpper x.hi with
    | some a, some b => some ⟨a, b⟩
    | _, _ => none
  else none

def Ival.pow10 (x : Ival) : Option Ival :=
  match (Ival.ofRat 10).ln with
  | some l => (x.mul l).exp
  | none => none

/-- A guess of the integer square root of `n`; nothing is assumed of it. -/
def sqrtGuess (n : Nat) : Nat → Nat → Nat
  | 0, r => r
  | k + 1, r => sqrtGuess n k ((r + n / r) / 2)

/-- `r` as the integer square root of `n`, kept only when confirmed. -/
def confirmSqrt (n r : Nat) : Option Nat := if r ^ 2 ≤ n ∧ n ≤ (r + 1) ^ 2 then some r else none

/-- The integer square root of `n` by Newton's steps. -/
def natSqrt? (n : Nat) : Option Nat := confirmSqrt n (sqrtGuess n 24 (2 ^ (n.log2 / 2 + 1)))

def Ival.sqrt (x : Ival) : Option Ival :=
  if 0 ≤ x.lo then
    match natSqrt? (x.lo.toNat * encScale), natSqrt? (x.hi.toNat * encScale) with
    | some a, some b => some ⟨a, b + 1⟩
    | _, _ => none
  else none

/-- Rational bounds of the real value of an expression, where they are found. -/
def RNum.enclose : RNum → Option Ival
  | .rat q => some (.ofRat q)
  | .pi q => some ((Ival.ofRat q).mul Ival.pi)
  | .add a b =>
    match a.enclose, b.enclose with
    | some x, some y => some (x.add y)
    | _, _ => none
  | .sub a b =>
    match a.enclose, b.enclose with
    | some x, some y => some (x.sub y)
    | _, _ => none
  | .mul a b =>
    match a.enclose, b.enclose with
    | some x, some y => some (x.mul y)
    | _, _ => none
  | .div a b =>
    match a.enclose, b.enclose with
    | some x, some y =>
      match y.inv with
      | some z => some (x.mul z)
      | none => none
    | _, _ => none
  | .sq a =>
    match a.enclose with
    | some x => some x.sq
    | none => none
  | .sqrt a =>
    match a.enclose with
    | some x => x.sqrt
    | none => none
  | .ln a =>
    match a.enclose with
    | some x => x.ln
    | none => none
  | .pow10 a =>
    match a.enclose with
    | some x => x.pow10
    | none => none
  | .cos a =>
    match a.enclose with
    | some x => x.cos
    | none => none
  | .sin a =>
    match a.enclose with
    | some x => x.sin
    | none => none
  | .max a b =>
    match a.enclose, b.enclose with
    | some x, some y => some (x.max y)
    | _, _ => none
  | .jit _ => none
  | .noiseFloor => none

/-! ### Comparison with zero -/

/-- The real comparison of a number with zero, whatever the number: its type has no other value. It is there to reason
about; run as a program it does not end (notes/assumptions/2.md). -/
def RNum.compareZero (e : RNum) : {o : Ordering // o = cmp e.val 0} := compareZero e
partial_fixpoint

/-- The comparison of a number with zero, the last item of the numerics record (R12): that of the real numbers, on every
number (`RNum.sign_eq`). A rational number and one that the rational bounds tell from zero are compared by evaluation,
any other, an unfolded zero say, by `RNum.compareZero` (R172; spec/93 I13). -/
def RNum.sign (e : RNum) : Ordering :=
  match e with
  | .rat q => if 0 < q.num then .gt else if q.num < 0 then .lt else .eq
  | e =>
    match e.enclose with
    | some x => if 0 < x.lo then .gt else if x.hi < 0 then .lt else e.compareZero.1
    | none => e.compareZero.1

/-- `x > 0`. -/
def RNum.isPos (e : RNum) : Bool := e.sign == .gt

/-- `x ≥ 0` (R172). -/
def RNum.nonneg (e : RNum) : Bool := e.sign != .lt

/-- An expression stands for a real number: no quotient by zero, no logarithm of a number that is not positive, no
square root of a negative number in it. What is not `finite` is the infinity or NaN of R263 (notes/assumptions/3.md). -/
def RNum.finite : RNum → Bool
  | .rat _ => true
  | .pi _ => true
  | .add a b => a.finite && b.finite
  | .sub a b => a.finite && b.finite
  | .mul a b => a.finite && b.finite
  | .div a b => a.finite && b.finite && b.sign != .eq
  | .sq a => a.finite
  | .sqrt a => a.finite && a.sign != .lt
  | .ln a => a.finite && a.sign == .gt
  | .pow10 a => a.finite
  | .cos a => a.finite
  | .sin a => a.finite
  | .max a b => a.finite && b.finite
  | .jit u => u.finite
  | .noiseFloor => true

/-! ### The operations -/

/-- The natural number `n` as a `Num`, exactly (R213). -/
def RNum.ofNat (n : Nat) : RNum := .rat n

/-- `q·π`. -/
def RNum.piMul (q : ℚ) : RNum := if q.num = 0 then .rat 0 else .pi q

def RNum.plus (a b : RNum) : RNum :=
  match a, b with
  | .rat p, .rat q => .rat (p + q)
  | .pi p, .pi q => .piMul (p + q)
  | a, b => if a = .rat 0 then b else if b = .rat 0 then a else .add a b

def RNum.minus (a b : RNum) : RNum :=
  match a, b with
  | .rat p, .rat q => .rat (p - q)
  | .pi p, .pi q => .piMul (p - q)
  | a, b => if b = .rat 0 then a else .sub a b

def RNum.times (a b : RNum) : RNum :=
  match a, b with
  | .rat p, .rat q => .rat (p * q)
  | .rat p, .pi q => .piMul (p * q)
  | .pi p, .rat q => .piMul (p * q)
  | a, b =>
    if (a = .rat 0 ∧ b.finite) ∨ (b = .rat 0 ∧ a.finite) then .rat 0
    else if a = .rat 1 then b
    else if b = .rat 1 then a
    else .mul a b

def RNum.over (a b : RNum) : RNum :=
  match a, b with
  | .rat p, .rat q => if q.num = 0 then .div (.rat p) (.rat q) else .rat (p / q)
  | a, b => .div a b

def RNum.square (a : RNum) : RNum :=
  match a with
  | .rat p => .rat (p * p)
  | a => .sq a

def RNum.root (a : RNum) : RNum :=
  match a with
  | .rat p =>
    match natSqrt? p.num.toNat, natSqrt? p.den with
    | some n, some d => if (n * n : Int) = p.num ∧ d * d = p.den then .rat ((n : ℚ) / d) else .sqrt (.rat p)
    | _, _ => .sqrt (.rat p)
  | a => .sqrt a

def RNum.log (a : RNum) : RNum := .ln a

/-- `10^x`. -/
def RNum.tenTo (a : RNum) : RNum :=
  match a with
  | .rat p =>
    if p.den = 1 ∧ p.num.natAbs ≤ 1000 then .rat (if 0 ≤ p.num then 10 ^ p.num.natAbs else 1 / 10 ^ p.num.natAbs)
    else .pow10 (.rat p)
  | a => .pow10 a

/-- The angle `q·π` less whole turns: `0 ≤ q < 2`. -/
def turnPart (q : ℚ) : ℚ := q - 2 * ((q.num / (2 * (q.den : Int)) : Int) : ℚ)

def RNum.cosine (a : RNum) : RNum :=
  match a with
  | .rat p => if p.num = 0 then .rat 1 else .cos (.rat p)
  | .pi q =>
    if turnPart q = 0 then .rat 1
    else if turnPart q = 1 / 2 then .rat 0
    else if turnPart q = 1 then .rat (-1)
    else if turnPart q = 3 / 2 then .rat 0
    else .cos (.pi (turnPart q))
  | a => .cos a

def RNum.sine (a : RNum) : RNum :=
  match a with
  | .rat p => if p.num = 0 then .rat 0 else .sin (.rat p)
  | .pi q =>
    if turnPart q = 0 then .rat 0
    else if turnPart q = 1 / 2 then .rat 1
    else if turnPart q = 1 then .rat 0
    else if turnPart q = 3 / 2 then .rat (-1)
    else .sin (.pi (turnPart q))
  | a => .sin a

/-- The greater of two numbers. -/
def RNum.greater (a b : RNum) : RNum :=
  match a, b with
  | .rat p, .rat q => if 0 ≤ (p - q).num then .rat p else .rat q
  | a, b => .max a b

/-- `x ≤ y`. -/
def RNum.atMost (x y : RNum) : Bool := (RNum.minus y x).nonneg

end Sys2Proof
end

