-- ==== Sys2Proof/Machine/Operands.lean ====
section
/-! DEFINITION. Operands: the run-time quantities of spec/00_scope.md R9, the index computations of spec/20_memory.md R69,
how a unit reads a buffer element by name, and how a written value is taken (spec/30 R97). -/
namespace Sys2Proof.Machine

/-- The modulation type of a run (R41). -/
inductive Scheme
  | bpsk | qpsk
  deriving DecidableEq, Repr

/-- BPS, bits per symbol (R9). -/
def Scheme.bps : Scheme → Nat
  | .bpsk => 1
  | .qpsk => 2

/-- The modulation type a configuration names: 1 is QPSK (R41). Only 0 and 1 pass validation (R230 check 3;
DEDUCED, notes/assumptions/29.md). -/
def Settings.scheme (r : Settings) : Scheme := if r.modtype = 1 then .qpsk else .bpsk

/-- `L = RUN.DATALEN` (R9). -/
def Settings.len (r : Settings) : Nat := r.datalen.toNat

/-- `NSYM = ceil(L / BPS)` (R9). -/
def Settings.nsym (r : Settings) (m : Scheme) : Nat := (r.len + (m.bps - 1)) / m.bps

/-- `SPS = BPS·SPB` (R9). -/
def Settings.sps (r : Settings) (m : Scheme) : Nat := m.bps * r.spb.toNat

/-- `NS = NSYM·SPS` (R9). -/
def Settings.ns (r : Settings) (m : Scheme) : Nat := r.nsym m * r.sps m

/-- `NP = min(NSYM, MAXPTS)` (R191). -/
def Settings.np (r : Settings) (p : Params) (m : Scheme) : Nat := min (r.nsym m) p.maxPts

/-- The symbol index of sample `n` (R69). -/
def Settings.symbolOf (r : Settings) (m : Scheme) (n : Nat) : Nat := n / r.sps m

/-- Element `k` of a bit buffer, as a unit reads it (R69). -/
def bitAt (b : List Byte) (k : Nat) : Byte := b[k]?.getD (Config.absentByte k)

/-- Element `n` of a sample buffer, as a unit reads it (R69). -/
def numAt (b : List RNum) (n : Nat) : RNum := b[n]?.getD (Config.absentNum n)

/-- The U32 word a written value carries; a `Num` operand where a word is due is a free value (notes/assumptions/15.md). -/
def operandWord : Val → Word
  | .u32 w => w
  | .u8 b => b.setWidth 32
  | .num x => Config.wordOfNum x

/-- The number a written value carries; a word where a `Num` is due is a free value (notes/assumptions/15.md). -/
def operandNum : Val → RNum
  | .num x => x
  | .u32 w => Config.numOfWord w
  | .u8 b => Config.numOfWord (b.setWidth 32)

end Sys2Proof.Machine
end

