-- ==== Sys2Proof/Machine/Ops.lean ====
section
/-! DEFINITION. The named operations: TXBITS as memory (spec/20_memory.md R65), register and buffer accesses (spec/10 R26 to
R28, R47, R48; spec/20 R62 to R66, R70), refusals (spec/60 R269), raising a failure (R266, R267), stage completion, draws
(spec/00 R13, spec/43 R157) and reset (spec/70 R290). -/
namespace Sys2Proof.Machine

/-! ### TXBITS -/

/-- The written elements of TXBITS: (index, byte) pairs with strictly rising indices. An unlisted element has not been
written since reset; it reads as a free value, which no listed byte equals by any rule (notes/assumptions/10.md). -/
abbrev Memory := List Host.Cell

/-- The canonical form: indices strictly rise. -/
def Memory.wf : Memory → Bool
  | [] => true
  | c :: m =>
    match m with
    | [] => true
    | d :: _ => decide (c.1 < d.1) && Memory.wf m

/-- The byte written at an index, if any. -/
def Memory.get? : Memory → Nat → Option Byte
  | [], _ => none
  | c :: m, a => if c.1 = a then some c.2 else Memory.get? m a

/-- Write one byte. -/
def Memory.set : Memory → Nat → Byte → Memory
  | [], a, b => [(a, b)]
  | c :: m, a, b =>
    if a < c.1 then (a, b) :: c :: m
    else if a = c.1 then (a, b) :: m
    else c :: Memory.set m a b

/-- What `TXBITS[i]` holds: the byte last written, or the unspecified byte of reset (R65, R291). -/
def State.txRead (s : State) (i : Nat) : Byte := (Memory.get? s.txbits i).getD (Config.txInit s.epoch i)

/-! ### Refusals -/

/-- A refused write, or any refused access that returns nothing (R27, R66). -/
def State.refuseAccess (s : State) : State := { s with accerr := true }

/-- A refused read: no value is returned (R27, R66). -/
def State.refuseRead (s : State) : State := { s with accerr := true, rdata := none }

/-- A refused command (R222, R224, R225). -/
def State.refuseCommand (s : State) : State := { s with cmderr := true }

/-- What an encoding that selects no operation does (R98): an illegal command sets CMDERR, an illegal header is a refused
access (kinds 0 and 2, bit 30 clear, are reads), a selector of a resting phase does nothing. -/
def State.refuseCode (s : State) (c : Code) (e : DecodeError) : State :=
  match e, c with
  | .illegalCommand, _ => s.refuseCommand
  | .nonzeroField, .bus h _ _ => if h.getLsbD 30 then s.refuseAccess else s.refuseRead
  | .nonzeroField, _ => s.refuseAccess
  | .noStage, _ => s

/-! ### Registers -/

/-- A result is visible in Done only (R70). -/
def State.visible (s : State) (v : Option Val) : Option Val := if s.phase = .done then v else none

/-- What a register reads; none when the read is refused (R26 to R28, R30 to R48, R70). -/
def State.readReg (s : State) : Reg → Option Val
  | .id => some (.u32 idWord)
  | .cmd => none
  | .status => some (.u32 s.status)
  | .cause => some (.u32 (s.cause.setWidth 32))
  | .verrmask => some (.u32 (s.verrmask.setWidth 32))
  | .ien => some (.u32 (s.ien.setWidth 32))
  | .txcount => some (.u32 s.cfg.txcount)
  | .bitrate => some (.num s.cfg.bitrate)
  | .carfreq => some (.num s.cfg.carfreq)
  | .caramp => some (.num s.cfg.caramp)
  | .modtype => some (.u32 s.cfg.modtype)
  | .datalen => some (.u32 s.cfg.datalen)
  | .noiseen => some (.u32 ((BitVec.ofBool s.cfg.noiseen).setWidth 32))
  | .snrdb => some (.num s.cfg.snrdb)
  | .spb => some (.u32 s.cfg.spb)
  | .berErrcnt => s.visible (s.res.berErrcnt.map .u32)
  | .berTotal => s.visible (s.res.berTotal.map .u32)
  | .berValue => s.visible (s.res.berValue.map .num)
  | .berSnrdb => if s.snrv then s.visible (s.res.berSnrdb.map .num) else none
  | .nsamp => s.visible (s.res.nsamp.map .u32)
  | .nsymb => s.visible (s.res.nsymb.map .u32)
  | .npts => s.visible (s.res.npts.map .u32)

/-- A write of a register that stores what is written; none when the write is refused. Bits a register does not store
are dropped (R35, R43). CMD is not here: a write to it executes a command (R31). -/
def State.writeReg (s : State) (r : Reg) (v : Val) : Option State :=
  match r with
  | .ien => some { s with ien := (operandWord v).setWidth 2 }
  | .txcount => some { s with cfg := { s.cfg with txcount := operandWord v } }
  | .bitrate => some { s with cfg := { s.cfg with bitrate := operandNum v } }
  | .carfreq => some { s with cfg := { s.cfg with carfreq := operandNum v } }
  | .caramp => some { s with cfg := { s.cfg with caramp := operandNum v } }
  | .modtype => some { s with cfg := { s.cfg with modtype := operandWord v } }
  | .datalen => some { s with cfg := { s.cfg with datalen := operandWord v } }
  | .noiseen => some { s with cfg := { s.cfg with noiseen := (operandWord v).getLsbD 0 } }
  | .snrdb => some { s with cfg := { s.cfg with snrdb := operandNum v } }
  | .spb => some { s with cfg := { s.cfg with spb := operandWord v } }
  | _ => none

/-! ### Buffers -/

/-- Field `i mod 4` of point `i div 4` (R63). -/
def pointField (l : List Point) (i : Nat) : Option Val :=
  match l[i / 4]? with
  | none => none
  | some p =>
    match i % 4 with
    | 0 => some (.num p.i)
    | 1 => some (.num p.q)
    | 2 => some (.u32 p.sym)
    | _ => some (.u32 p.err)

/-- What a buffer element reads; none when the read is refused (R65, R66, R70). The number of elements a result buffer
holds is its current length (R278). -/
def State.readBuf (s : State) (sp : Space) (i : Nat) : Option Val :=
  match sp with
  | .txbits => if i < s.params.lmax then some (.u8 (s.txRead i)) else none
  | .runbits => s.visible (s.res.runbits[i]?.map .u8)
  | .time => s.visible (s.res.time[i]?.map .num)
  | .mod => s.visible (s.res.mod[i]?.map .num)
  | .rx => s.visible (s.res.rx[i]?.map .num)
  | .rxbits => s.visible (s.res.rxbits[i]?.map .u8)
  | .ctx => s.visible (pointField s.res.ctx i)
  | .crx => s.visible (pointField s.res.crx i)

/-- The index a WB to a space stores at, when it stores at all: TXBITS below LMAX (R65, R66). -/
def State.storeIndex (s : State) (space : BitVec 4) (i : Word) : Option Nat :=
  match Space.ofId space with
  | some .txbits => if i.toNat < s.params.lmax then some i.toNat else none
  | _ => none

/-! ### Failing, completing a stage, aborting -/

/-- The run ends in Failed with a cause and every output absent (R266, R267), RUNBITS included (DEDUCED,
notes/assumptions/12.md). -/
def State.failRun (s : State) (cause : BitVec 8) : State :=
  { s with cause := cause, res := Results.absent, phase := .failed }

/-- `raise ValidationError(code)` (R266). -/
def State.raiseValidation (s : State) (mask : BitVec 10) (code : BitVec 8) : State :=
  ({ s with verrmask := mask } : State).failRun code

/-- `raise UnexpectedFailure(code)` (R267), with 0x20 or 0x21; 0x2F is raised by nothing (DEDUCED,
notes/assumptions/20.md). DEGEN and VERRMASK keep their values, consumed draws stay consumed. -/
def State.raiseUnexpected (s : State) (code : BitVec 8) : State :=
  ({ s with snrv := false, work := Work.empty } : State).failRun code

/-- A stage ends and the sequencer moves on (R231 to R237); the working registers do not survive the stage (R21). -/
def State.advance (s : State) (p : Phase) : State := { s with phase := p, work := Work.empty }

/-! ### Draws -/

/-- The value of the stream at its position, and the stream one further (R46). -/
def Urng.draw (u : Urng) : RNum × Urng :=
  match u.next with
  | x :: xs => (x, { pos := u.pos + 1, next := xs })
  | [] => (Config.urng u.pos, { pos := u.pos + 1, next := [] })

/-- A value lies in the open interval (0,1) (R46, R157); one with no real value does not (DESIGN CHOICE,
notes/assumptions/7.md). -/
def inUnit (x : RNum) : Bool := x.finite && x.isPos && (RNum.minus (.rat 1) x).isPos

/-- `draw()` (R13): the value, or F_RNG_RANGE with the offending draw consumed (R157). -/
def Urng.take (u : Urng) : Except (BitVec 8 × Urng) (RNum × Urng) :=
  if inUnit u.draw.1 then .ok u.draw else .error (causeRngRange, u.draw.2)

/-! ### Reset -/

/-- The reset input (R290): the state of R291 in one step. The instance's parameters, the stream, whose position the block
does not reset, and what host and stream will present belong to the environment and stay (notes/assumptions/9.md). -/
def State.afterReset (s : State) : State :=
  { State.reset with params := s.params, urng := s.urng, turns := s.turns, epoch := s.epoch + 1 }

end Sys2Proof.Machine
end

