-- ==== Sys2Proof/Machine/Ber.lean ====
section
/-! DEFINITION. ber_counter (spec/46_ber_counter.md). -/
namespace Sys2Proof.Machine

/-- W.ERR at the end of BER.BPSK: the positions where the bits differ (R211). -/
def bpskErrors (r : Settings) (res : Results) : Nat :=
  (List.range r.len).countP (fun k => bitAt res.rxbits k != bitAt res.runbits k)

/-- W.ERR at the end of BER.QPSK: 2 for each pair that differs (R212). -/
def qpskErrors (r : Settings) (res : Results) : Nat :=
  2 * (List.range (r.nsym .qpsk)).countP (fun k =>
    bitAt res.rxbits (2 * k) != bitAt res.runbits (2 * k) || bitAt res.rxbits (2 * k + 1) != bitAt res.runbits (2 * k + 1))

/-- `BER_VALUE = W.ERR / L` (R213). -/
def berRate (r : Settings) (errors : Nat) : RNum := RNum.over (.ofNat errors) (.ofNat r.len)

/-- The BER registers take their values, the SNR is attached when the run had noise (R214), and Computing completes
(R237). A rate or an SNR with no real value raises F_NONFINITE (R263); no run that passed validation has one. -/
def State.counted (s : State) (errors : Nat) : State :=
  if (berRate s.run errors).finite && (!s.run.noiseen || s.run.snrdb.finite) then
    ({ s with
      snrv := s.snrv || s.run.noiseen
      res := { s.res with
        berErrcnt := some (BitVec.ofNat 32 errors)
        berTotal := some s.run.datalen
        berValue := some (berRate s.run errors)
        berSnrdb := if s.run.noiseen then some s.run.snrdb else s.res.berSnrdb } } : State).advance .done
  else s.raiseUnexpected causeNonfinite

/-- BER.BPSK and its completion (R211, R237). -/
def execBerBpsk (s : State) : Host.Outcome State Fault Refusal := .next (s.counted (bpskErrors s.run s.res))

/-- BER.QPSK and its completion (R212, R237); BC is not defined on an odd length (R305). -/
def execBerQpsk (s : State) : Host.Outcome State Fault Refusal :=
  if s.run.len % 2 = 0 then .next (s.counted (qpskErrors s.run s.res)) else .fault .oddQpskLength

end Sys2Proof.Machine
end

