-- ==== Sys2Proof/Machine/Commands.lean ====
section
/-! DEFINITION. The host commands (spec/47_sequencer_and_commands.md R220 to R225). -/
namespace Sys2Proof.Machine

/-- NOP (R221): nothing, in every phase. -/
def execNop (s : State) : Host.Outcome State Fault Refusal := .next s

/-- RUNBITS as START copies it: the first `min(TXCOUNT, LMAX)` elements of TXBITS (R40, R222). -/
def State.latchedBits (s : State) : List Byte := (List.range (min s.cfg.txcount.toNat s.params.lmax)).map s.txRead

/-- The effect of an accepted START (R222). -/
def State.startRun (s : State) : State :=
  { s with
    res := { Results.absent with runbits := s.latchedBits }
    cause := causeNone
    verrmask := 0
    degen := false
    snrv := false
    run := s.cfg
    phase := .validating }

/-- START (R222): accepted in Idle, Done and Failed, refused with CMDERR while a run is in flight. -/
def execStart (s : State) : Host.Outcome State Fault Refusal :=
  if s.busy then .next s.refuseCommand else .next s.startRun

/-- The effect of an ABORT during a run (R223, R268). -/
def State.abortRun (s : State) : State :=
  { s with res := Results.absent, work := Work.empty, snrv := false, cause := causeAborted, phase := .idle }

/-- ABORT (R223): discards a run in flight, does nothing otherwise; where the instance does not support it, an illegal
command (R225, R98; DEDUCED, notes/assumptions/24.md). -/
def execAbort (s : State) : Host.Outcome State Fault Refusal :=
  if s.params.abortSupported then
    if s.busy then .next s.abortRun else .next s
  else .next s.refuseCommand

/-- The effect of an accepted CLEAR (R224). -/
def State.clearAll (s : State) : State :=
  { s with
    res := Results.absent
    cause := causeNone
    verrmask := 0
    degen := false
    snrv := false
    cmderr := false
    accerr := false
    phase := .idle }

/-- CLEAR (R224): accepted in Idle, Done and Failed, refused with CMDERR while a run is in flight. -/
def execClear (s : State) : Host.Outcome State Fault Refusal :=
  if s.busy then .next s.refuseCommand else .next s.clearAll

/-- A write of `w` to CMD executes the command it encodes; any other word is an illegal command (R31, R225). -/
def execCommandWord (w : Word) (s : State) : Host.Outcome State Fault Refusal :=
  match decodeCommand w with
  | .ok .nop => execNop s
  | .ok .start => execStart s
  | .ok .abort => execAbort s
  | .ok .clear => execClear s
  | _ => .next s.refuseCommand

end Sys2Proof.Machine
end

