-- ==== Sys2Proof/Machine/Bus.lean ====
section
/-! DEFINITION. The bus transactions (spec/47 R226; spec/10_state.md R26, R27; spec/20_memory.md R62 to R66, R70). What a
read returns is left in `rdata`. -/
namespace Sys2Proof.Machine

/-- What a read transaction returned, or a refused read (R26, R27, R66). -/
def State.answer (s : State) (v : Option Val) : State :=
  match v with
  | some v => { s with rdata := some v }
  | none => s.refuseRead

/-- What a register index reads; none when refused, a reserved index included (R27). -/
def State.regValue (s : State) (idx : BitVec 16) : Option Val :=
  match Reg.ofIndex idx with
  | some r => s.readReg r
  | none => none

/-- RD (R26, R27). -/
def execRd (idx : BitVec 16) (s : State) : Host.Outcome State Fault Refusal := .next (s.answer (s.regValue idx))

/-- WR (R26, R27, R31): a write to CMD executes a command, a write to a writable register stores, any other is refused. -/
def execWr (idx : BitVec 16) (v : Val) (s : State) : Host.Outcome State Fault Refusal :=
  match Reg.ofIndex idx with
  | some .cmd => execCommandWord (operandWord v) s
  | some r =>
    match s.writeReg r v with
    | some t => .next t
    | none => .next s.refuseAccess
  | none => .next s.refuseAccess

/-- What a space id and an element index read; none when refused, a reserved space included (R66). -/
def State.bufValue (s : State) (space : BitVec 4) (i : Word) : Option Val :=
  match Space.ofId space with
  | some sp => s.readBuf sp i.toNat
  | none => none

/-- RB (R62, R63, R65, R66). -/
def execRb (space : BitVec 4) (i : Word) (s : State) : Host.Outcome State Fault Refusal :=
  .next (s.answer (s.bufValue space i))

/-- WB (R62, R65, R66): stores `v[7:0]` in TXBITS below LMAX in any phase, any other write is refused. -/
def execWb (space : BitVec 4) (i : Word) (v : Val) (s : State) : Host.Outcome State Fault Refusal :=
  match s.storeIndex space i with
  | some a => .next { s with txbits := Memory.set s.txbits a ((operandWord v).setWidth 8) }
  | none => .next s.refuseAccess

end Sys2Proof.Machine
end

