-- ==== Sys2Proof/Machine/Constellation.lean ====
section
/-! DEFINITION. constellation_detector (spec/45_constellation_detector.md). -/
namespace Sys2Proof.Machine

/-- The ideal BPSK point of a bit (R192, R194). -/
def bpskPoint (b : Byte) : RNum × RNum := if b = 1 then (.rat 1, .rat 0) else (.rat (-1), .rat 0)

/-- `qpsk_point(b1, b2)` with `c = CONST_QSCALE` (R194). A pair that is not of bits is a free value
(notes/assumptions/18.md). -/
def qpskPoint (p : Params) (b1 b2 : Byte) : RNum × RNum :=
  if b1 = 0 ∧ b2 = 0 then (p.qscale, p.qscale)
  else if b1 = 0 ∧ b2 = 1 then (RNum.minus (.rat 0) p.qscale, p.qscale)
  else if b1 = 1 ∧ b2 = 1 then (RNum.minus (.rat 0) p.qscale, RNum.minus (.rat 0) p.qscale)
  else if b1 = 1 ∧ b2 = 0 then (p.qscale, RNum.minus (.rat 0) p.qscale)
  else Config.openPoint b1 b2

/-- `g = max(0.1, 1 − S/30)` (R196). -/
def dispersion (r : Settings) : RNum := RNum.greater (.rat (1 / 10)) (RNum.minus (.rat 1) (RNum.over r.snrdb (.rat 30)))

/-- What MAP knows of one symbol before the jitter: its ideal point, its `sym` word and its error flag. -/
structure Ideal where
  /-- The ideal coordinates (R194). -/
  coord : RNum × RNum
  /-- The symbol's bits (R50). -/
  sym : Word
  /-- The error flag (R198). -/
  err : Bool
  deriving DecidableEq, Repr

/-- Symbol `j` of a BPSK run (R192, R198). -/
def bpskIdeal (res : Results) (j : Nat) : Ideal :=
  { coord := bpskPoint (bitAt res.runbits j), sym := (bitAt res.runbits j).setWidth 32,
    err := bitAt res.rxbits j != bitAt res.runbits j }

/-- Symbol `j` of a QPSK run (R193, R198). -/
def qpskIdeal (p : Params) (res : Results) (j : Nat) : Ideal :=
  { coord := qpskPoint p (bitAt res.runbits (2 * j)) (bitAt res.runbits (2 * j + 1)),
    sym := 4 + 2 * (bitAt res.runbits (2 * j)).setWidth 32 + (bitAt res.runbits (2 * j + 1)).setWidth 32,
    err := bitAt res.rxbits (2 * j) != bitAt res.runbits (2 * j) ||
      bitAt res.rxbits (2 * j + 1) != bitAt res.runbits (2 * j + 1) }

/-- The transmitted point of a symbol: `err` is 0 (R195). -/
def Ideal.sent (d : Ideal) : Point := { i := d.coord.1, q := d.coord.2, sym := d.sym, err := 0 }

/-- The received point of a symbol, dispersed by `(di, dq)` (R192, R195). -/
def Ideal.received (d : Ideal) (di dq : RNum) : Point :=
  { i := RNum.plus d.coord.1 di, q := RNum.plus d.coord.2 dq, sym := d.sym, err := (BitVec.ofBool d.err).setWidth 32 }

/-- Both coordinates of a point stand for real numbers. -/
def Point.finite (p : Point) : Bool := p.i.finite && p.q.finite

/-- The received points of a noisy run: two draws a point, the `i` offset's first (R192, R197); or the cause and the stream
position at which the stage stops (R157, R263). -/
def jitterLoop (g : RNum) : List Ideal → Urng → Except (BitVec 8 × Urng) (List Point × Urng)
  | [], u => .ok ([], u)
  | d :: ds, u =>
    if d.sent.finite then
      match u.take with
      | .error e => .error e
      | .ok (a, ua) =>
        match ua.take with
        | .error e => .error e
        | .ok (b, ub) =>
          if (d.received (RNum.times g (.jit a)) (RNum.times g (.jit b))).finite then
            match jitterLoop g ds ub with
            | .ok (ps, uc) => .ok (d.received (RNum.times g (.jit a)) (RNum.times g (.jit b)) :: ps, uc)
            | .error e => .error e
          else .error (causeNonfinite, ub)
    else .error (causeNonfinite, u)

/-- The received points of a run: with noise by `jitterLoop`, without noise the ideal points and no draw (R192, R196,
R197). -/
def receivedPoints (r : Settings) (ds : List Ideal) (u : Urng) : Except (BitVec 8 × Urng) (List Point × Urng) :=
  if r.noiseen then jitterLoop (dispersion r) ds u
  else if ds.all (fun d => d.sent.finite) then .ok (ds.map (fun d => d.received (.rat 0) (.rat 0)), u)
  else .error (causeNonfinite, u)

/-- CTX, CRX and NPTS take their values and Mapping completes (R192, R236). -/
def State.mapped (s : State) (ds : List Ideal) : State :=
  match receivedPoints s.run ds s.urng with
  | .ok (ps, u) =>
    ({ s with
      res := { s.res with ctx := ds.map Ideal.sent, crx := ps, npts := some (BitVec.ofNat 32 ds.length) }
      urng := u } : State).advance .computing
  | .error (cause, u) => ({ s with urng := u } : State).raiseUnexpected cause

/-- MAP.BPSK and its completion (R192, R236). -/
def execMapBpsk (s : State) : Host.Outcome State Fault Refusal :=
  .next (s.mapped ((List.range (s.run.np s.params .bpsk)).map (bpskIdeal s.res)))

/-- MAP.QPSK and its completion (R193, R236); CD is not defined on an odd length (R305). -/
def execMapQpsk (s : State) : Host.Outcome State Fault Refusal :=
  if s.run.len % 2 = 0 then
    .next (s.mapped ((List.range (s.run.np s.params .qpsk)).map (qpskIdeal s.params s.res)))
  else .fault .oddQpskLength

end Sys2Proof.Machine
end

