-- ==== Sys2Proof/Machine/Carrier.lean ====
section
/-! DEFINITION. carrier_generator (spec/40_carrier_generator.md). -/
namespace Sys2Proof.Machine

/-- `t(n) = n / (SPB·Rb)` (R122). -/
def timeAt (r : Settings) (n : Nat) : RNum := RNum.over (.ofNat n) (RNum.times (.ofNat r.spb.toNat) r.bitrate)

/-- `θ(n) = 2π·fc·t(n)` (R123). -/
def theta (r : Settings) (n : Nat) : RNum := RNum.times (RNum.times (.pi 2) r.carfreq) (timeAt r n)

/-- `carrier(n, φ) = cos(θ(n) + φ)` (R123). -/
def carrier (r : Settings) (n : Nat) (φ : RNum) : RNum := RNum.cosine (RNum.plus (theta r n) φ)

/-- `refI(n) = cos θ(n)` (R124). -/
def refI (r : Settings) (n : Nat) : RNum := RNum.cosine (theta r n)

/-- `refQ(n) = sin θ(n)` (R124). -/
def refQ (r : Settings) (n : Nat) : RNum := RNum.sine (theta r n)

/-- The time grid of a run (R121). -/
def timeGrid (r : Settings) : List RNum := (List.range (r.ns r.scheme)).map (timeAt r)

/-- GENERATE and its completion (R121, R232). -/
def execGenerate (s : State) : Host.Outcome State Fault Refusal :=
  if (timeGrid s.run).all RNum.finite then
    .next (({ s with
      res := { s.res with
        time := timeGrid s.run
        nsamp := some (BitVec.ofNat 32 (s.run.ns s.run.scheme))
        nsymb := some (BitVec.ofNat 32 (s.run.nsym s.run.scheme)) } } : State).advance .modulating)
  else .next (s.raiseUnexpected causeNonfinite)

end Sys2Proof.Machine
end

