-- ==== Sys2Proof/Machine/Demodulator.lean ====
section
/-! DEFINITION. matched_filter_demodulator (spec/44_matched_filter_demodulator.md). -/
namespace Sys2Proof.Machine

/-- W.ISUM at the end of a block of `w` samples from `n0`: `Σ RX[n]·refI(n)` in increasing `n` (R171, R175). -/
def iSum (r : Settings) (rx : List RNum) (n0 w : Nat) : RNum :=
  (List.range' n0 w).foldl (fun acc n => RNum.plus acc (RNum.times (numAt rx n) (refI r n))) (.rat 0)

/-- W.QSUM at the end of a block: `Σ −RX[n]·refQ(n)` in increasing `n` (R175). -/
def qSum (r : Settings) (rx : List RNum) (n0 w : Nat) : RNum :=
  (List.range' n0 w).foldl (fun acc n => RNum.minus acc (RNum.times (numAt rx n) (refQ r n))) (.rat 0)

/-- The in-phase sum of symbol `k` (R69, R171, R175). -/
def iSumOf (m : Scheme) (r : Settings) (rx : List RNum) (k : Nat) : RNum := iSum r rx (k * r.sps m) (r.sps m)

/-- The quadrature sum of symbol `k` (R69, R175). -/
def qSumOf (m : Scheme) (r : Settings) (rx : List RNum) (k : Nat) : RNum := qSum r rx (k * r.sps m) (r.sps m)

/-- The decision on a sum: 1 when it is not below 0 (R172). -/
def decideBit (x : RNum) : Byte := if x.nonneg then 1 else 0

/-- `qpsk_decide(iBit, qBit)`, the table of R176. -/
def qpskDecide (iBit qBit : Bool) : Byte × Byte :=
  match iBit, qBit with
  | true, true => (0, 0)
  | false, true => (0, 1)
  | false, false => (1, 1)
  | true, false => (1, 0)

/-- The two bits decided for symbol `k` (R175). -/
def qpskPair (r : Settings) (rx : List RNum) (k : Nat) : Byte × Byte :=
  qpskDecide (iSumOf .qpsk r rx k).nonneg (qSumOf .qpsk r rx k).nonneg

/-- The sums of DEMOD.BPSK, by symbol (R171). -/
def bpskSums (r : Settings) (rx : List RNum) : List RNum := (List.range r.len).map (iSumOf .bpsk r rx)

/-- The sums of DEMOD.QPSK, in-phase and quadrature, by symbol (R175). -/
def qpskSums (r : Settings) (rx : List RNum) : List (RNum × RNum) :=
  (List.range (r.nsym .qpsk)).map (fun k => (iSumOf .qpsk r rx k, qSumOf .qpsk r rx k))

/-- RXBITS as DEMOD.BPSK writes it (R171). -/
def bpskBits (r : Settings) (rx : List RNum) : List Byte := (bpskSums r rx).map decideBit

/-- RXBITS as DEMOD.QPSK writes it: two bits a symbol, the first bit first (R175). -/
def qpskBits (r : Settings) (rx : List RNum) : List Byte :=
  (List.range (r.nsym .qpsk)).flatMap (fun k => [(qpskPair r rx k).1, (qpskPair r rx k).2])

/-- RXBITS takes the decided bits and Demodulating completes (R235); a sum with no real value raises F_NONFINITE (R263). -/
def State.demodulated (s : State) (ok : Bool) (bits : List Byte) : State :=
  if ok then ({ s with res := { s.res with rxbits := bits } } : State).advance .mapping
  else s.raiseUnexpected causeNonfinite

/-- DEMOD.BPSK and its completion (R171, R235). -/
def execDemodBpsk (s : State) : Host.Outcome State Fault Refusal :=
  .next (s.demodulated ((bpskSums s.run s.res.rx).all RNum.finite) (bpskBits s.run s.res.rx))

/-- DEMOD.QPSK and its completion (R175, R235); refused on an odd length, on which MFD is not defined (R181). -/
def execDemodQpsk (s : State) : Host.Outcome State Fault Refusal :=
  if s.run.len % 2 = 0 then
    .next (s.demodulated ((qpskSums s.run s.res.rx).all (fun p => p.1.finite && p.2.finite)) (qpskBits s.run s.res.rx))
  else .refused .oddQpskLength

end Sys2Proof.Machine
end

