-- ==== Sys2Proof/Machine/Modulators.lean ====
section
/-! DEFINITION. bpsk_modulator (spec/41_bpsk_modulator.md) and qpsk_modulator (spec/42_qpsk_modulator.md), with the
completion of Modulating (spec/47 R233). -/
namespace Sys2Proof.Machine

/-- `bpsk_phase`: "phase = 0 if `bit[k]==1` else π" (R131, R132). -/
def bpskPhase (b : Byte) : RNum := if b = 1 then .rat 0 else .pi 1

/-- Sample `n` of MOD.BPSK: `A · carrier(n, φ)` (R131). -/
def bpskSample (r : Settings) (bits : List Byte) (n : Nat) : RNum :=
  RNum.times r.caramp (carrier r n (bpskPhase (bitAt bits (r.symbolOf .bpsk n))))

/-- The waveform of MOD.BPSK (R131). -/
def bpskWave (r : Settings) (bits : List Byte) : List RNum := (List.range (r.ns .bpsk)).map (bpskSample r bits)

/-- `qpsk_phase`, the table of R142. A pair that is not of bits is a free value (notes/assumptions/18.md). -/
def qpskPhase (b1 b2 : Byte) : RNum :=
  if b1 = 0 ∧ b2 = 0 then .pi (1 / 4)
  else if b1 = 0 ∧ b2 = 1 then .pi (3 / 4)
  else if b1 = 1 ∧ b2 = 1 then .pi (5 / 4)
  else if b1 = 1 ∧ b2 = 0 then .pi (7 / 4)
  else Config.openPhase b1 b2

/-- The second bit of symbol `k`: 0 for the missing partner of an odd length's last bit (R141, R143). -/
def secondBit (r : Settings) (bits : List Byte) (k : Nat) : Byte :=
  if 2 * k + 1 < r.len then bitAt bits (2 * k + 1) else 0

/-- Sample `n` of MOD.QPSK (R141). -/
def qpskSample (r : Settings) (bits : List Byte) (n : Nat) : RNum :=
  RNum.times r.caramp
    (carrier r n (qpskPhase (bitAt bits (2 * r.symbolOf .qpsk n)) (secondBit r bits (r.symbolOf .qpsk n))))

/-- The waveform of MOD.QPSK (R141). -/
def qpskWave (r : Settings) (bits : List Byte) : List RNum := (List.range (r.ns .qpsk)).map (qpskSample r bits)

/-- MOD takes a waveform and Modulating completes (R233): to NoiseInjection, or with the bypass copy RX = MOD (R151) to
Demodulating. A sample with no real value raises F_NONFINITE (R263). -/
def State.modulated (s : State) (wave : List RNum) : State :=
  if wave.all RNum.finite then
    if s.run.noiseen then ({ s with res := { s.res with mod := wave } } : State).advance .noiseInjection
    else ({ s with res := { s.res with mod := wave, rx := wave } } : State).advance .demodulating
  else s.raiseUnexpected causeNonfinite

/-- MOD.BPSK and its completion (R131, R233). -/
def execModBpsk (s : State) : Host.Outcome State Fault Refusal := .next (s.modulated (bpskWave s.run s.res.runbits))

/-- MOD.QPSK and its completion (R141, R233). -/
def execModQpsk (s : State) : Host.Outcome State Fault Refusal := .next (s.modulated (qpskWave s.run s.res.runbits))

end Sys2Proof.Machine
end

