-- ==== Sys2Proof/Machine/Noise.lean ====
section
/-! DEFINITION. gaussian_noise_injector (spec/43_gaussian_noise_injector.md). -/
namespace Sys2Proof.Machine

/-- W.PACC at the end of its loop: the sum of `MOD[n]²` in increasing `n` (R152). -/
def powerSum (wave : List RNum) : RNum := wave.foldl (fun acc x => RNum.plus acc (RNum.square x)) (.rat 0)

/-- The samples of a buffer that a stage reads, in increasing index. -/
def samples (b : List RNum) (ns : Nat) : List RNum := (List.range ns).map (numAt b)

/-- `P`, the mean signal power (R153). -/
def meanPower (wave : List RNum) : RNum := RNum.over (powerSum wave) (.ofNat wave.length)

/-- `SNRlin = 10^(S/10)` (R154). -/
def snrLinear (r : Settings) : RNum := RNum.tenTo (RNum.over r.snrdb (.rat 10))

/-- The noise power: `P/SNRlin`, or NOISE_FLOOR when `P` is not above 0 (R154, R155). -/
def noisePower (r : Settings) (p : RNum) : RNum := if p.isPos then RNum.over p (snrLinear r) else .noiseFloor

/-- `σ` (R154). -/
def noiseSigma (r : Settings) (p : RNum) : RNum := RNum.root (noisePower r p)

/-- `z = sqrt(−2·ln u1)·cos(2π·u2)` (R156). -/
def gauss (u1 u2 : RNum) : RNum :=
  RNum.times (RNum.root (RNum.times (.rat (-2)) (RNum.log u1))) (RNum.cosine (RNum.times (.pi 2) u2))

/-- The second loop of R152: for each sample two draws, `u1` first, then `RX[n] = MOD[n] + σ·z`; or the cause and the
stream position at which the stage stops (R157, R263; `σ` itself is found finite before the loop). -/
def noiseLoop (sigma : RNum) : List RNum → Urng → Except (BitVec 8 × Urng) (List RNum × Urng)
  | [], u => .ok ([], u)
  | x :: xs, u =>
    match u.take with
    | .error e => .error e
    | .ok (u1, ua) =>
      match ua.take with
      | .error e => .error e
      | .ok (u2, ub) =>
        if x.finite && (gauss u1 u2).finite then
          match noiseLoop sigma xs ub with
          | .ok (ys, uc) => .ok (RNum.plus x (RNum.times sigma (gauss u1 u2)) :: ys, uc)
          | .error e => .error e
        else .error (causeNonfinite, ub)

/-- The waveform GNI reads (R150). -/
def State.signal (s : State) : List RNum := samples s.res.mod (s.run.ns s.run.scheme)

/-- Its mean power `P` (R153). -/
def State.power (s : State) : RNum := meanPower s.signal

/-- Its `σ` (R154). -/
def State.sigma (s : State) : RNum := noiseSigma s.run s.power

/-- `flag DEGEN` when the clamp applies (R155, R265). -/
def State.flagDegen (s : State) : State := { s with degen := s.degen || !s.power.isPos }

/-- NOISE and its completion (R152, R234). It runs on the waveform of an odd QPSK length too, on which R143 says that no
unit but QM is defined: DESIGN CHOICE, unsafe, in states no run reaches (notes/assumptions/33.md). -/
def execNoise (s : State) : Host.Outcome State Fault Refusal :=
  if s.power.finite && (snrLinear s.run).finite then
    if s.sigma.finite then
      match noiseLoop s.sigma s.signal s.urng with
      | .ok (rx, u) =>
        .next (({ s.flagDegen with res := { s.res with rx := rx }, urng := u } : State).advance .demodulating)
      | .error (cause, u) => .next (({ s.flagDegen with urng := u } : State).raiseUnexpected cause)
    else .next (s.flagDegen.raiseUnexpected causeNonfinite)
  else .next (s.raiseUnexpected causeNonfinite)

end Sys2Proof.Machine
end

