-- ==== Sys2Proof/Machine/Sequencer.lean ====
section
/-! DEFINITION. The validation gate (spec/47_sequencer_and_commands.md R230, R231). -/
namespace Sys2Proof.Machine

/-- `0 < x ≤ max` for a finite `x`; no bound where the instance has none (R230 checks 0 to 2). -/
def positiveWithin (max : Option RNum) (x : RNum) : Bool :=
  x.finite && x.isPos &&
    match max with
    | some m => x.atMost m
    | none => true

/-- `min ≤ x ≤ max` for a finite `x` (R230 check 6). -/
def within (min max : Option RNum) (x : RNum) : Bool :=
  x.finite &&
    (match min with
     | some m => m.atMost x
     | none => true) &&
    match max with
    | some m => x.atMost m
    | none => true

/-- A transmitted bit is 0 or 1 (R230 check 9). -/
def isBit (b : Byte) : Bool := b == 0 || b == 1

/-- The ten checks of R230 in order, each true when it passes. -/
def checks (p : Params) (r : Settings) (bits : List Byte) : List Bool :=
  [ positiveWithin p.bitrateMax r.bitrate,
    positiveWithin p.carfreqMax r.carfreq,
    positiveWithin p.carampMax r.caramp,
    r.modtype == 0 || r.modtype == 1,
    decide (3 ≤ r.len) && decide (r.len ≤ p.lmax),
    r.modtype != 1 || r.len % 2 == 0,
    !r.noiseen || within p.snrMin p.snrMax r.snrdb,
    decide (p.spbMin ≤ r.spb.toNat) && decide (r.len * r.spb.toNat ≤ p.nsMax),
    r.txcount == r.datalen,
    (List.range (min (min r.txcount.toNat r.len) p.lmax)).all (fun k => isBit (bitAt bits k)) ]

/-- The number whose bit `i` is 1 exactly when check `i` failed. -/
def failMask : List Bool → Nat
  | [] => 0
  | c :: cs => (if c then 0 else 1) + 2 * failMask cs

/-- VERRMASK as the gate computes it (R34, R230). -/
def State.gateMask (s : State) : BitVec 10 := BitVec.ofNat 10 (failMask (checks s.params s.run s.res.runbits))

/-- The lowest failed check (R230). -/
def State.firstFailed (s : State) : Nat := (checks s.params s.run s.res.runbits).findIdx (fun c => !c)

/-- VALIDATE and its completion (R230, R231). -/
def execValidate (s : State) : Host.Outcome State Fault Refusal :=
  if s.gateMask = 0 then .next (({ s with verrmask := 0 } : State).advance .generating)
  else .next (s.raiseValidation s.gateMask (causeValidation s.firstFailed))

end Sys2Proof.Machine
end

