-- ==== Sys2Proof/Machine/Dispatch.lean ====
section
/-! DEFINITION. The meaning of every operation, by constructor. -/
namespace Sys2Proof.Machine

def exec (i : Instr) (s : State) : Host.Outcome State Fault Refusal :=
  match i with
  | .nop => Sys2Proof.Machine.execNop s
  | .start => Sys2Proof.Machine.execStart s
  | .abort => Sys2Proof.Machine.execAbort s
  | .clear => Sys2Proof.Machine.execClear s
  | .rd idx => Sys2Proof.Machine.execRd idx s
  | .wr idx v => Sys2Proof.Machine.execWr idx v s
  | .rb space j => Sys2Proof.Machine.execRb space j s
  | .wb space j v => Sys2Proof.Machine.execWb space j v s
  | .validate => Sys2Proof.Machine.execValidate s
  | .generate => Sys2Proof.Machine.execGenerate s
  | .modBpsk => Sys2Proof.Machine.execModBpsk s
  | .modQpsk => Sys2Proof.Machine.execModQpsk s
  | .noise => Sys2Proof.Machine.execNoise s
  | .demodBpsk => Sys2Proof.Machine.execDemodBpsk s
  | .demodQpsk => Sys2Proof.Machine.execDemodQpsk s
  | .mapBpsk => Sys2Proof.Machine.execMapBpsk s
  | .mapQpsk => Sys2Proof.Machine.execMapQpsk s
  | .berBpsk => Sys2Proof.Machine.execBerBpsk s
  | .berQpsk => Sys2Proof.Machine.execBerQpsk s

end Sys2Proof.Machine
end

