-- ==== Sys2Proof/Machine/Fetch.lean ====
section
/-! DEFINITION. What the next step does: the turn of an agent (spec/10_state.md R20), the sequencer's selector (spec/30
R95), and where an encoded operation is placed so that it comes next. -/
namespace Sys2Proof.Machine

/-- The sequencer's step: the stage its selector names while BUSY, nothing otherwise (R95, R238). -/
def State.sequencerCode (s : State) : Fetched := if s.busy then .code (.stage s.selector) else .nothing

/-- The next turn and the state with the turn taken. With no turn listed the sequencer is scheduled (R310,
notes/assumptions/8.md). -/
def State.fetch (s : State) : Fetched × State :=
  match s.turns with
  | [] => (s.sequencerCode, s)
  | .sequencer :: ts => (s.sequencerCode, { s with turns := ts })
  | .command w :: ts => (.code (.cmd w), { s with turns := ts })
  | .bus h i v :: ts => (.code (.bus h i v), { s with turns := ts })
  | .reset :: ts => (.reset, { s with turns := ts })

/-- The state in which an encoded operation comes next: a command or a transaction is the host's next turn; a stage
selector is PHASE and RUN.MODTYPE[0], with the sequencer's turn next (R95). A selector with a phase code that is never
produced cannot be placed. -/
def State.placeCode (s : State) (c : Code) : State :=
  match c with
  | .cmd w => { s with turns := .command w :: s.turns }
  | .bus h i v => { s with turns := .bus h i v :: s.turns }
  | .stage sel =>
    match Phase.ofCode (sel.extractLsb' 0 4) with
    | some p =>
      { s with turns := .sequencer :: s.turns, phase := p, run := { s.run with modtype := (sel.extractLsb' 4 1).setWidth 32 } }
    | none => s

end Sys2Proof.Machine
end

