-- ==== Sys2Proof/Machine/Step.lean ====
section
/-! DEFINITION. One step of the machine: one turn of the host, of the reset input or of the sequencer. -/
namespace Sys2Proof.Machine

/-- The outcome of an encoded operation: its meaning, or what R98 says of an encoding that selects none. -/
def runCode (c : Code) (s : State) : Host.Outcome State Fault Refusal :=
  match decode c with
  | .ok i => exec i s
  | .error e => .next (s.refuseCode c e)

/-- One step. -/
def step (s : State) : Host.Outcome State Fault Refusal :=
  match s.fetch with
  | (.code c, t) => runCode c t
  | (.reset, t) => .next t.afterReset
  | (.nothing, t) => .next t

/-- The state with the operation of a table row stored where `step` fetches its next one (DESIGN CHOICE,
notes/assumptions/17.md). -/
def State.withFetchWord (s : State) (nbits w : Nat) : State :=
  match codeOfTable nbits w with
  | some c => s.placeCode c
  | none => s

end Sys2Proof.Machine
end

