-- ==== Sys2Proof/Machine/Views.lean ====
section
/-! DEFINITION. The result bundle and the host-side views of a run (spec/47_sequencer_and_commands.md R241). Labels are
rendering text and no part of the block (spec/00 R7). -/
namespace Sys2Proof.Machine

/-- A SampledSignal without its label (R15, R241). -/
structure SampledSignal where
  /-- Seconds. -/
  time : List RNum
  /-- Amplitude. -/
  amplitude : List RNum
  deriving DecidableEq, Repr

/-- SimulationResult (R241). -/
structure Bundle where
  /-- The transmitted bits held over their samples. -/
  digitalSignal : SampledSignal
  /-- The modulator's output before the channel. -/
  modulatedSignal : SampledSignal
  /-- The demodulated bits held over their samples. -/
  demodulatedSignal : SampledSignal
  /-- constellationData.transmitted. -/
  transmitted : List Point
  /-- constellationData.received. -/
  received : List Point
  /-- ber.value. -/
  berValue : Option RNum
  /-- ber.errorsCount. -/
  errorsCount : Option Word
  /-- ber.totalBits. -/
  totalBits : Option Word
  /-- ber.snrDb, none where the source says undefined. -/
  snrDb : Option RNum
  deriving DecidableEq, Repr

/-- The levels 0 and 1 of a bit buffer held for SPB samples a bit (R241). -/
def heldBits (s : State) (bits : List Byte) : SampledSignal :=
  { time := s.res.time
    amplitude := (List.range s.res.time.length).map (fun n => .ofNat (bitAt bits (n / s.run.spb.toNat)).toNat) }

/-- The result bundle, in Done only (R70, R241). -/
def State.bundle (s : State) : Option Bundle :=
  if s.phase = .done then
    some
      { digitalSignal := heldBits s s.res.runbits
        modulatedSignal := { time := s.res.time, amplitude := s.res.mod }
        demodulatedSignal := heldBits s s.res.rxbits
        transmitted := s.res.ctx
        received := s.res.crx
        berValue := s.res.berValue
        errorsCount := s.res.berErrcnt
        totalBits := s.res.berTotal
        snrDb := if s.snrv then s.res.berSnrdb else none }
  else none

end Sys2Proof.Machine
end

