-- ==== Sys2Proof/Safety.lean ====
section
/-! DEFINITION. What claims about runs are stated in: what each stage of a run leaves behind (spec/47 R239, R244), and the
invariant of the machine. -/
namespace Sys2Proof.Machine

/-- The modulated waveform of a run (R233, R239). -/
def waveOf (r : Settings) (bits : List Byte) : List RNum :=
  match r.scheme with
  | .bpsk => bpskWave r bits
  | .qpsk => qpskWave r bits

/-- The demodulated bits of a run (R235, R239). -/
def bitsOf (r : Settings) (rx : List RNum) : List Byte :=
  match r.scheme with
  | .bpsk => bpskBits r rx
  | .qpsk => qpskBits r rx

/-- The symbols MAP places (R191, R236, R239). -/
def idealsOf (p : Params) (r : Settings) (res : Results) : List Ideal :=
  match r.scheme with
  | .bpsk => (List.range (r.np p .bpsk)).map (bpskIdeal res)
  | .qpsk => (List.range (r.np p .qpsk)).map (qpskIdeal p res)

/-- The error count of a run (R237, R239). -/
def errorsOf (r : Settings) (res : Results) : Nat :=
  match r.scheme with
  | .bpsk => bpskErrors r res
  | .qpsk => qpskErrors r res

/-- PHASE lies between the code `k` and Done. -/
def State.past (s : State) (k : Nat) : Bool := decide (k ≤ s.phase.code.toNat) && s.phase.code.toNat ≤ 8

/-- What START leaves: the latched bits (R222). -/
structure State.Latched (s : State) : Prop where
  length : s.res.runbits.length = min s.run.txcount.toNat s.params.lmax

/-- What VALIDATE leaves: all ten checks hold of the snapshot (R230, R231). -/
structure State.Validated (s : State) : Prop where
  checks : s.gateMask = 0

/-- What GENERATE leaves (R121). -/
structure State.Generated (s : State) : Prop where
  time : s.res.time = timeGrid s.run
  finite : s.res.time.all RNum.finite = true
  nsamp : s.res.nsamp = some (BitVec.ofNat 32 (s.run.ns s.run.scheme))
  nsymb : s.res.nsymb = some (BitVec.ofNat 32 (s.run.nsym s.run.scheme))

/-- What MOD leaves (R131, R141). -/
structure State.Modulated (s : State) : Prop where
  mod : s.res.mod = waveOf s.run s.res.runbits
  finite : s.res.mod.all RNum.finite = true

/-- What the channel leaves: noisy samples, or the copy of MOD (R151, R152). -/
structure State.Received (s : State) : Prop where
  length : s.res.rx.length = s.run.ns s.run.scheme
  finite : s.res.rx.all RNum.finite = true
  bypass : s.run.noiseen = false → s.res.rx = s.res.mod

/-- What DEMOD leaves (R171, R175). -/
structure State.Demodulated (s : State) : Prop where
  bits : s.res.rxbits = bitsOf s.run s.res.rx

/-- What MAP leaves (R192, R193). -/
structure State.Mapped (s : State) : Prop where
  ctx : s.res.ctx = (idealsOf s.params s.run s.res).map Ideal.sent
  crxLength : s.res.crx.length = s.run.np s.params s.run.scheme
  crxFinite : s.res.crx.all Point.finite = true
  crxFlags : s.res.crx.map Point.err = (idealsOf s.params s.run s.res).map (fun d => (BitVec.ofBool d.err).setWidth 32)
  crxSym : s.res.crx.map Point.sym = (idealsOf s.params s.run s.res).map Ideal.sym
  crxIdeal : s.run.noiseen = false → s.res.crx = (idealsOf s.params s.run s.res).map (fun d => d.received (.rat 0) (.rat 0))
  npts : s.res.npts = some (BitVec.ofNat 32 (s.run.np s.params s.run.scheme))

/-- What BER leaves (R211 to R214). -/
structure State.Counted (s : State) : Prop where
  errcnt : s.res.berErrcnt = some (BitVec.ofNat 32 (errorsOf s.run s.res))
  total : s.res.berTotal = some s.run.datalen
  value : s.res.berValue = some (berRate s.run (errorsOf s.run s.res))
  finite : (berRate s.run (errorsOf s.run s.res)).finite = true
  snr : s.res.berSnrdb = if s.run.noiseen then some s.run.snrdb else none

/-- Each stage's outputs are there from its end to Done, and absent in every other phase (R70, R71, R239, R244). -/
structure State.Produced (s : State) : Prop where
  latched : s.past 1 = true → s.Latched
  noRunbits : s.past 1 = false → s.res.runbits = []
  validated : s.past 2 = true → s.Validated
  generated : s.past 3 = true → s.Generated
  noTime : s.past 3 = false → s.res.time = [] ∧ s.res.nsamp = none ∧ s.res.nsymb = none
  modulated : s.past 4 = true → s.Modulated
  noMod : s.past 4 = false → s.res.mod = []
  received : s.past 5 = true → s.Received
  noRx : s.past 5 = false → s.res.rx = []
  demodulated : s.past 6 = true → s.Demodulated
  noRxbits : s.past 6 = false → s.res.rxbits = []
  mapped : s.past 7 = true → s.Mapped
  noPoints : s.past 7 = false → s.res.ctx = [] ∧ s.res.crx = [] ∧ s.res.npts = none
  counted : s.past 8 = true → s.Counted
  noBer : s.past 8 = false →
    s.res.berErrcnt = none ∧ s.res.berTotal = none ∧ s.res.berValue = none ∧ s.res.berSnrdb = none

/-- What CAUSE and VERRMASK say in each phase (R33, R34, R223, R261, R266, R267, R271). -/
structure State.CauseFits (s : State) : Prop where
  running : s.past 1 = true → s.cause = causeNone ∧ s.verrmask = 0
  idle : s.phase = .idle → (s.cause = causeNone ∨ s.cause = causeAborted) ∧ s.verrmask = 0
  failed : s.phase = .failed →
    (s.verrmask ≠ 0 ∧ ∃ i, i < 10 ∧ s.verrmask.getLsbD i = true ∧ (∀ j, j < i → s.verrmask.getLsbD j = false) ∧
      s.cause = causeValidation i) ∨
    (s.verrmask = 0 ∧ (s.cause = causeRngRange ∨ s.cause = causeNonfinite))

/-- The invariant of the machine: TXBITS is in its canonical form below LMAX, the working registers hold nothing between
stages (R21), CAUSE and VERRMASK fit the phase, SNRV is set exactly in Done after a noisy run (R25, R214), a run in
NoiseInjection is a noisy one (R95), and the results are those of the stages done so far. -/
structure State.Inv (s : State) : Prop where
  txForm : Memory.wf s.txbits = true
  txBelow : ∀ c ∈ s.txbits, c.1 < s.params.lmax
  work : s.work = Work.empty
  causes : s.CauseFits
  snrv : s.snrv = (s.phase == .done && s.run.noiseen)
  noisy : s.phase = .noiseInjection → s.run.noiseen = true
  produced : s.Produced

/-- The instance's capacities fit the 32-bit registers and indices (R8, R9: validation bounds a run's quantities below
`2^32`; DEDUCED, notes/assumptions/5.md). -/
structure Params.Fits (p : Params) : Prop where
  spbMin : 2 ≤ p.spbMin
  lmaxLow : 4 ≤ p.lmax
  nsMaxLow : p.spbMin * 4 ≤ p.nsMax
  lmax : p.lmax < 2 ^ 32
  nsMax : p.nsMax < 2 ^ 32

/-! ### Frames -/

/-- What no stage of a run touches, a failing stage included: the parameters, the snapshot, the host's registers, the
interface flags, TXBITS as it reads, and the model's own fields (R40, R71, R266, R267). -/
structure StageFrame (s t : State) : Prop where
  params : t.params = s.params
  run : t.run = s.run
  cfg : t.cfg = s.cfg
  ien : t.ien = s.ien
  cmderr : t.cmderr = s.cmderr
  accerr : t.accerr = s.accerr
  txbits : ∀ i, t.txRead i = s.txRead i
  turns : t.turns = s.turns
  rdata : t.rdata = s.rdata
  epoch : t.epoch = s.epoch

/-- Besides, no flag, no cause and no draw: a stage other than NOISE, MAP and BER that does not fail. -/
structure PlainStage (s t : State) : Prop extends StageFrame s t where
  degen : t.degen = s.degen
  snrv : t.snrv = s.snrv
  cause : t.cause = s.cause
  verrmask : t.verrmask = s.verrmask
  urng : t.urng = s.urng

/-- What a run reads and writes: all of the state but what the host alone reads and writes (R40, R302). -/
structure RunView where
  params : Params
  phase : Phase
  degen : Bool
  snrv : Bool
  cause : BitVec 8
  verrmask : BitVec 10
  run : Settings
  res : Results
  work : Work
  urng : Urng
  deriving DecidableEq, Repr

/-- The run's part of a state. -/
def State.view (s : State) : RunView :=
  { params := s.params, phase := s.phase, degen := s.degen, snrv := s.snrv, cause := s.cause, verrmask := s.verrmask,
    run := s.run, res := s.res, work := s.work, urng := s.urng }

/-- A command word that is none of START, ABORT and CLEAR: NOP, or a word that is no command in any instance (R93, R225). -/
def quietWord (w : Word) : Bool := !(w == 1 || w == 2 || w == 3)

/-- A turn that is neither the reset input nor the command START, ABORT or CLEAR, presented as a command word or written to
CMD through the bus. -/
def Turn.quiet : Turn → Bool
  | .sequencer => true
  | .reset => false
  | .command w => quietWord w
  | .bus h i v =>
    match decodeBus h i v with
    | .ok (.wr idx x) => idx != Reg.cmd.index || quietWord (operandWord x)
    | _ => true

/-- The phases a step can lead to from a phase, reset apart (R24, R222 to R224, R231 to R238, R266, R267). -/
def Phase.follows (noise : Bool) : Phase → List Phase
  | .idle => [.idle, .validating]
  | .validating => [.validating, .generating, .failed, .idle]
  | .generating => [.generating, .modulating, .failed, .idle]
  | .modulating => [.modulating, if noise then .noiseInjection else .demodulating, .failed, .idle]
  | .noiseInjection => [.noiseInjection, .demodulating, .failed, .idle]
  | .demodulating => [.demodulating, .mapping, .failed, .idle]
  | .mapping => [.mapping, .computing, .failed, .idle]
  | .computing => [.computing, .done, .failed, .idle]
  | .done => [.done, .validating, .idle]
  | .failed => [.failed, .validating, .idle]

/-! ### The stream -/

/-- `U(URNG.pos + k)`: the value of the draw after `k` others (R46). -/
def Urng.value (u : Urng) (k : Nat) : RNum := u.next[k]?.getD (Config.urng (u.pos + k))

/-- The port after `k` draws (R46). -/
def Urng.after (u : Urng) (k : Nat) : Urng := { pos := u.pos + k, next := u.next.drop k }

/-! ### Runs over the real numbers -/

/-- `t(n)` (R122). -/
noncomputable def Settings.time (r : Settings) (n : Nat) : ℝ := n / (r.spb.toNat * r.bitrate.val)

/-- `θ(n)` (R123). -/
noncomputable def Settings.angle (r : Settings) (n : Nat) : ℝ := 2 * Real.pi * r.carfreq.val * r.time n

/-- `ψ`, the angle step (R125). -/
noncomputable def Settings.angleStep (r : Settings) : ℝ := 2 * Real.pi * r.carfreq.val / (r.spb.toNat * r.bitrate.val)

/-- The divisor `SPB·Rb` of the time grid is positive (R121: checks 0 and 7 passed). -/
structure Settings.Timed (r : Settings) : Prop where
  spb : 0 < r.spb.toNat
  finite : r.bitrate.finite = true
  positive : 0 < r.bitrate.val

/-- The carrier of a run stands for real numbers. -/
structure Settings.Carried (r : Settings) : Prop extends r.Timed where
  carfreq : r.carfreq.finite = true

/-- Validation check `i` over the reals (R230). -/
def CheckHolds (p : Params) (r : Settings) (bits : List Byte) (i : Fin 10) : Prop :=
  match i with
  | 0 => r.bitrate.finite = true ∧ 0 < r.bitrate.val ∧ ∀ m ∈ p.bitrateMax, r.bitrate.val ≤ m.val
  | 1 => r.carfreq.finite = true ∧ 0 < r.carfreq.val ∧ ∀ m ∈ p.carfreqMax, r.carfreq.val ≤ m.val
  | 2 => r.caramp.finite = true ∧ 0 < r.caramp.val ∧ ∀ m ∈ p.carampMax, r.caramp.val ≤ m.val
  | 3 => r.modtype = 0 ∨ r.modtype = 1
  | 4 => 3 ≤ r.len ∧ r.len ≤ p.lmax
  | 5 => r.modtype ≠ 1 ∨ r.len % 2 = 0
  | 6 => r.noiseen = false ∨ (r.snrdb.finite = true ∧ (∀ m ∈ p.snrMin, m.val ≤ r.snrdb.val) ∧ ∀ m ∈ p.snrMax, r.snrdb.val ≤ m.val)
  | 7 => p.spbMin ≤ r.spb.toNat ∧ r.len * r.spb.toNat ≤ p.nsMax
  | 8 => r.txcount = r.datalen
  | 9 => ∀ k, k < min (min r.txcount.toNat r.len) p.lmax → bits[k]? = some 0 ∨ bits[k]? = some 1

/-- The valid length of a space as the host addresses it (R49, R63, R66). -/
def State.validLength (s : State) : Space → Nat
  | .txbits => s.params.lmax
  | .runbits | .rxbits => s.run.len
  | .time | .mod | .rx => s.run.ns s.run.scheme
  | .ctx | .crx => 4 * s.run.np s.params s.run.scheme

/-- The phase of a QPSK pair (R142). -/
noncomputable def pairAngle (b1 b2 : Byte) : ℝ :=
  if b1 = 0 then (if b2 = 0 then Real.pi / 4 else 3 * Real.pi / 4)
  else if b2 = 1 then 5 * Real.pi / 4 else 7 * Real.pi / 4

/-- `Σ RX[n]·cos θ(n)` over a block of `w` samples from `n0` (R171, R175). -/
noncomputable def inPhase (r : Settings) (rx : List RNum) (n0 w : Nat) : ℝ :=
  ∑ j ∈ Finset.range w, (numAt rx (n0 + j)).val * Real.cos (r.angle (n0 + j))

/-- `−Σ RX[n]·sin θ(n)` over a block (R175). -/
noncomputable def quadrature (r : Settings) (rx : List RNum) (n0 w : Nat) : ℝ :=
  -∑ j ∈ Finset.range w, (numAt rx (n0 + j)).val * Real.sin (r.angle (n0 + j))

end Sys2Proof.Machine
end

