-- ==== Sys2Proof/Certificates/Slice0/Obligations.lean ====
section
/-! DEFINITION. The statements for the provers, with the rules of spec/ they rest on. -/

open Sys2Proof Sys2Proof.Machine

/-! ### Encoding -/

/-- Decoding the encoding of an operation gives the operation (R93, R94, R96). -/
def Obligations.EncodeThenDecode : Prop :=
  ∀ i : Instr, i.wellFormed = true → decode (encode i) = .ok i

/-- What decodes to an operation is that operation's encoding, but for an operand its kind ignores (R94) and the selector
bit `m` that phases 1, 2 and 4 ignore (R95, R96). -/
def Obligations.DecodeThenEncode : Prop :=
  ∀ (c : Code) (i : Instr), decode c = .ok i →
    match c, encode i with
    | .cmd w, .cmd w' => w' = w
    | .bus h j v, .bus h' j' v' => h' = h ∧ (h.getLsbD 31 = true → j' = j) ∧ (h.getLsbD 30 = true → v' = v)
    | .stage x, .stage x' =>
      x'.extractLsb' 0 4 = x.extractLsb' 0 4 ∧ (x' = x ∨ x.extractLsb' 0 4 = 1 ∨ x.extractLsb' 0 4 = 2 ∨ x.extractLsb' 0 4 = 4)
    | _, _ => False

/-- Exactly these encodings select no operation: a command word outside the table (R92, R98), a header with a nonzero
must-be-zero field (R94), a selector whose phase is not busy (R96). -/
def Obligations.RefusedEncodings : Prop :=
  (∀ w : Word, decode (.cmd w) = .error .illegalCommand ↔ w.extractLsb' 8 24 ≠ 0 ∨ 3 < (w.extractLsb' 0 8).toNat) ∧
  (∀ (h j : Word) (v : Val), decode (.bus h j v) = .error .nonzeroField ↔
    (h.getLsbD 31 = false ∧ h.extractLsb' 16 14 ≠ 0) ∨ (h.getLsbD 31 = true ∧ h.extractLsb' 0 26 ≠ 0)) ∧
  (∀ x : BitVec 5, decode (.stage x) = .error .noStage ↔
    (x.extractLsb' 0 4).toNat = 0 ∨ 8 ≤ (x.extractLsb' 0 4).toNat)

/-- Words of the spec's own programs decode as it says (R93, R94, R96; spec/95 P1, P2). -/
def Obligations.KnownWords : Prop :=
  decode (.cmd 0x00000000) = .ok .nop ∧
  decode (.cmd 0x00000001) = .ok .start ∧
  decode (.cmd 0x00000002) = .ok .abort ∧
  decode (.cmd 0x00000003) = .ok .clear ∧
  decode (.bus 0x00000022 0 (.u32 0)) = .ok (.rd 0x22) ∧
  decode (.bus 0x40000014 0 (.u32 4)) = .ok (.wr 0x14 (.u32 4)) ∧
  decode (.bus 0x98000000 7 (.u32 0)) = .ok (.rb 6 7) ∧
  decode (.bus 0xC0000000 2 (.u32 1)) = .ok (.wb 0 2 (.u32 1)) ∧
  decode (.stage 0b10011) = .ok .modQpsk ∧
  decode (.stage 0b10100) = .ok .noise ∧
  decode (.stage 0b00111) = .ok .berBpsk

/-! ### The step -/

/-- A step runs the operation that the next turn's encoding selects, on the state with the turn taken: a host's turn, or the
sequencer's while a run is in flight (R20, R90, R92, R94, R95). -/
def Obligations.StepRunsDecoded : Prop :=
  ∀ (s : State) (i : Instr), i.wellFormed = true →
    (∀ w ts, s.turns = .command w :: ts → decode (.cmd w) = .ok i → step s = exec i { s with turns := ts }) ∧
    (∀ h j v ts, s.turns = .bus h j v :: ts → decode (.bus h j v) = .ok i → step s = exec i { s with turns := ts }) ∧
    (s.busy = true → decode (.stage s.selector) = .ok i →
      (s.turns = [] → step s = exec i s) ∧ (∀ ts, s.turns = .sequencer :: ts → step s = exec i { s with turns := ts }))

/-- A step on an encoding that selects no operation: an illegal command sets CMDERR, an illegal header sets ACCERR and a
read returns nothing; nothing else happens (R94, R98, R225). -/
def Obligations.StepOnIllegalEncoding : Prop :=
  ∀ s : State,
    (∀ w ts, s.turns = .command w :: ts → decode (.cmd w) = .error .illegalCommand →
      step s = .next { s with turns := ts, cmderr := true }) ∧
    (∀ h j v ts, s.turns = .bus h j v :: ts → decode (.bus h j v) = .error .nonzeroField →
      step s = .next { s with turns := ts, accerr := true, rdata := if h.getLsbD 30 then s.rdata else none })

/-- While a run is in flight the selector names the unit of the phase, by the run's modulation type where it matters
(R95, R96). -/
def Obligations.SelectorNamesStage : Prop :=
  ∀ s : State,
    (s.phase = .validating → decode (.stage s.selector) = .ok .validate) ∧
    (s.phase = .generating → decode (.stage s.selector) = .ok .generate) ∧
    (s.phase = .noiseInjection → decode (.stage s.selector) = .ok .noise) ∧
    (s.run.modtype = 0 →
      (s.phase = .modulating → decode (.stage s.selector) = .ok .modBpsk) ∧
      (s.phase = .demodulating → decode (.stage s.selector) = .ok .demodBpsk) ∧
      (s.phase = .mapping → decode (.stage s.selector) = .ok .mapBpsk) ∧
      (s.phase = .computing → decode (.stage s.selector) = .ok .berBpsk)) ∧
    (s.run.modtype = 1 →
      (s.phase = .modulating → decode (.stage s.selector) = .ok .modQpsk) ∧
      (s.phase = .demodulating → decode (.stage s.selector) = .ok .demodQpsk) ∧
      (s.phase = .mapping → decode (.stage s.selector) = .ok .mapQpsk) ∧
      (s.phase = .computing → decode (.stage s.selector) = .ok .berQpsk))

/-- Idle, Done and Failed: the sequencer has no step; the phase leaves Done or Failed only by START, CLEAR or reset, and
then to Validating or Idle (R238). -/
def Obligations.RestingPhases : Prop :=
  (∀ s : State, s.phase = .idle ∨ s.phase = .done ∨ s.phase = .failed →
    (s.turns = [] → step s = .next s) ∧ (∀ ts, s.turns = .sequencer :: ts → step s = .next { s with turns := ts })) ∧
  (∀ s t : State, s.phase = .done ∨ s.phase = .failed → step s = .next t → t.phase ≠ s.phase →
    (t.phase = .validating ∨ t.phase = .idle) ∧
    ∃ ts, s.turns = .reset :: ts ∨ s.turns = .command 1 :: ts ∨ s.turns = .command 3 :: ts ∨
      ∃ h j v, s.turns = .bus h j v :: ts ∧ decode (.bus h j v) = .ok (.wr 0x01 v) ∧
        (operandWord v = 1 ∨ operandWord v = 3))

/-- A step moves the phase only along the state machine of the source, reset apart (R24). -/
def Obligations.PhaseOrder : Prop :=
  ∀ s t : State, (∀ ts, s.turns ≠ .reset :: ts) → step s = .next t → t.phase ∈ s.phase.follows s.run.noiseen

/-! ### Reset -/

/-- The machine after reset (R53): every register's value, every result absent, no working register with a value, a byte to
read in every element of TXBITS below LMAX, the interrupt line low. What the spec leaves unspecified is not stated. -/
def Obligations.ResetState : Prop :=
  State.reset.phase = .idle ∧ State.reset.status = 0 ∧ State.reset.cause = 0 ∧ State.reset.verrmask = 0 ∧
  State.reset.ien = 0 ∧ State.reset.cfg.txcount = 0 ∧
  State.reset.cfg.bitrate = .rat 0 ∧ State.reset.cfg.carfreq = .rat 0 ∧ State.reset.cfg.caramp = .rat 0 ∧
  State.reset.cfg.snrdb = .rat 0 ∧ State.reset.cfg.modtype = 0 ∧ State.reset.cfg.datalen = 0 ∧
  State.reset.cfg.noiseen = false ∧ State.reset.cfg.spb = 100 ∧ idWord = 0x53534E07 ∧
  State.reset.res = Results.absent ∧ State.reset.work = Work.empty ∧ State.reset.irq = false ∧
  ∀ i, i < State.reset.params.lmax → ∃ b, State.reset.readBuf .txbits i = some (.u8 b)

/-- The reset input: in any phase, one step to the reset state; the stream stays where it is (R290, R291). -/
def Obligations.ResetInput : Prop :=
  ∀ (s : State) (ts : List Turn), s.turns = .reset :: ts → ∃ t, step s = .next t ∧
    t.phase = .idle ∧ t.status = 0 ∧ t.cause = 0 ∧ t.verrmask = 0 ∧ t.ien = 0 ∧ t.cfg = Settings.reset ∧
    t.res = Results.absent ∧ t.work = Work.empty ∧ t.irq = false ∧
    (∀ i, i < t.params.lmax → ∃ b, t.readBuf .txbits i = some (.u8 b)) ∧
    t.params = s.params ∧ t.urng = s.urng ∧ t.turns = ts

/-- The machine after reset meets the invariant. -/
def Obligations.ResetMeetsInvariant : Prop := State.reset.Inv

/-- The instance that `State.reset` describes meets the bounds R8 sets on LMAX and NSMAX, and its capacities fit the 32-bit
registers. The values are the model's choice: notes/assumptions/4.md. -/
def Obligations.ResetInstanceFits : Prop := Params.instanceDefault.Fits

/-- A START straight after reset fails checks 0, 1, 2 and 4, in every instance whose SPB_MIN is at most 100 (R222, R291;
spec/95 V-VAL-18). -/
def Obligations.StartAfterReset : Prop :=
  ∀ p : Params, p.spbMin ≤ 100 →
    ∃ t, Host.Core.run Sys2Proof.core 2 { State.reset with params := p, turns := [.command 1] } = .next t ∧
      t.phase = .failed ∧ t.verrmask = 0x17 ∧ t.cause = 0x10 ∧ t.status = 0x49 ∧ t.res = Results.absent

/-! ### Host commands -/

/-- NOP, command word 0, changes nothing, in every phase (R221). -/
def Obligations.NopRule : Prop := decode (.cmd 0x00000000) = .ok .nop ∧ ∀ s : State, exec .nop s = .next s

/-- START, command word 1 (R222): in Idle, Done and Failed a fresh run; while busy, CMDERR alone. -/
def Obligations.StartRule : Prop :=
  decode (.cmd 0x00000001) = .ok .start ∧
  (∀ s : State, s.phase = .idle ∨ s.phase = .done ∨ s.phase = .failed → ∃ t, exec .start s = .next t ∧
    t.phase = .validating ∧ t.run = s.cfg ∧ t.cause = 0 ∧ t.verrmask = 0 ∧ t.degen = false ∧ t.snrv = false ∧
    t.res = { Results.absent with runbits := t.res.runbits } ∧
    t.res.runbits.length = min s.cfg.txcount.toNat s.params.lmax ∧
    (∀ k, k < min s.cfg.txcount.toNat s.params.lmax → t.res.runbits[k]? = some (s.txRead k)) ∧
    (∀ i, t.txRead i = s.txRead i) ∧
    t = { s with res := t.res, run := s.cfg, phase := .validating, cause := 0, verrmask := 0, degen := false, snrv := false }) ∧
  (∀ s : State, s.busy = true → exec .start s = .next { s with cmderr := true })

/-- ABORT, command word 2 (R223): a run in flight is discarded; otherwise nothing; without ABORT_SUPPORTED no legal
command. -/
def Obligations.AbortRule : Prop :=
  decode (.cmd 0x00000002) = .ok .abort ∧
  (∀ s : State, s.params.abortSupported = true →
    (s.busy = true → exec .abort s =
      .next { s with res := Results.absent, work := Work.empty, snrv := false, cause := 0x30, phase := .idle }) ∧
    (s.phase = .idle ∨ s.phase = .done ∨ s.phase = .failed → exec .abort s = .next s)) ∧
  ∀ s : State, s.params.abortSupported = false → exec .abort s = .next { s with cmderr := true }

/-- CLEAR, command word 3 (R224): in Idle, Done and Failed back to Idle with every flag and result gone; while busy,
CMDERR alone. -/
def Obligations.ClearRule : Prop :=
  decode (.cmd 0x00000003) = .ok .clear ∧
  (∀ s : State, s.phase = .idle ∨ s.phase = .done ∨ s.phase = .failed → exec .clear s =
    .next { s with res := Results.absent, cause := 0, verrmask := 0, degen := false, snrv := false, cmderr := false,
                   accerr := false, phase := .idle }) ∧
  (∀ s : State, s.busy = true → exec .clear s = .next { s with cmderr := true })

/-- A word written to CMD that is no command sets CMDERR and does nothing else, in every phase; ABORT is such a word where
the instance does not support it (R225). -/
def Obligations.IllegalCommandRule : Prop :=
  ∀ (s : State) (w : Word), 4 ≤ w.toNat ∨ (w = 2 ∧ s.params.abortSupported = false) →
    exec (.wr 0x01 (.u32 w)) s = .next { s with cmderr := true } ∧
    ∀ ts, s.turns = .command w :: ts → step s = .next { s with turns := ts, cmderr := true }

/-- A write to CMD executes the command encoded in the value; the register stores nothing and cannot be read (R31). -/
def Obligations.CmdRegister : Prop :=
  (∀ (s : State) (w : Word) (i : Instr), decode (.cmd w) = .ok i → exec (.wr 0x01 (.u32 w)) s = exec i s) ∧
  (∀ s : State, exec (.rd 0x01) s = .next { s with accerr := true, rdata := none })

/-! ### Registers -/

/-- What every always-readable register reads (R26, R28, R30, R33 to R45): the read leaves the value and nothing else. -/
def Obligations.RegisterReads : Prop :=
  ∀ s : State,
    exec (.rd 0x00) s = .next { s with rdata := some (.u32 0x53534E07) } ∧
    exec (.rd 0x03) s = .next { s with rdata := some (.u32 (s.cause.setWidth 32)) } ∧
    exec (.rd 0x04) s = .next { s with rdata := some (.u32 (s.verrmask.setWidth 32)) } ∧
    exec (.rd 0x05) s = .next { s with rdata := some (.u32 (s.ien.setWidth 32)) } ∧
    exec (.rd 0x06) s = .next { s with rdata := some (.u32 s.cfg.txcount) } ∧
    exec (.rd 0x10) s = .next { s with rdata := some (.num s.cfg.bitrate) } ∧
    exec (.rd 0x11) s = .next { s with rdata := some (.num s.cfg.carfreq) } ∧
    exec (.rd 0x12) s = .next { s with rdata := some (.num s.cfg.caramp) } ∧
    exec (.rd 0x13) s = .next { s with rdata := some (.u32 s.cfg.modtype) } ∧
    exec (.rd 0x14) s = .next { s with rdata := some (.u32 s.cfg.datalen) } ∧
    exec (.rd 0x15) s = .next { s with rdata := some (.u32 (if s.cfg.noiseen then 1 else 0)) } ∧
    exec (.rd 0x16) s = .next { s with rdata := some (.num s.cfg.snrdb) } ∧
    exec (.rd 0x17) s = .next { s with rdata := some (.u32 s.cfg.spb) }

/-- STATUS, field by field (R32). -/
def Obligations.StatusWord : Prop :=
  ∀ s : State, ∃ w : Word, exec (.rd 0x02) s = .next { s with rdata := some (.u32 w) } ∧
    w.extractLsb' 0 4 = s.phase.code ∧
    (w.getLsbD 4 = true ↔ 1 ≤ (w.extractLsb' 0 4).toNat ∧ (w.extractLsb' 0 4).toNat ≤ 7) ∧
    (w.getLsbD 5 = true ↔ (w.extractLsb' 0 4).toNat = 8) ∧
    (w.getLsbD 6 = true ↔ (w.extractLsb' 0 4).toNat = 9) ∧
    w.getLsbD 7 = s.degen ∧ w.getLsbD 8 = s.snrv ∧ w.getLsbD 9 = s.cmderr ∧ w.getLsbD 10 = s.accerr ∧
    w.extractLsb' 11 21 = 0

/-- What a write of the register's type stores: IEN keeps two bits, NOISEEN one, the others all (R35 to R45). Nothing else
changes, the run in flight included. -/
def Obligations.RegisterWrites : Prop :=
  ∀ (s : State) (w : Word) (x : RNum),
    exec (.wr 0x05 (.u32 w)) s = .next { s with ien := w.extractLsb' 0 2 } ∧
    exec (.wr 0x06 (.u32 w)) s = .next { s with cfg := { s.cfg with txcount := w } } ∧
    exec (.wr 0x10 (.num x)) s = .next { s with cfg := { s.cfg with bitrate := x } } ∧
    exec (.wr 0x11 (.num x)) s = .next { s with cfg := { s.cfg with carfreq := x } } ∧
    exec (.wr 0x12 (.num x)) s = .next { s with cfg := { s.cfg with caramp := x } } ∧
    exec (.wr 0x13 (.u32 w)) s = .next { s with cfg := { s.cfg with modtype := w } } ∧
    exec (.wr 0x14 (.u32 w)) s = .next { s with cfg := { s.cfg with datalen := w } } ∧
    exec (.wr 0x15 (.u32 w)) s = .next { s with cfg := { s.cfg with noiseen := w.getLsbD 0 } } ∧
    exec (.wr 0x16 (.num x)) s = .next { s with cfg := { s.cfg with snrdb := x } } ∧
    exec (.wr 0x17 (.u32 w)) s = .next { s with cfg := { s.cfg with spb := w } }

/-- Refused register accesses (R27): a write to a read-only register, a read of CMD, any access to an index that is not in
the map, a read of a result register while it is absent. The write changes nothing but ACCERR, the read returns no value.
A write to a configuration register is accepted in every phase and leaves the run alone. -/
def Obligations.RefusedRegisterAccesses : Prop :=
  ∀ (s : State) (idx : BitVec 16) (v : Val),
    (idx ∈ [0x00, 0x02, 0x03, 0x04, 0x20, 0x21, 0x22, 0x23, 0x24, 0x25, 0x26] →
      exec (.wr idx v) s = .next { s with accerr := true }) ∧
    (idx = 0x01 → exec (.rd idx) s = .next { s with accerr := true, rdata := none }) ∧
    (idx ∉ [0x00, 0x01, 0x02, 0x03, 0x04, 0x05, 0x06, 0x10, 0x11, 0x12, 0x13, 0x14, 0x15, 0x16, 0x17, 0x20, 0x21, 0x22,
            0x23, 0x24, 0x25, 0x26] →
      exec (.wr idx v) s = .next { s with accerr := true } ∧
      exec (.rd idx) s = .next { s with accerr := true, rdata := none }) ∧
    (idx ∈ [0x20, 0x21, 0x22, 0x23, 0x24, 0x25, 0x26] → s.phase ≠ .done →
      exec (.rd idx) s = .next { s with accerr := true, rdata := none }) ∧
    (s.snrv = false → exec (.rd 0x23) s = .next { s with accerr := true, rdata := none }) ∧
    (idx ∈ [0x05, 0x06, 0x10, 0x11, 0x12, 0x13, 0x14, 0x15, 0x16, 0x17] →
      ∃ t, exec (.wr idx v) s = .next t ∧ t.accerr = s.accerr ∧ t.view = s.view)

/-! ### Buffers -/

/-- TXBITS (R65): below LMAX a write stores `v[7:0]` in that element alone and changes nothing else, RUNBITS included; a
read returns the element; in any phase. -/
def Obligations.TxbitsRule : Prop :=
  ∀ (s : State) (i w : Word), i.toNat < s.params.lmax →
    (∃ t, exec (.wb 0 i (.u32 w)) s = .next t ∧ t.txRead i.toNat = w.extractLsb' 0 8 ∧
      (∀ j, j ≠ i.toNat → t.txRead j = s.txRead j) ∧ t = { s with txbits := t.txbits }) ∧
    exec (.rb 0 i) s = .next { s with rdata := some (.u8 (s.txRead i.toNat)) }

/-- The frame of WB: it stores at the index `State.storeIndex` gives, if any, and every other element of TXBITS reads as
before; besides, only ACCERR may change (R64, R65, R66). -/
def Obligations.WbFrame : Prop :=
  ∀ (s : State) (space : BitVec 4) (i : Word) (v : Val), ∃ t, exec (.wb space i v) s = .next t ∧
    (∀ a, s.storeIndex space i = some a →
      t.txRead a = (operandWord v).extractLsb' 0 8 ∧ (∀ j, j ≠ a → t.txRead j = s.txRead j) ∧ t.accerr = s.accerr) ∧
    (s.storeIndex space i = none → (∀ j, t.txRead j = s.txRead j) ∧ t.accerr = true) ∧
    t = { s with txbits := t.txbits, accerr := t.accerr }

/-- Refused buffer accesses (R66). The last clause, on the valid lengths, is for states of the invariant. -/
def Obligations.RefusedBufferAccesses : Prop :=
  ∀ (s : State) (space : BitVec 4) (i : Word) (v : Val),
    (8 ≤ space.toNat ∨ (space = 0 ∧ s.params.lmax ≤ i.toNat) →
      exec (.wb space i v) s = .next { s with accerr := true } ∧
      exec (.rb space i) s = .next { s with accerr := true, rdata := none }) ∧
    (1 ≤ space.toNat → exec (.wb space i v) s = .next { s with accerr := true }) ∧
    (1 ≤ space.toNat → s.phase ≠ .done → exec (.rb space i) s = .next { s with accerr := true, rdata := none }) ∧
    (s.Inv → s.phase = .done → ∀ sp, sp ≠ .txbits → space = sp.id → s.validLength sp ≤ i.toNat →
      exec (.rb space i) s = .next { s with accerr := true, rdata := none })

/-- In Done every element below a buffer's valid length is there to read, whole, and the read leaves its value and nothing
else; points are read field by field (R49, R50, R63, R66, R70). -/
def Obligations.BuffersInDone : Prop :=
  ∀ s : State, s.Inv → s.phase = .done → ∀ i : Word,
    (i.toNat < s.validLength .runbits →
      ∃ b, s.res.runbits[i.toNat]? = some b ∧ exec (.rb 1 i) s = .next { s with rdata := some (.u8 b) }) ∧
    (i.toNat < s.validLength .time →
      ∃ x, s.res.time[i.toNat]? = some x ∧ exec (.rb 2 i) s = .next { s with rdata := some (.num x) }) ∧
    (i.toNat < s.validLength .mod →
      ∃ x, s.res.mod[i.toNat]? = some x ∧ exec (.rb 3 i) s = .next { s with rdata := some (.num x) }) ∧
    (i.toNat < s.validLength .rx →
      ∃ x, s.res.rx[i.toNat]? = some x ∧ exec (.rb 4 i) s = .next { s with rdata := some (.num x) }) ∧
    (i.toNat < s.validLength .rxbits →
      ∃ b, s.res.rxbits[i.toNat]? = some b ∧ exec (.rb 5 i) s = .next { s with rdata := some (.u8 b) }) ∧
    (i.toNat < s.validLength .ctx →
      ∃ p, s.res.ctx[i.toNat / 4]? = some p ∧
        (i.toNat % 4 = 0 → exec (.rb 6 i) s = .next { s with rdata := some (.num p.i) }) ∧
        (i.toNat % 4 = 1 → exec (.rb 6 i) s = .next { s with rdata := some (.num p.q) }) ∧
        (i.toNat % 4 = 2 → exec (.rb 6 i) s = .next { s with rdata := some (.u32 p.sym) }) ∧
        (i.toNat % 4 = 3 → exec (.rb 6 i) s = .next { s with rdata := some (.u32 p.err) })) ∧
    (i.toNat < s.validLength .crx →
      ∃ p, s.res.crx[i.toNat / 4]? = some p ∧
        (i.toNat % 4 = 0 → exec (.rb 7 i) s = .next { s with rdata := some (.num p.i) }) ∧
        (i.toNat % 4 = 1 → exec (.rb 7 i) s = .next { s with rdata := some (.num p.q) }) ∧
        (i.toNat % 4 = 2 → exec (.rb 7 i) s = .next { s with rdata := some (.u32 p.sym) }) ∧
        (i.toNat % 4 = 3 → exec (.rb 7 i) s = .next { s with rdata := some (.u32 p.err) }))

/-- In Done the result registers are there to read and hold the run's counts; BER_SNRDB exactly when SNRV is set, and
then the configured SNR (R47, R48, R70, R214). -/
def Obligations.RegistersInDone : Prop :=
  ∀ s : State, s.Inv → s.params.Fits → s.phase = .done → ∃ (e ns nsym np : Word) (x : RNum),
    exec (.rd 0x20) s = .next { s with rdata := some (.u32 e) } ∧ e.toNat = errorsOf s.run s.res ∧
    exec (.rd 0x21) s = .next { s with rdata := some (.u32 s.run.datalen) } ∧
    exec (.rd 0x22) s = .next { s with rdata := some (.num x) } ∧ x.val = e.toNat / s.run.datalen.toNat ∧
    exec (.rd 0x24) s = .next { s with rdata := some (.u32 ns) } ∧ ns.toNat = s.run.ns s.run.scheme ∧
    exec (.rd 0x25) s = .next { s with rdata := some (.u32 nsym) } ∧ nsym.toNat = s.run.nsym s.run.scheme ∧
    exec (.rd 0x26) s = .next { s with rdata := some (.u32 np) } ∧ np.toNat = s.run.np s.params s.run.scheme ∧
    (s.run.noiseen = true → s.snrv = true ∧ exec (.rd 0x23) s = .next { s with rdata := some (.num s.run.snrdb) }) ∧
    (s.run.noiseen = false → s.snrv = false ∧ exec (.rd 0x23) s = .next { s with accerr := true, rdata := none })

/-- No read has a side effect but its answer and ACCERR, and a read again gives the same answer (R26, R64). -/
def Obligations.ReadsHaveNoSideEffect : Prop :=
  ∀ (s : State) (i : Instr), (∃ idx, i = .rd idx) ∨ (∃ space j, i = .rb space j) →
    ∃ t, exec i s = .next t ∧ t = { s with rdata := t.rdata, accerr := t.accerr } ∧ exec i t = .next t

/-! ### The validation gate -/

/-- The gate (R230): all ten checks on the snapshot, the mask of those that fail, the lowest as the cause. -/
def Obligations.ValidationGate : Prop :=
  ∀ s : State, s.Latched →
    ((∀ i, CheckHolds s.params s.run s.res.runbits i) →
      exec .validate s = .next { s with verrmask := 0, phase := .generating, work := Work.empty }) ∧
    (∀ i : Fin 10, ¬ CheckHolds s.params s.run s.res.runbits i →
      (∀ j : Fin 10, j < i → CheckHolds s.params s.run s.res.runbits j) →
      ∃ m : BitVec 10, (∀ j : Fin 10, m.getLsbD j = true ↔ ¬ CheckHolds s.params s.run s.res.runbits j) ∧
        exec .validate s = .next { s with verrmask := m, cause := 0x10 + BitVec.ofNat 8 i, res := Results.absent, phase := .failed })

/-! ### The stages -/

/-- GENERATE (R121, R122, R232): the time grid, of `NS` samples at `n/(SPB·Rb)`, sample `n` in bit period `n div SPB`. -/
def Obligations.GenerateTimeGrid : Prop :=
  ∀ s : State, s.run.Timed → ∃ t, exec .generate s = .next t ∧ PlainStage s t ∧ t.phase = .modulating ∧
    t.res = { s.res with time := t.res.time, nsamp := t.res.nsamp, nsymb := t.res.nsymb } ∧
    t.res.nsamp = some (BitVec.ofNat 32 (s.run.ns s.run.scheme)) ∧
    t.res.nsymb = some (BitVec.ofNat 32 (s.run.nsym s.run.scheme)) ∧
    t.res.time.length = s.run.ns s.run.scheme ∧
    ∀ n, n < s.run.ns s.run.scheme → ∃ x, t.res.time[n]? = some x ∧ x.finite = true ∧
      x.val = n / (s.run.spb.toNat * s.run.bitrate.val) ∧
      ((n / s.run.spb.toNat : Nat) : ℝ) / s.run.bitrate.val ≤ x.val ∧
      x.val < (((n / s.run.spb.toNat : Nat) : ℝ) + 1) / s.run.bitrate.val

/-- MOD.BPSK (R131, R132, R233): `L·SPB` samples, each `A·cos(2π·fc·t(n) + φ)` with the phase of its bit; then NOISE, or the
bypass copy and DEMOD. -/
def Obligations.ModBpskWave : Prop :=
  ∀ s : State, s.run.Carried → s.run.caramp.finite = true → ∃ t, exec .modBpsk s = .next t ∧ PlainStage s t ∧
    t.phase = (if s.run.noiseen then .noiseInjection else .demodulating) ∧
    t.res = { s.res with mod := t.res.mod, rx := t.res.rx } ∧
    t.res.rx = (if s.run.noiseen then s.res.rx else t.res.mod) ∧
    t.res.mod.length = s.run.len * s.run.spb.toNat ∧
    ∀ n b, n < s.run.len * s.run.spb.toNat → s.res.runbits[n / s.run.spb.toNat]? = some b →
      ∃ x, t.res.mod[n]? = some x ∧ x.finite = true ∧
        x.val = s.run.caramp.val * Real.cos (s.run.angle n + if b = 1 then 0 else Real.pi)

/-- MOD.QPSK (R141, R142, R143, R233): the phase of each pair from the table, the partner of an odd length's last bit taken
as 0. -/
def Obligations.ModQpskWave : Prop :=
  ∀ s : State, s.run.Carried → s.run.caramp.finite = true →
    (∀ k, k < s.run.len → s.res.runbits[k]? = some 0 ∨ s.res.runbits[k]? = some 1) →
    ∃ t, exec .modQpsk s = .next t ∧ PlainStage s t ∧
      t.phase = (if s.run.noiseen then .noiseInjection else .demodulating) ∧
      t.res = { s.res with mod := t.res.mod, rx := t.res.rx } ∧
      t.res.rx = (if s.run.noiseen then s.res.rx else t.res.mod) ∧
      t.res.mod.length = (s.run.len + 1) / 2 * (2 * s.run.spb.toNat) ∧
      ∀ k j b1 b2, k < (s.run.len + 1) / 2 → j < 2 * s.run.spb.toNat →
        s.res.runbits[2 * k]? = some b1 →
        (if 2 * k + 1 < s.run.len then s.res.runbits[2 * k + 1]? else some 0) = some b2 →
        ∃ x, t.res.mod[k * (2 * s.run.spb.toNat) + j]? = some x ∧ x.finite = true ∧
          x.val = s.run.caramp.val * Real.cos (s.run.angle (k * (2 * s.run.spb.toNat) + j) + pairAngle b1 b2)

/-- The bypass (R151): with noise disabled a modulation that succeeds leaves RX equal to MOD, goes on to Demodulating, and
neither draws nor touches DEGEN. -/
def Obligations.BypassCopy : Prop :=
  ∀ s t : State, s.run.noiseen = false → exec .modBpsk s = .next t ∨ exec .modQpsk s = .next t → t.phase ≠ .failed →
    t.phase = .demodulating ∧ t.res.rx = t.res.mod ∧ t.urng = s.urng ∧ t.degen = s.degen

/-- NOISE (R152 to R156, R234): with all draws in (0,1), sample `n` is MOD[n] plus σ times the Box–Muller value of draws
`2n` and `2n+1`, σ the root of the mean power over `10^(S/10)`, or of NOISE_FLOOR with DEGEN set when the power is not
positive; exactly `2·NS` draws. On an odd QPSK length, which no run reaches, this is the model's choice (R143;
notes/assumptions/33.md). -/
def Obligations.NoiseSamples : Prop :=
  ∀ (s : State) (ns : Nat), ns = s.run.ns s.run.scheme → 0 < ns → s.res.mod.length = ns →
    s.res.mod.all RNum.finite = true → s.run.snrdb.finite = true →
    (∀ k, k < 2 * ns → inUnit (s.urng.value k) = true) →
    ∃ t, exec .noise s = .next t ∧ StageFrame s t ∧ t.phase = .demodulating ∧
      t.res = { s.res with rx := t.res.rx } ∧ t.snrv = s.snrv ∧ t.cause = s.cause ∧ t.verrmask = s.verrmask ∧
      t.urng = s.urng.after (2 * ns) ∧
      s.power.val = (s.res.mod.map (fun x => x.val ^ 2)).sum / ns ∧
      (t.degen = true ↔ s.degen = true ∨ s.power.val ≤ 0) ∧
      t.res.rx.length = ns ∧
      ∀ n x, s.res.mod[n]? = some x → ∃ y, t.res.rx[n]? = some y ∧ y.finite = true ∧
        y.val = x.val +
          Real.sqrt (if 0 < s.power.val then s.power.val / (10 : ℝ) ^ (s.run.snrdb.val / 10) else Config.noiseFloor) *
          (Real.sqrt (-2 * Real.log (s.urng.value (2 * n)).val) * Real.cos (2 * Real.pi * (s.urng.value (2 * n + 1)).val))

/-- A draw outside (0,1) in NOISE (R157, R262, R267): the run fails with F_RNG_RANGE at the first such draw, which stays
consumed with those before it, and every output is absent. On an odd QPSK length, which no run reaches, this is the model's
choice (R143; notes/assumptions/33.md). -/
def Obligations.NoiseRangeFailure : Prop :=
  ∀ (s : State) (k : Nat), k < 2 * s.run.ns s.run.scheme → s.res.mod.length = s.run.ns s.run.scheme →
    s.res.mod.all RNum.finite = true → s.run.snrdb.finite = true →
    (∀ j, j < k → inUnit (s.urng.value j) = true) → inUnit (s.urng.value k) = false →
    ∃ t, exec .noise s = .next t ∧ StageFrame s t ∧ t.phase = .failed ∧ t.cause = 0x20 ∧ t.verrmask = s.verrmask ∧
      t.res = Results.absent ∧ t.snrv = false ∧ t.work = Work.empty ∧ t.urng = s.urng.after (k + 1)

/-- DEMOD.BPSK (R171, R172, R235): bit `k` is 1 exactly when `Σ RX[n]·cos θ(n)` over its block is not below 0. -/
def Obligations.DemodBpskDecision : Prop :=
  ∀ s : State, s.run.Carried →
    (∀ n, n < s.run.len * s.run.spb.toNat → (numAt s.res.rx n).finite = true) →
    ∃ t, exec .demodBpsk s = .next t ∧ PlainStage s t ∧ t.phase = .mapping ∧
      t.res = { s.res with rxbits := t.res.rxbits } ∧ t.res.rxbits.length = s.run.len ∧
      ∀ k, k < s.run.len →
        (0 ≤ inPhase s.run s.res.rx (k * s.run.spb.toNat) s.run.spb.toNat → t.res.rxbits[k]? = some 1) ∧
        (inPhase s.run s.res.rx (k * s.run.spb.toNat) s.run.spb.toNat < 0 → t.res.rxbits[k]? = some 0)

/-- DEMOD.QPSK (R175, R176, R235): the pair of symbol `k` from the signs of its two sums, the quadrature one taken with a
minus. -/
def Obligations.DemodQpskDecision : Prop :=
  ∀ s : State, s.run.Carried → s.run.len % 2 = 0 →
    (∀ n, n < s.run.len * s.run.spb.toNat → (numAt s.res.rx n).finite = true) →
    ∃ t, exec .demodQpsk s = .next t ∧ PlainStage s t ∧ t.phase = .mapping ∧
      t.res = { s.res with rxbits := t.res.rxbits } ∧ t.res.rxbits.length = s.run.len ∧
      ∀ k i q, k < s.run.len / 2 →
        i = inPhase s.run s.res.rx (k * (2 * s.run.spb.toNat)) (2 * s.run.spb.toNat) →
        q = quadrature s.run s.res.rx (k * (2 * s.run.spb.toNat)) (2 * s.run.spb.toNat) →
        (0 ≤ i ∧ 0 ≤ q → t.res.rxbits[2 * k]? = some 0 ∧ t.res.rxbits[2 * k + 1]? = some 0) ∧
        (i < 0 ∧ 0 ≤ q → t.res.rxbits[2 * k]? = some 0 ∧ t.res.rxbits[2 * k + 1]? = some 1) ∧
        (i < 0 ∧ q < 0 → t.res.rxbits[2 * k]? = some 1 ∧ t.res.rxbits[2 * k + 1]? = some 1) ∧
        (0 ≤ i ∧ q < 0 → t.res.rxbits[2 * k]? = some 1 ∧ t.res.rxbits[2 * k + 1]? = some 0)

/-- Where the sampled quadrature reference vanishes, every first bit of a pair is decided 0, whatever was sent (R179). -/
def Obligations.QpskBlindCarrier : Prop :=
  ∀ s : State, s.run.Carried → s.run.len % 2 = 0 → Real.sin s.run.angleStep = 0 →
    (∀ n, n < s.run.len * s.run.spb.toNat → (numAt s.res.rx n).finite = true) →
    ∃ t, exec .demodQpsk s = .next t ∧ t.phase = .mapping ∧ ∀ k, k < s.run.len / 2 → t.res.rxbits[2 * k]? = some 0

/-- On an odd bit count MFD, CD and BC are not defined under QPSK, and the model stops (R181, R305). -/
def Obligations.OddQpskStops : Prop :=
  ∀ s : State, s.run.len % 2 = 1 →
    exec .demodQpsk s = .refused .oddQpskLength ∧ exec .mapQpsk s = .fault .oddQpskLength ∧
    exec .berQpsk s = .fault .oddQpskLength

/-- MAP.BPSK (R191, R192, R194 to R198, R236): the ideal point of each transmitted bit, the error flag from the demodulated
bit, dispersion `g·JIT` of two draws a point with noise and none without. -/
def Obligations.MapBpskPoints : Prop :=
  ∀ (s : State) (np : Nat), np = min s.run.len s.params.maxPts →
    (s.run.noiseen = true → s.run.snrdb.finite = true ∧ ∀ k, k < 2 * np → inUnit (s.urng.value k) = true) →
    ∃ t, exec .mapBpsk s = .next t ∧ StageFrame s t ∧ t.phase = .computing ∧
      t.degen = s.degen ∧ t.snrv = s.snrv ∧ t.cause = s.cause ∧ t.verrmask = s.verrmask ∧
      t.urng = (if s.run.noiseen then s.urng.after (2 * np) else s.urng) ∧
      t.res = { s.res with ctx := t.res.ctx, crx := t.res.crx, npts := t.res.npts } ∧
      t.res.npts = some (BitVec.ofNat 32 np) ∧ t.res.ctx.length = np ∧ t.res.crx.length = np ∧
      ∀ j b d, j < np → s.res.runbits[j]? = some b → s.res.rxbits[j]? = some d → ∃ p q,
        t.res.ctx[j]? = some p ∧ t.res.crx[j]? = some q ∧
        p.i.val = (if b = 1 then 1 else -1) ∧ p.q.val = 0 ∧ p.sym = b.setWidth 32 ∧ p.err = 0 ∧
        q.sym = b.setWidth 32 ∧ q.err = (if d = b then 0 else 1) ∧
        (s.run.noiseen = false → q.i = p.i ∧ q.q = p.q) ∧
        (s.run.noiseen = true →
          q.i.val = p.i.val + max (1 / 10) (1 - s.run.snrdb.val / 30) * Config.jit (s.urng.value (2 * j)).val ∧
          q.q.val = p.q.val + max (1 / 10) (1 - s.run.snrdb.val / 30) * Config.jit (s.urng.value (2 * j + 1)).val)

/-- MAP.QPSK (R193 to R198, R236): the four points by the pair table, scaled by CONST_QSCALE. -/
def Obligations.MapQpskPoints : Prop :=
  ∀ (s : State) (np : Nat), np = min (s.run.len / 2) s.params.maxPts → s.run.len % 2 = 0 →
    s.params.qscale.finite = true →
    (∀ k, k < 2 * np → s.res.runbits[k]? = some 0 ∨ s.res.runbits[k]? = some 1) →
    (s.run.noiseen = true → s.run.snrdb.finite = true ∧ ∀ k, k < 2 * np → inUnit (s.urng.value k) = true) →
    ∃ t, exec .mapQpsk s = .next t ∧ StageFrame s t ∧ t.phase = .computing ∧
      t.degen = s.degen ∧ t.snrv = s.snrv ∧ t.cause = s.cause ∧ t.verrmask = s.verrmask ∧
      t.urng = (if s.run.noiseen then s.urng.after (2 * np) else s.urng) ∧
      t.res = { s.res with ctx := t.res.ctx, crx := t.res.crx, npts := t.res.npts } ∧
      t.res.npts = some (BitVec.ofNat 32 np) ∧ t.res.ctx.length = np ∧ t.res.crx.length = np ∧
      ∀ j b1 b2 d1 d2, j < np → s.res.runbits[2 * j]? = some b1 → s.res.runbits[2 * j + 1]? = some b2 →
        s.res.rxbits[2 * j]? = some d1 → s.res.rxbits[2 * j + 1]? = some d2 → ∃ p q,
        t.res.ctx[j]? = some p ∧ t.res.crx[j]? = some q ∧
        p.i.val = (if b2 = 0 then 1 else -1) * s.params.qscale.val ∧
        p.q.val = (if b1 = 0 then 1 else -1) * s.params.qscale.val ∧
        p.sym = 4 + 2 * b1.setWidth 32 + b2.setWidth 32 ∧ p.err = 0 ∧
        q.sym = p.sym ∧ q.err = (if d1 = b1 ∧ d2 = b2 then 0 else 1) ∧
        (s.run.noiseen = false → q.i = p.i ∧ q.q = p.q) ∧
        (s.run.noiseen = true →
          q.i.val = p.i.val + max (1 / 10) (1 - s.run.snrdb.val / 30) * Config.jit (s.urng.value (2 * j)).val ∧
          q.q.val = p.q.val + max (1 / 10) (1 - s.run.snrdb.val / 30) * Config.jit (s.urng.value (2 * j + 1)).val)

/-- A draw outside (0,1) in MAP (R157, R192, R193, R262, R267). -/
def Obligations.MapRangeFailure : Prop :=
  ∀ (s : State) (i : Instr) (m : Scheme) (k : Nat), i = .mapBpsk ∧ m = .bpsk ∨
      i = .mapQpsk ∧ m = .qpsk ∧ s.run.len % 2 = 0 ∧ s.params.qscale.finite = true ∧
        (∀ k, k < s.run.len → s.res.runbits[k]? = some 0 ∨ s.res.runbits[k]? = some 1) →
    s.run.noiseen = true → s.run.snrdb.finite = true → k < 2 * s.run.np s.params m →
    (∀ j, j < k → inUnit (s.urng.value j) = true) → inUnit (s.urng.value k) = false →
    ∃ t, exec i s = .next t ∧ StageFrame s t ∧ t.phase = .failed ∧ t.cause = 0x20 ∧ t.verrmask = s.verrmask ∧
      t.degen = s.degen ∧ t.res = Results.absent ∧ t.snrv = false ∧ t.work = Work.empty ∧ t.urng = s.urng.after (k + 1)

/-- BER.BPSK (R211, R213, R214, R237): the positions that differ, over L, with the SNR of a noisy run attached. -/
def Obligations.BerBpskCount : Prop :=
  ∀ s : State, 0 < s.run.len → (s.run.noiseen = true → s.run.snrdb.finite = true) →
    (∀ k, k < s.run.len → k < s.res.runbits.length ∧ k < s.res.rxbits.length) →
    ∃ t e x, exec .berBpsk s = .next t ∧ StageFrame s t ∧ t.phase = .done ∧ t.urng = s.urng ∧ t.degen = s.degen ∧
      t.cause = s.cause ∧ t.verrmask = s.verrmask ∧
      t.snrv = (s.snrv || s.run.noiseen) ∧
      t.res = { s.res with berErrcnt := some e, berTotal := some s.run.datalen, berValue := some x,
                           berSnrdb := if s.run.noiseen then some s.run.snrdb else s.res.berSnrdb } ∧
      e.toNat = ((Finset.range s.run.len).filter (fun k => s.res.rxbits[k]? ≠ s.res.runbits[k]?)).card ∧
      x.val = e.toNat / s.run.len

/-- BER.QPSK (R212, R213, R214, R237): two errors for every pair that differs. -/
def Obligations.BerQpskCount : Prop :=
  ∀ s : State, 0 < s.run.len → s.run.len % 2 = 0 → (s.run.noiseen = true → s.run.snrdb.finite = true) →
    (∀ k, k < s.run.len → k < s.res.runbits.length ∧ k < s.res.rxbits.length) →
    ∃ t e x, exec .berQpsk s = .next t ∧ StageFrame s t ∧ t.phase = .done ∧ t.urng = s.urng ∧ t.degen = s.degen ∧
      t.cause = s.cause ∧ t.verrmask = s.verrmask ∧
      t.snrv = (s.snrv || s.run.noiseen) ∧
      t.res = { s.res with berErrcnt := some e, berTotal := some s.run.datalen, berValue := some x,
                           berSnrdb := if s.run.noiseen then some s.run.snrdb else s.res.berSnrdb } ∧
      e.toNat = 2 * ((Finset.range (s.run.len / 2)).filter (fun k =>
        s.res.rxbits[2 * k]? ≠ s.res.runbits[2 * k]? ∨ s.res.rxbits[2 * k + 1]? ≠ s.res.runbits[2 * k + 1]?)).card ∧
      x.val = e.toNat / s.run.len

/-! ### The machine as a whole -/

/-- Every step keeps the invariant. -/
def Obligations.StepKeepsInvariant : Prop :=
  ∀ s t : State, s.Inv → step s = .next t → t.Inv

/-- From a state of the invariant the machine never stops with a fault or a refusal: validation keeps every run from the
odd QPSK lengths (R230, R305). -/
def Obligations.StepNeverStops : Prop := ∀ s : State, s.Inv → ∃ t, step s = .next t

/-- No step changes a parameter of the instance, and only START and reset change the snapshot (R8, R40, R52). -/
def Obligations.SnapshotIsStable : Prop :=
  ∀ s t : State, step s = .next t → t.params = s.params ∧
    (t.run ≠ s.run → t.run = s.cfg ∧ t.phase = .validating ∧ s.busy = false ∨ ∃ ts, s.turns = .reset :: ts)

/-- A stage leaves what earlier stages of the run wrote as it was, unless the run fails (R71, R244). -/
def Obligations.StageOutputsStay : Prop :=
  ∀ s t : State, s.busy = true → s.turns = [] → step s = .next t → t.phase ≠ .failed →
    t.res.runbits = s.res.runbits ∧
    (3 ≤ s.phase.code.toNat → t.res.time = s.res.time ∧ t.res.nsamp = s.res.nsamp ∧ t.res.nsymb = s.res.nsymb) ∧
    (4 ≤ s.phase.code.toNat → t.res.mod = s.res.mod) ∧
    (5 ≤ s.phase.code.toNat → t.res.rx = s.res.rx) ∧
    (6 ≤ s.phase.code.toNat → t.res.rxbits = s.res.rxbits) ∧
    (7 ≤ s.phase.code.toNat → t.res.ctx = s.res.ctx ∧ t.res.crx = s.res.crx ∧ t.res.npts = s.res.npts)

/-- What a failure in a stage after Validating writes, and that it leaves nothing else (R267). In a run that passed
validation it is a draw outside (0,1) in NOISE or MAP and nothing else: over the real numbers no quantity of a run is an
infinity or a NaN (R121, R263). -/
def Obligations.StageFailure : Prop :=
  ∀ s t : State, s.busy = true → s.phase ≠ .validating → s.turns = [] → step s = .next t → t.phase = .failed →
    (t.cause = 0x20 ∨ t.cause = 0x21) ∧ t.res = Results.absent ∧ t.snrv = false ∧ t.work = Work.empty ∧
    t.verrmask = s.verrmask ∧ StageFrame s t ∧ s.urng.pos ≤ t.urng.pos ∧ (s.degen = true → t.degen = true) ∧
    (s.Inv → 0 < s.params.spbMin → s.params.qscale.finite = true →
      t.cause = 0x20 ∧ s.run.noiseen = true ∧ (s.phase = .noiseInjection ∨ s.phase = .mapping))

/-- The interrupt line (R54, R270): low unless the run is Done or Failed with the enable set. -/
def Obligations.IrqLevel : Prop :=
  ∀ s : State, s.irq = true ↔ (s.status.getLsbD 5 = true ∧ s.ien.getLsbD 0 = true) ∨
    (s.status.getLsbD 6 = true ∧ s.ien.getLsbD 1 = true)

/-- In Done the counts are within bounds (R47, R215). -/
def Obligations.BerBounds : Prop :=
  ∀ s : State, s.Inv → s.phase = .done → ∃ e n x, s.res.berErrcnt = some e ∧ s.res.berTotal = some n ∧
    s.res.berValue = some x ∧ e.toNat ≤ n.toNat ∧ 0 < n.toNat ∧ x.val = e.toNat / n.toNat ∧ 0 ≤ x.val ∧ x.val ≤ 1

/-- In Done the error flags of the received points agree with the error count (R198): exactly when every symbol has a
point, from below otherwise. -/
def Obligations.ErrorFlagsAgree : Prop :=
  ∀ s : State, s.Inv → s.phase = .done → ∃ e, s.res.berErrcnt = some e ∧
    (∀ p ∈ s.res.crx, p.err = 0 ∨ p.err = 1) ∧
    s.run.scheme.bps * s.res.crx.countP (fun p => p.err == 1) ≤ e.toNat ∧
    (s.run.nsym s.run.scheme ≤ s.params.maxPts → s.run.scheme.bps * s.res.crx.countP (fun p => p.err == 1) = e.toNat)

/-- A run ends: with the sequencer scheduled, in Done or Failed after at most 8 of its steps (R310). -/
def Obligations.RunEnds : Prop :=
  ∀ s : State, s.Inv → s.busy = true → s.turns = [] →
    ∃ t, Host.Core.run Sys2Proof.core 8 s = .next t ∧ (t.phase = .done ∨ t.phase = .failed)

/-- A run is a function of its snapshot, its latched bits and, with noise, the values of the stream from where it starts
(R239, R242). -/
def Obligations.RunIsAFunction : Prop :=
  ∀ s₁ s₂ : State, s₁.phase = .validating → s₂.phase = .validating → s₁.turns = [] → s₂.turns = [] →
    s₁.params = s₂.params → s₁.run = s₂.run → s₁.res = s₂.res → s₁.snrv = s₂.snrv → s₁.cause = s₂.cause →
    s₁.verrmask = s₂.verrmask →
    (s₁.run.noiseen = true → ∀ k, s₁.urng.value k = s₂.urng.value k) →
    ∀ n t₁, Host.Core.run Sys2Proof.core n s₁ = .next t₁ → ∃ t₂, Host.Core.run Sys2Proof.core n s₂ = .next t₂ ∧
      t₂.phase = t₁.phase ∧ t₂.res = t₁.res ∧ t₂.cause = t₁.cause ∧ t₂.verrmask = t₁.verrmask ∧ t₂.snrv = t₁.snrv

/-- Whatever the host reads and writes meanwhile, the words of START, ABORT and CLEAR apart (as a command word or written to
CMD), the run goes as the sequencer's own steps take it (R40, R64, R75, R302). NOP and words that are no command, written to
CMD included, are among what the host may write. -/
def Obligations.HostDoesNotDisturb : Prop :=
  ∀ (s t : State) (ts : List Turn), (∀ u ∈ ts, u.quiet = true) →
    Host.Core.run Sys2Proof.core ts.length { s with turns := ts } = .next t →
    ∃ u, Host.Core.run Sys2Proof.core (ts.count .sequencer) { s with turns := [] } = .next u ∧ t.view = u.view

/-- The draws of a run (R46, R240): none without noise or when validation fails, `2·NS + 2·NP` when a noisy run is Done. -/
def Obligations.DrawsConsumed : Prop :=
  ∀ s t : State, s.Inv → s.phase = .validating → s.turns = [] → Host.Core.run Sys2Proof.core 8 s = .next t →
    (s.run.noiseen = false → t.urng = s.urng) ∧ (t.verrmask ≠ 0 → t.urng = s.urng) ∧
    (s.run.noiseen = true → t.phase = .done →
      t.urng = s.urng.after (2 * s.run.ns s.run.scheme + 2 * s.run.np s.params s.run.scheme))

/-- The BPSK round trip (R174, R216; spec/95 T1): a noiseless run whose configuration passes validation ends in Done with
the transmitted bits received, no error counted and none flagged. -/
def Obligations.BpskRoundTrip : Prop :=
  ∀ s : State, s.phase = .validating → s.turns = [] → s.Latched → 2 ≤ s.params.spbMin →
    (∀ i, CheckHolds s.params s.run s.res.runbits i) → s.run.modtype = 0 → s.run.noiseen = false →
    ∃ t, Host.Core.run Sys2Proof.core 6 s = .next t ∧ t.phase = .done ∧ t.res.runbits = s.res.runbits ∧
      t.res.rxbits = s.res.runbits ∧ t.res.berErrcnt = some 0 ∧ (∀ x ∈ t.res.berValue, x.val = 0) ∧
      ∀ p ∈ t.res.crx, p.err = 0

/-- The QPSK round trip under the sufficient condition of R178, `2·SPB·|sin ψ| > √2` (R178, R216; spec/95 T1, T4). -/
def Obligations.QpskRoundTrip : Prop :=
  ∀ s : State, s.phase = .validating → s.turns = [] → s.Latched →
    (∀ i, CheckHolds s.params s.run s.res.runbits i) → s.run.modtype = 1 → s.run.noiseen = false →
    s.params.qscale.finite = true → 0 < s.run.spb.toNat →
    Real.sqrt 2 < 2 * s.run.spb.toNat * |Real.sin s.run.angleStep| →
    ∃ t, Host.Core.run Sys2Proof.core 6 s = .next t ∧ t.phase = .done ∧ t.res.runbits = s.res.runbits ∧
      t.res.rxbits = s.res.runbits ∧ t.res.berErrcnt = some 0 ∧ (∀ x ∈ t.res.berValue, x.val = 0) ∧
      ∀ p ∈ t.res.crx, p.err = 0
end

