-- ==== Sys2Proof/Laws/Enclosure.lean ====
section
/-! SUPPORT. The rational bounds of Sys2Proof/Machine/Numerics.lean are bounds: one lemma per interval operation, then
`RNum.enclose_has`, and what follows for the comparison with zero (`RNum.sign_eq`). -/
namespace Sys2Proof

/-- The interval holds the real number `x`. -/
def Ival.Has (a : Ival) (x : ℝ) : Prop := (a.lo : ℝ) ≤ x * encScale ∧ x * encScale ≤ a.hi

theorem encScale_pos : (0 : ℝ) < encScale := by
  have h : 0 < encScale := by unfold encScale; positivity
  exact_mod_cast h

theorem encScale_pos_int : (0 : Int) < encScale := by
  have h : 0 < encScale := by unfold encScale; positivity
  exact_mod_cast h

/-- Rounding a quotient down. -/
theorem div_mul_le (a : Int) {b : Int} (hb : 0 < b) : ((a / b : Int) : ℝ) * b ≤ a := by
  have h : a / b * b ≤ a := Int.ediv_mul_le a (ne_of_gt hb)
  exact_mod_cast h

/-- Rounding a quotient up. -/
theorem le_ceilDiv_mul (a : Int) {b : Nat} (hb : 0 < b) : (a : ℝ) ≤ (ceilDiv a b : Int) * (b : ℝ) := by
  have hb' : (0 : Int) < b := by exact_mod_cast hb
  have h : (-a) / (b : Int) * b ≤ -a := Int.ediv_mul_le (-a) (ne_of_gt hb')
  have h2 : a ≤ ceilDiv a b * (b : Int) := by unfold ceilDiv; linarith
  exact_mod_cast h2

theorem div_le_of_le_mul {a : Int} {b : Int} (hb : 0 < b) {y : ℝ} (h : (a : ℝ) ≤ y * b) : ((a / b : Int) : ℝ) ≤ y := by
  have hb' : (0 : ℝ) < b := by exact_mod_cast hb
  have := div_mul_le a hb
  exact le_of_mul_le_mul_right (this.trans h) hb'

theorem le_ceilDiv_of_mul_le {a : Int} {b : Nat} (hb : 0 < b) {y : ℝ} (h : y * b ≤ (a : ℝ)) : y ≤ (ceilDiv a b : Int) := by
  have hb' : (0 : ℝ) < b := by exact_mod_cast hb
  exact le_of_mul_le_mul_right (h.trans (le_ceilDiv_mul a hb)) hb'

theorem Ival.has_ofRat (q : ℚ) : (Ival.ofRat q).Has (q : ℝ) := by
  have hd : 0 < q.den := q.den_pos
  have hq : (q : ℝ) * q.den = q.num := by exact_mod_cast Rat.mul_den_eq_num q
  constructor
  · refine div_le_of_le_mul (by exact_mod_cast hd) ?_
    push_cast
    rw [mul_right_comm, hq]
  · refine le_ceilDiv_of_mul_le hd ?_
    push_cast
    rw [mul_right_comm, hq]

theorem Ival.has_pi : Ival.pi.Has Real.pi := by
  have hS := encScale_pos
  constructor
  · refine div_le_of_le_mul (by positivity) ?_
    have h := Real.pi_gt_d20
    push_cast
    nlinarith
  · refine le_ceilDiv_of_mul_le (by positivity) ?_
    have h := Real.pi_lt_d20
    push_cast
    nlinarith

theorem Ival.Has.add {a b : Ival} {x y : ℝ} (h : a.Has x) (k : b.Has y) : (a.add b).Has (x + y) := by
  unfold Ival.Has Ival.add at *
  push_cast
  constructor <;> nlinarith [h.1, h.2, k.1, k.2]

theorem Ival.Has.neg {a : Ival} {x : ℝ} (h : a.Has x) : a.neg.Has (-x) := by
  unfold Ival.Has Ival.neg at *
  push_cast
  constructor <;> linarith [h.1, h.2]

theorem Ival.Has.sub {a b : Ival} {x y : ℝ} (h : a.Has x) (k : b.Has y) : (a.sub b).Has (x - y) := by
  unfold Ival.Has Ival.sub at *
  push_cast
  constructor <;> linarith [h.1, h.2, k.1, k.2]

/-- A product of numbers from two real intervals lies between the least and the greatest product of end points. -/
theorem mul_bounds {a b c d x y : ℝ} (h1 : a ≤ x) (h2 : x ≤ b) (k1 : c ≤ y) (k2 : y ≤ d) :
    min (min (a * c) (a * d)) (min (b * c) (b * d)) ≤ x * y ∧ x * y ≤ max (max (a * c) (a * d)) (max (b * c) (b * d)) := by
  have e : ∀ z : ℝ, min (z * c) (z * d) ≤ z * y ∧ z * y ≤ max (z * c) (z * d) := by
    intro z
    rcases le_total 0 z with hz | hz
    · exact ⟨(min_le_left _ _).trans (mul_le_mul_of_nonneg_left k1 hz), (mul_le_mul_of_nonneg_left k2 hz).trans (le_max_right _ _)⟩
    · exact ⟨(min_le_right _ _).trans (mul_le_mul_of_nonpos_left k2 hz), (mul_le_mul_of_nonpos_left k1 hz).trans (le_max_left _ _)⟩
  have f : min (a * y) (b * y) ≤ x * y ∧ x * y ≤ max (a * y) (b * y) := by
    rcases le_total 0 y with hy | hy
    · exact ⟨(min_le_left _ _).trans (mul_le_mul_of_nonneg_right h1 hy), (mul_le_mul_of_nonneg_right h2 hy).trans (le_max_right _ _)⟩
    · exact ⟨(min_le_right _ _).trans (mul_le_mul_of_nonpos_right h2 hy), (mul_le_mul_of_nonpos_right h1 hy).trans (le_max_left _ _)⟩
  exact ⟨(min_le_min (e a).1 (e b).1).trans f.1, f.2.trans (max_le_max (e a).2 (e b).2)⟩

theorem Ival.Has.mul {a b : Ival} {x y : ℝ} (h : a.Has x) (k : b.Has y) : (a.mul b).Has (x * y) := by
  have m := mul_bounds h.1 h.2 k.1 k.2
  have e : x * y * encScale * encScale = x * encScale * (y * encScale) := by ring
  constructor
  · refine div_le_of_le_mul encScale_pos_int ?_
    push_cast
    rw [e]
    exact m.1
  · refine le_ceilDiv_of_mul_le (by exact_mod_cast encScale_pos_int) ?_
    push_cast
    rw [e]
    exact m.2

theorem Ival.Has.sq {a : Ival} {x : ℝ} (h : a.Has x) : a.sq.Has (x ^ 2) := by
  have m := h.mul h
  rw [← pow_two] at m
  refine ⟨?_, m.2⟩
  have h0 : (0 : ℝ) ≤ x ^ 2 * encScale := mul_nonneg (sq_nonneg x) encScale_pos.le
  unfold Ival.sq
  push_cast
  exact max_le h0 m.1

theorem Ival.Has.max {a b : Ival} {x y : ℝ} (h : a.Has x) (k : b.Has y) : (a.max b).Has (Max.max x y) := by
  have hS := encScale_pos.le
  have e : Max.max x y * encScale = Max.max (x * encScale) (y * encScale) := max_mul_of_nonneg x y hS
  unfold Ival.Has Ival.max
  rw [e]
  push_cast
  exact ⟨max_le_max h.1 k.1, max_le_max h.2 k.2⟩

theorem Ival.Has.invPos {a : Ival} {x : ℝ} (h : a.Has x) (hp : 0 < a.lo) : a.invPos.Has x⁻¹ := by
  have hS := encScale_pos
  have hlo : (0 : ℝ) < a.lo := by exact_mod_cast hp
  have hx : 0 < x * encScale := hlo.trans_le h.1
  have hx0 : 0 < x := (mul_pos_iff_of_pos_right hS).mp hx
  have hhi : (0 : ℝ) < a.hi := hx.trans_le h.2
  have hhi' : 0 < a.hi := by exact_mod_cast hhi
  have e : x⁻¹ * encScale * (x * encScale) = encScale * encScale := by field_simp
  have hi : 0 < x⁻¹ * encScale := by positivity
  constructor
  · refine div_le_of_le_mul hhi' ?_
    push_cast
    rw [← e]
    exact mul_le_mul_of_nonneg_left h.2 hi.le
  · have ht : ((a.lo.toNat : Nat) : ℝ) = a.lo := by exact_mod_cast Int.toNat_of_nonneg hp.le
    refine le_ceilDiv_of_mul_le (by omega) ?_
    rw [ht]
    push_cast
    rw [← e]
    exact mul_le_mul_of_nonneg_left h.1 hi.le

theorem Ival.Has.inv {a b : Ival} {x : ℝ} (h : a.Has x) (e : a.inv = some b) : b.Has x⁻¹ := by
  unfold Ival.inv at e
  split at e
  · cases e; exact h.invPos ‹_›
  · split at e
    · cases e
      have hp : 0 < a.neg.lo := by simp only [Ival.neg]; omega
      have := (h.neg.invPos hp).neg
      rwa [inv_neg, neg_neg] at this
    · cases e

theorem Ival.Has.inv_ne {a b : Ival} {x : ℝ} (h : a.Has x) (e : a.inv = some b) : x ≠ 0 := by
  rintro rfl
  have h1 := h.1
  have h2 := h.2
  rw [zero_mul] at h1 h2
  unfold Ival.inv at e
  split at e
  · rename_i p
    have : (0 : ℝ) < a.lo := by exact_mod_cast p
    linarith
  · split at e
    · rename_i _ p
      have : (a.hi : ℝ) < 0 := by exact_mod_cast p
      linarith
    · cases e

theorem Ival.Has.shift {a : Ival} {x : ℝ} (h : a.Has x) (k : Nat) : (a.shift k).Has (x / 2 ^ k) := by
  have hk : (0 : ℝ) < 2 ^ k := by positivity
  have e : x / 2 ^ k * encScale * 2 ^ k = x * encScale := by field_simp
  constructor
  · refine div_le_of_le_mul (by positivity) ?_
    push_cast
    rw [e]
    exact h.1
  · refine le_ceilDiv_of_mul_le (by positivity) ?_
    push_cast
    rw [e]
    exact h.2

theorem Ival.Has.doubleCos {c : Ival} {y : ℝ} (h : c.Has (Real.cos y)) : c.doubleCos.Has (Real.cos (2 * y)) := by
  have hS := encScale_pos
  have m := h.sq
  have l := Real.neg_one_le_cos (2 * y)
  have u := Real.cos_le_one (2 * y)
  have e : Real.cos (2 * y) = 2 * Real.cos y ^ 2 - 1 := Real.cos_two_mul y
  unfold Ival.doubleCos Ival.Has
  push_cast
  have m1 := m.1
  have m2 := m.2
  constructor
  · refine max_le ?_ ?_
    · rw [e]; nlinarith
    · nlinarith
  · refine le_min ?_ ?_
    · rw [e]; nlinarith
    · nlinarith

theorem Ival.has_iter_doubleCos (k : Nat) {c : Ival} {y : ℝ} (h : c.Has (Real.cos y)) :
    (iter Ival.doubleCos k c).Has (Real.cos (2 ^ k * y)) := by
  induction k generalizing c y with
  | zero => simpa [iter] using h
  | succ k ih =>
    have := ih h.doubleCos
    rw [iter]
    convert this using 2
    ring

theorem Ival.Has.cosSmall {a : Ival} {y : ℝ} (h : a.Has y) (hy : |y| ≤ 1) : a.cosSmall.Has (Real.cos y) := by
  have hS := encScale_pos
  have b := abs_le.mp (Real.cos_bound hy)
  have e4 : |y| ^ 4 = (y ^ 2) ^ 2 := by rw [← pow_mul, show (2 * 2 : Nat) = 4 from rfl]; exact (even_two_mul 2).pow_abs y
  rw [e4] at b
  have s := h.sq
  have q := h.sq.sq
  have c1 : (y ^ 2) ^ 2 * (5 / 96) * encScale ≤ (ceilDiv (5 * a.sq.sq.hi) 96 : Int) := by
    refine le_ceilDiv_of_mul_le (by norm_num) ?_
    push_cast
    have := q.2
    nlinarith
  have c2 : y ^ 2 / 2 * encScale ≤ (ceilDiv a.sq.hi 2 : Int) := by
    refine le_ceilDiv_of_mul_le (by norm_num) ?_
    push_cast
    have := s.2
    nlinarith
  have c3 : ((a.sq.lo / 2 : Int) : ℝ) ≤ y ^ 2 / 2 * encScale := by
    refine div_le_of_le_mul (by norm_num) ?_
    push_cast
    have := s.1
    nlinarith
  unfold Ival.cosSmall Ival.Has
  push_cast at *
  constructor
  · nlinarith [b.1]
  · nlinarith [b.2]

theorem Ival.Has.cos {a b : Ival} {x : ℝ} (h : a.Has x) (e : a.cos = some b) : b.Has (Real.cos x) := by
  unfold Ival.cos at e
  split at e
  · rename_i p
    obtain rfl := Option.some.inj e
    have hS := encScale_pos
    have s := h.shift cosHalvings
    have p1 : (-(encScale : ℝ)) ≤ ((a.shift cosHalvings).lo : ℝ) := by exact_mod_cast p.1
    have p2 : ((a.shift cosHalvings).hi : ℝ) ≤ (encScale : ℝ) := by exact_mod_cast p.2
    have hy : |x / 2 ^ cosHalvings| ≤ 1 := by
      rw [abs_le]
      constructor
      · have := p1.trans s.1
        nlinarith
      · have := s.2.trans p2
        nlinarith
    have := Ival.has_iter_doubleCos cosHalvings (s.cosSmall hy)
    rwa [mul_div_cancel₀ _ (by positivity)] at this
  · cases e

theorem Ival.Has.sin {a b : Ival} {x : ℝ} (h : a.Has x) (e : a.sin = some b) : b.Has (Real.sin x) := by
  have hh : (Ival.pi.mul (.ofRat (1 / 2))).Has (Real.pi * ((1 / 2 : ℚ) : ℝ)) := Ival.has_pi.mul (Ival.has_ofRat _)
  have := (hh.sub h).cos e
  rwa [show Real.pi * ((1 / 2 : ℚ) : ℝ) - x = Real.pi / 2 - x by push_cast; ring, Real.cos_pi_div_two_sub] at this

theorem Ival.has_iter_sq (k : Nat) {c : Ival} {y : ℝ} (h : c.Has y) : (iter Ival.sq k c).Has (y ^ 2 ^ k) := by
  induction k generalizing c y with
  | zero => simpa [iter] using h
  | succ k ih =>
    have := ih h.sq
    rwa [iter, pow_succ', pow_mul]

theorem Ival.Has.expSmall {a : Ival} {y : ℝ} (h : a.Has y) (hy : a.hi < encScale) : a.expSmall.Has (Real.exp y) := by
  have hS := encScale_pos
  have hh : (a.hi : ℝ) < encScale := by exact_mod_cast hy
  have hd : (0 : ℝ) < encScale - a.hi := by linarith
  constructor
  · have := Real.add_one_le_exp y
    unfold Ival.expSmall
    push_cast
    nlinarith [h.1]
  · have hp : 0 < ((encScale : Int) - a.hi).toNat := by omega
    have ht : (((encScale : Int) - a.hi).toNat : ℝ) = encScale - a.hi := by
      have : ((((encScale : Int) - a.hi).toNat : Int) : ℝ) = (((encScale : Int) - a.hi : Int) : ℝ) := by
        exact_mod_cast Int.toNat_of_nonneg (by omega)
      push_cast at this
      exact this
    refine le_ceilDiv_of_mul_le hp ?_
    rw [ht]
    push_cast
    have k := Real.add_one_le_exp (-y)
    have e : Real.exp y * Real.exp (-y) = 1 := by rw [← Real.exp_add]; simp
    have ey := Real.exp_pos y
    have k2 : Real.exp y * (1 - y) ≤ 1 := by nlinarith
    have k3 : Real.exp y * ((1 - y) * encScale) ≤ encScale := by nlinarith
    have k4 : (encScale : ℝ) - a.hi ≤ (1 - y) * encScale := by nlinarith [h.2]
    have k5 : Real.exp y * (encScale - a.hi) ≤ encScale := (mul_le_mul_of_nonneg_left k4 ey.le).trans k3
    nlinarith

theorem pow_halves_gt : 4096 < 2 ^ expHalvings := by unfold expHalvings; norm_num

theorem Ival.Has.exp {a b : Ival} {x : ℝ} (h : a.Has x) (e : a.exp = some b) : b.Has (Real.exp x) := by
  unfold Ival.exp at e
  split at e
  · rename_i p
    obtain rfl := Option.some.inj e
    have hS := encScale_pos_int
    have s := h.shift expHalvings
    have hlt : (a.shift expHalvings).hi < encScale := by
      have p2 : a.hi ≤ 4096 * (encScale : Int) := p.2
      have e2 : (a.shift expHalvings).hi = -((-a.hi) / ((2 ^ expHalvings : Nat) : Int)) := rfl
      rw [e2]
      have : -(encScale : Int) < (-a.hi) / ((2 ^ expHalvings : Nat) : Int) := by
        rw [Int.lt_iff_add_one_le, Int.le_ediv_iff_mul_le (by positivity)]
        have g : (4096 : Int) < ((2 ^ expHalvings : Nat) : Int) := by exact_mod_cast pow_halves_gt
        have s1 : (1 : Int) ≤ encScale := hS
        have : (4096 : Int) * encScale ≤ (((2 ^ expHalvings : Nat) : Int) - 1) * encScale := by nlinarith
        have t : ((2 ^ expHalvings : Nat) : Int) ≤ (encScale : Int) := by
          have : 2 ^ expHalvings ≤ encScale := by unfold encScale expHalvings; exact Nat.pow_le_pow_right (by norm_num) (by norm_num)
          exact_mod_cast this
        nlinarith
      linarith
    have := Ival.has_iter_sq expHalvings (s.expSmall hlt)
    rw [← Real.exp_nat_mul] at this
    convert this using 2
    push_cast
    field_simp
  · cases e

theorem Ival.has_point (a : Int) : (⟨a, a⟩ : Ival).Has ((a : ℝ) / encScale) := by
  have hS := encScale_pos
  have e : (a : ℝ) / encScale * encScale = a := by field_simp
  exact ⟨e.ge, e.le⟩

theorem confirmLower_le {v a c : Int} {x : ℝ} (hv : (v : ℝ) ≤ x * encScale) (hx : 0 < x) (e : confirmLower v c = some a) :
    (a : ℝ) ≤ Real.log x * encScale := by
  have hS := encScale_pos
  unfold confirmLower at e
  split at e
  · rename_i b hb
    split at e
    · rename_i hle
      cases e
      have h := (Ival.has_point _).exp hb
      have hle' : (b.hi : ℝ) ≤ v := by exact_mod_cast hle
      have : Real.exp ((a : ℝ) / encScale) ≤ x :=
        le_of_mul_le_mul_right (h.2.trans (hle'.trans hv)) hS
      have := (Real.le_log_iff_exp_le hx).mpr this
      rwa [div_le_iff₀ hS] at this
    · cases e
  · cases e

theorem le_confirmUpper {v a c : Int} {x : ℝ} (hv : x * encScale ≤ (v : ℝ)) (hx : 0 < x) (e : confirmUpper v c = some a) :
    Real.log x * encScale ≤ (a : ℝ) := by
  have hS := encScale_pos
  unfold confirmUpper at e
  split at e
  · rename_i b hb
    split at e
    · rename_i hle
      cases e
      have h := (Ival.has_point _).exp hb
      have hle' : (v : ℝ) ≤ (b.lo : ℝ) := by exact_mod_cast hle
      have : x ≤ Real.exp ((a : ℝ) / encScale) :=
        le_of_mul_le_mul_right (hv.trans (hle'.trans h.1)) hS
      have := (Real.log_le_iff_le_exp hx).mpr this
      rwa [le_div_iff₀ hS] at this
    · cases e
  · cases e

theorem Ival.Has.ln {a b : Ival} {x : ℝ} (h : a.Has x) (e : a.ln = some b) : b.Has (Real.log x) := by
  have hS := encScale_pos
  unfold Ival.ln at e
  split at e
  · rename_i hp
    have hp' : (0 : ℝ) < a.lo := by exact_mod_cast hp
    have hx : 0 < x := (mul_pos_iff_of_pos_right hS).mp (hp'.trans_le h.1)
    split at e
    · rename_i l u hl hu
      cases e
      exact ⟨confirmLower_le h.1 hx hl, le_confirmUpper h.2 hx hu⟩
    · cases e
  · cases e

theorem Ival.Has.pow10 {a b : Ival} {x : ℝ} (h : a.Has x) (e : a.pow10 = some b) : b.Has ((10 : ℝ) ^ x) := by
  unfold Ival.pow10 at e
  split at e
  · rename_i l hl
    have := (h.mul ((Ival.has_ofRat 10).ln hl)).exp e
    rw [Real.rpow_def_of_pos (by norm_num), mul_comm]
    simpa using this
  · cases e

theorem natSqrt?_spec {n r : Nat} (e : natSqrt? n = some r) : r ^ 2 ≤ n ∧ n ≤ (r + 1) ^ 2 := by
  unfold natSqrt? confirmSqrt at e
  split at e
  · cases e; assumption
  · cases e

theorem Ival.Has.sqrt {a b : Ival} {x : ℝ} (h : a.Has x) (e : a.sqrt = some b) : b.Has (Real.sqrt x) := by
  have hS := encScale_pos
  unfold Ival.sqrt at e
  split at e
  · rename_i hp
    split at e
    · rename_i l u hl hu
      cases e
      have hlo : ((a.lo.toNat : Nat) : ℝ) = a.lo := by exact_mod_cast Int.toNat_of_nonneg hp
      have hp' : (0 : ℝ) ≤ a.lo := by exact_mod_cast hp
      have hx : 0 ≤ x := nonneg_of_mul_nonneg_left (hp'.trans h.1) hS
      have hh : (0 : ℝ) ≤ a.hi := (mul_nonneg hx hS.le).trans h.2
      have hhi : ((a.hi.toNat : Nat) : ℝ) = a.hi := by
        exact_mod_cast Int.toNat_of_nonneg (by exact_mod_cast hh)
      have e1 := (natSqrt?_spec hl).1
      have e2 := (natSqrt?_spec hu).2
      have f1 : (l : ℝ) ^ 2 ≤ a.lo * encScale := by rw [← hlo]; exact_mod_cast e1
      have f2 : a.hi * (encScale : ℝ) ≤ ((u : ℝ) + 1) ^ 2 := by rw [← hhi]; exact_mod_cast e2
      have sx := Real.sqrt_nonneg x
      have sq := Real.sq_sqrt hx
      have k : (Real.sqrt x * encScale) ^ 2 = x * encScale * encScale := by rw [mul_pow, sq]; ring
      constructor
      · push_cast
        refine le_of_sq_le_sq ?_ (by positivity)
        rw [k]
        exact f1.trans (mul_le_mul_of_nonneg_right h.1 hS.le)
      · push_cast
        refine le_of_sq_le_sq ?_ (by positivity)
        rw [k]
        exact (mul_le_mul_of_nonneg_right h.2 hS.le).trans f2
    · cases e
  · cases e

/-- The bounds of an expression hold its real value. -/
theorem RNum.enclose_has {e : RNum} {a : Ival} (h : e.enclose = some a) : a.Has e.val := by
  induction e generalizing a with
  | rat q => cases h; exact Ival.has_ofRat q
  | pi q => cases h; exact (Ival.has_ofRat q).mul Ival.has_pi
  | add x y ihx ihy =>
    simp only [RNum.enclose] at h
    split at h
    · cases h; exact (ihx ‹_›).add (ihy ‹_›)
    · cases h
  | sub x y ihx ihy =>
    simp only [RNum.enclose] at h
    split at h
    · cases h; exact (ihx ‹_›).sub (ihy ‹_›)
    · cases h
  | mul x y ihx ihy =>
    simp only [RNum.enclose] at h
    split at h
    · cases h; exact (ihx ‹_›).mul (ihy ‹_›)
    · cases h
  | div x y ihx ihy =>
    simp only [RNum.enclose] at h
    split at h
    · split at h
      · cases h
        have := (ihx ‹_›).mul ((ihy ‹_›).inv ‹_›)
        rwa [← div_eq_mul_inv] at this
      · cases h
    · cases h
  | sq x ih =>
    simp only [RNum.enclose] at h
    split at h
    · cases h; exact (ih ‹_›).sq
    · cases h
  | sqrt x ih =>
    simp only [RNum.enclose] at h
    split at h
    · exact (ih ‹_›).sqrt h
    · cases h
  | ln x ih =>
    simp only [RNum.enclose] at h
    split at h
    · exact (ih ‹_›).ln h
    · cases h
  | pow10 x ih =>
    simp only [RNum.enclose] at h
    split at h
    · exact (ih ‹_›).pow10 h
    · cases h
  | cos x ih =>
    simp only [RNum.enclose] at h
    split at h
    · exact (ih ‹_›).cos h
    · cases h
  | sin x ih =>
    simp only [RNum.enclose] at h
    split at h
    · exact (ih ‹_›).sin h
    · cases h
  | max x y ihx ihy =>
    simp only [RNum.enclose] at h
    split at h
    · cases h; exact (ihx ‹_›).max (ihy ‹_›)
    · cases h
  | jit x => cases h
  | noiseFloor => cases h

/-- The comparison with zero is that of the real numbers, on every number (R12). -/
theorem RNum.sign_eq (e : RNum) : e.sign = cmp e.val 0 := by
  unfold RNum.sign
  split
  · rename_i q
    split
    · rename_i p
      exact (cmp_eq_gt_iff _ _ |>.2 (by simpa [RNum.val] using Rat.num_pos.1 p)).symm
    · split
      · rename_i p
        exact (cmp_eq_lt_iff _ _ |>.2 (by simpa [RNum.val] using Rat.num_neg.1 p)).symm
      · have : q = 0 := Rat.num_eq_zero.1 (by omega)
        exact (cmp_eq_eq_iff _ _ |>.2 (by simp [RNum.val, this])).symm
  · split
    · rename_i x hx
      have hS := encScale_pos
      have hh := RNum.enclose_has hx
      split
      · rename_i p
        have p' : (0 : ℝ) < x.lo := by exact_mod_cast p
        exact (cmp_eq_gt_iff _ _ |>.2 ((mul_pos_iff_of_pos_right hS).1 (p'.trans_le hh.1))).symm
      · split
        · rename_i p
          have p' : (x.hi : ℝ) < 0 := by exact_mod_cast p
          refine (cmp_eq_lt_iff _ _ |>.2 (not_le.1 fun hc => ?_)).symm
          linarith [hh.2, mul_nonneg hc hS.le]
        · exact e.compareZero.2
    · exact e.compareZero.2

theorem RNum.sign_gt_iff (e : RNum) : e.sign = .gt ↔ 0 < e.val := by rw [RNum.sign_eq, cmp_eq_gt_iff]

theorem RNum.sign_lt_iff (e : RNum) : e.sign = .lt ↔ e.val < 0 := by rw [RNum.sign_eq, cmp_eq_lt_iff]

theorem RNum.sign_eq_iff (e : RNum) : e.sign = .eq ↔ e.val = 0 := by rw [RNum.sign_eq, cmp_eq_eq_iff]

theorem RNum.nonneg_iff (e : RNum) : e.nonneg = true ↔ 0 ≤ e.val := by
  simp [RNum.nonneg, RNum.sign_lt_iff]

theorem RNum.isPos_iff (e : RNum) : e.isPos = true ↔ 0 < e.val := by
  simp [RNum.isPos, RNum.sign_gt_iff]

end Sys2Proof
end

