-- ==== Sys2Proof/Laws/Encoding.lean ====
section
/-! SUPPORT. Bit fields of the encodings: bus headers as numbers, and the command words. -/
namespace Sys2Proof

theorem toNat_append_add {m n : Nat} (x : BitVec m) (y : BitVec n) : (x ++ y).toNat = x.toNat * 2 ^ n + y.toNat := by
  rw [BitVec.toNat_append, ← Nat.shiftLeft_add_eq_or_of_lt y.isLt, Nat.shiftLeft_eq]

/-- A register header as a number (R94). -/
theorem registerHeader_toNat (k : BitVec 2) (idx : BitVec 16) :
    BitVec.toNat (w := 32) (k ++ (0 : BitVec 14) ++ idx) = k.toNat * 2 ^ 30 + idx.toNat := by
  have h := toNat_append_add (k ++ (0 : BitVec 14)) idx
  rw [toNat_append_add k (0 : BitVec 14)] at h
  simp only [BitVec.ofNat_eq_ofNat, BitVec.toNat_ofNat, Nat.zero_mod] at h
  refine Eq.trans h ?_
  ring

/-- A buffer header as a number (R94). -/
theorem bufferHeader_toNat (k : BitVec 2) (sp : BitVec 4) :
    BitVec.toNat (w := 32) (k ++ sp ++ (0 : BitVec 26)) = k.toNat * 2 ^ 30 + sp.toNat * 2 ^ 26 := by
  have h := toNat_append_add (k ++ sp) (0 : BitVec 26)
  rw [toNat_append_add k sp] at h
  simp only [BitVec.ofNat_eq_ofNat, BitVec.toNat_ofNat, Nat.zero_mod] at h
  refine Eq.trans h ?_
  ring

theorem field_toNat (w : Word) (lo n : Nat) : (w.extractLsb' lo n).toNat = w.toNat / 2 ^ lo % 2 ^ n := by
  rw [BitVec.extractLsb'_toNat, Nat.shiftRight_eq_div_pow]

/-- The fields of a register header (R94). -/
theorem registerHeader_fields {h : Word} {k : BitVec 2} {idx : BitVec 16} (e : h.toNat = k.toNat * 2 ^ 30 + idx.toNat) :
    h.extractLsb' 30 2 = k ∧ h.extractLsb' 16 14 = 0 ∧ h.extractLsb' 0 16 = idx := by
  have := k.isLt
  have := idx.isLt
  refine ⟨?_, ?_, ?_⟩ <;> apply BitVec.eq_of_toNat_eq <;> rw [field_toNat] <;> simp <;> omega

/-- The fields of a buffer header (R94). -/
theorem bufferHeader_fields {h : Word} {k : BitVec 2} {sp : BitVec 4}
    (e : h.toNat = k.toNat * 2 ^ 30 + sp.toNat * 2 ^ 26) :
    h.extractLsb' 30 2 = k ∧ h.extractLsb' 0 26 = 0 ∧ h.extractLsb' 26 4 = sp := by
  have := k.isLt
  have := sp.isLt
  refine ⟨?_, ?_, ?_⟩ <;> apply BitVec.eq_of_toNat_eq <;> rw [field_toNat] <;> simp <;> omega

/-- Bits 31 and 30 of a header as the kind (R94). -/
theorem bit31_iff (h : Word) : h.getLsbD 31 = true ↔ 2 ≤ (h.extractLsb' 30 2).toNat := by
  simp only [BitVec.getLsbD, Nat.testBit, field_toNat, Nat.shiftRight_eq_div_pow]
  have := h.isLt
  simp
  omega

theorem bit30_iff (h : Word) : h.getLsbD 30 = true ↔ (h.extractLsb' 30 2).toNat % 2 = 1 := by
  simp only [BitVec.getLsbD, Nat.testBit, field_toNat, Nat.shiftRight_eq_div_pow]
  have := h.isLt
  simp

/-- The four command words (R93). -/
theorem decodeCommand_ok {w : Word} {i : Instr} : decodeCommand w = .ok i ↔
    (w = 0 ∧ i = .nop) ∨ (w = 1 ∧ i = .start) ∨ (w = 2 ∧ i = .abort) ∨ (w = 3 ∧ i = .clear) := by
  unfold decodeCommand
  by_cases hz : w.extractLsb' 8 24 = 0
  · have hw : w.toNat = (w.extractLsb' 0 8).toNat := by
      have h2 := congrArg BitVec.toNat hz
      rw [field_toNat] at h2 ⊢
      simp at h2 ⊢
      have := w.isLt
      omega
    have e : ∀ n, n < 4 → ((w.extractLsb' 0 8).toNat = n ↔ w = BitVec.ofNat 32 n) := by
      intro n hn
      rw [← hw]; constructor
      · rintro rfl; simp
      · rintro rfl; simp; omega
    simp only [hz, ne_eq, not_true_eq_false, if_false]
    split <;> rename_i h
    · have := (e 0 (by omega)).1 h; subst this; simp [eq_comm]
    · have := (e 1 (by omega)).1 h; subst this; simp [eq_comm]
    · have := (e 2 (by omega)).1 h; subst this; simp [eq_comm]
    · have := (e 3 (by omega)).1 h; subst this; simp [eq_comm]
    · simp only [reduceCtorEq, false_iff]
      rintro (⟨rfl, _⟩ | ⟨rfl, _⟩ | ⟨rfl, _⟩ | ⟨rfl, _⟩) <;> simp_all
  · simp only [ne_eq, hz, not_false_eq_true, if_true, reduceCtorEq, false_iff]
    rintro (⟨rfl, _⟩ | ⟨rfl, _⟩ | ⟨rfl, _⟩ | ⟨rfl, _⟩) <;> exact hz (by decide)

end Sys2Proof
end

