-- ==== Sys2Proof/Laws/Numerics.lean ====
section
/-! SUPPORT. The operations of the numerics record (spec/00_scope.md R12): one lemma per operation says what real number it
gives, one when it gives one. -/
namespace Sys2Proof

theorem RNum.val_ofNat (n : Nat) : (RNum.ofNat n).val = n := by simp [RNum.ofNat, RNum.val]

@[simp] theorem RNum.finite_ofNat (n : Nat) : (RNum.ofNat n).finite = true := rfl

theorem RNum.val_piMul (q : ℚ) : (RNum.piMul q).val = q * Real.pi := by
  unfold RNum.piMul
  split
  · rename_i h
    rw [Rat.num_eq_zero.mp h]
    simp [RNum.val]
  · rfl

@[simp] theorem RNum.finite_piMul (q : ℚ) : (RNum.piMul q).finite = true := by
  unfold RNum.piMul
  split <;> rfl

theorem RNum.val_plus (a b : RNum) : (RNum.plus a b).val = a.val + b.val := by
  unfold RNum.plus
  split
  · simp [RNum.val]
  · rw [RNum.val_piMul]; simp [RNum.val]; ring
  · split
    · rename_i h; subst h; simp [RNum.val]
    · split
      · rename_i h; subst h; simp [RNum.val]
      · rfl

@[simp] theorem RNum.finite_plus (a b : RNum) : (RNum.plus a b).finite = (a.finite && b.finite) := by
  unfold RNum.plus
  split
  · rfl
  · simp [RNum.finite]
  · split
    · rename_i h; subst h; simp [RNum.finite]
    · split
      · rename_i h; subst h; simp [RNum.finite]
      · rfl

theorem RNum.val_minus (a b : RNum) : (RNum.minus a b).val = a.val - b.val := by
  unfold RNum.minus
  split
  · simp [RNum.val]
  · rw [RNum.val_piMul]; simp [RNum.val]; ring
  · split
    · rename_i h; subst h; simp [RNum.val]
    · rfl

@[simp] theorem RNum.finite_minus (a b : RNum) : (RNum.minus a b).finite = (a.finite && b.finite) := by
  unfold RNum.minus
  split
  · rfl
  · simp [RNum.finite]
  · split
    · rename_i h; subst h; simp [RNum.finite]
    · rfl

theorem RNum.val_times (a b : RNum) : (RNum.times a b).val = a.val * b.val := by
  unfold RNum.times
  split
  · simp [RNum.val]
  · rw [RNum.val_piMul]; simp [RNum.val]; ring
  · rw [RNum.val_piMul]; simp [RNum.val]; ring
  · split
    · rename_i h
      rcases h with ⟨h, _⟩ | ⟨h, _⟩ <;> subst h <;> simp [RNum.val]
    · split
      · rename_i h; subst h; simp [RNum.val]
      · split
        · rename_i h; subst h; simp [RNum.val]
        · rfl

@[simp] theorem RNum.finite_times (a b : RNum) : (RNum.times a b).finite = (a.finite && b.finite) := by
  unfold RNum.times
  split
  · rfl
  · simp [RNum.finite]
  · simp [RNum.finite]
  · split
    · rename_i h
      rcases h with ⟨h, h'⟩ | ⟨h, h'⟩ <;> subst h <;> simp [RNum.finite, h']
    · split
      · rename_i h; subst h; simp [RNum.finite]
      · split
        · rename_i h; subst h; simp [RNum.finite]
        · rfl

theorem RNum.val_over (a b : RNum) : (RNum.over a b).val = a.val / b.val := by
  unfold RNum.over
  split
  · split <;> simp [RNum.val]
  · rfl

@[simp] theorem RNum.finite_over (a b : RNum) : (RNum.over a b).finite = (a.finite && b.finite && b.sign != .eq) := by
  unfold RNum.over
  split
  · rename_i p q
    split
    · rfl
    · rename_i h
      have : (RNum.rat q).sign ≠ .eq := by
        unfold RNum.sign
        simp only
        split
        · decide
        · split
          · decide
          · omega
      simp [RNum.finite, this]
  · rfl

theorem RNum.val_square (a : RNum) : (RNum.square a).val = a.val ^ 2 := by
  unfold RNum.square
  split
  · simp [RNum.val, pow_two]
  · rfl

@[simp] theorem RNum.finite_square (a : RNum) : (RNum.square a).finite = a.finite := by
  unfold RNum.square
  split <;> rfl

theorem RNum.val_root (a : RNum) : (RNum.root a).val = Real.sqrt a.val := by
  unfold RNum.root
  split
  · rename_i p
    split
    · rename_i n d _ _
      split
      · rename_i h
        have hd : (0 : ℝ) < d := by
          have := p.den_pos
          rw [← h.2] at this
          exact_mod_cast Nat.pos_of_mul_pos_left this
        have e : (p : ℝ) = ((n : ℝ) / d) ^ 2 := by
          have e1 : (p : ℝ) = (p.num : ℝ) / p.den := by exact_mod_cast (Rat.num_div_den p).symm
          rw [e1, ← h.1, ← h.2, div_pow, pow_two, pow_two]
          push_cast
          rfl
        simp only [RNum.val]
        rw [e, Real.sqrt_sq (by positivity)]
        push_cast
        rfl
      · rfl
    · rfl
  · rfl

@[simp] theorem RNum.finite_root (a : RNum) : (RNum.root a).finite = (a.finite && a.sign != .lt) := by
  unfold RNum.root
  split
  · rename_i p
    split
    · rename_i n d _ _
      split
      · rename_i h
        have hn : 0 ≤ p.num := by rw [← h.1]; positivity
        have : (RNum.rat p).sign ≠ .lt := by
          unfold RNum.sign
          simp only
          split
          · decide
          · split
            · omega
            · decide
        simp [RNum.finite, this]
      · rfl
    · rfl
  · rfl

theorem RNum.val_log (a : RNum) : (RNum.log a).val = Real.log a.val := rfl

@[simp] theorem RNum.finite_log (a : RNum) : (RNum.log a).finite = (a.finite && a.sign == .gt) := rfl

theorem RNum.val_tenTo (a : RNum) : (RNum.tenTo a).val = (10 : ℝ) ^ a.val := by
  unfold RNum.tenTo
  split
  · rename_i p
    split
    · rename_i h
      have e : (p : ℝ) = (p.num : ℝ) := by exact_mod_cast ((Rat.den_eq_one_iff p).mp h.1).symm
      simp only [RNum.val]
      rw [e]
      split
      · rename_i hp
        have e2 : (p.num : ℝ) = ((p.num.natAbs : Nat) : ℝ) := by
          have : ((p.num.natAbs : Nat) : Int) = p.num := Int.natAbs_of_nonneg hp
          rw [← Int.cast_natCast, this]
        rw [e2, Real.rpow_natCast]
        push_cast
        rfl
      · rename_i hp
        have e2 : (p.num : ℝ) = -((p.num.natAbs : Nat) : ℝ) := by
          have e3 : ((p.num.natAbs : Nat) : Int) = -p.num := by omega
          rw [← Int.cast_natCast, e3]
          push_cast
          rw [neg_neg]
        rw [e2, Real.rpow_neg (by norm_num), Real.rpow_natCast]
        push_cast
        rw [one_div]
    · rfl
  · rfl

@[simp] theorem RNum.finite_tenTo (a : RNum) : (RNum.tenTo a).finite = a.finite := by
  unfold RNum.tenTo
  split
  · split <;> rfl
  · rfl

theorem turnPart_angle (q : ℚ) : ∃ n : Int, (q : ℝ) * Real.pi = (turnPart q : ℝ) * Real.pi + n * (2 * Real.pi) := by
  refine ⟨q.num / (2 * (q.den : Int)), ?_⟩
  unfold turnPart
  push_cast
  ring

theorem RNum.val_cosine (a : RNum) : (RNum.cosine a).val = Real.cos a.val := by
  unfold RNum.cosine
  split
  · split
    · rename_i p h
      rw [Rat.num_eq_zero.mp h]
      simp [RNum.val]
    · rfl
  · rename_i q
    obtain ⟨n, hn⟩ := turnPart_angle q
    have e : Real.cos (RNum.pi q).val = Real.cos ((turnPart q : ℝ) * Real.pi) := by
      simp only [RNum.val]
      rw [hn, Real.cos_add_int_mul_two_pi]
    rw [e]
    split
    · rename_i h; rw [h]; simp [RNum.val]
    · split
      · rename_i h
        rw [h]
        simp only [RNum.val]
        rw [show ((1 / 2 : ℚ) : ℝ) * Real.pi = Real.pi / 2 by push_cast; ring, Real.cos_pi_div_two]
        simp
      · split
        · rename_i h; rw [h]; simp [RNum.val]
        · split
          · rename_i h
            rw [h]
            simp only [RNum.val]
            rw [show ((3 / 2 : ℚ) : ℝ) * Real.pi = Real.pi / 2 + Real.pi by push_cast; ring, Real.cos_add_pi, Real.cos_pi_div_two]
            simp
          · rfl
  · rfl

@[simp] theorem RNum.finite_cosine (a : RNum) : (RNum.cosine a).finite = a.finite := by
  unfold RNum.cosine
  split
  · split <;> rfl
  · repeat' split
    all_goals rfl
  · rfl

theorem RNum.val_sine (a : RNum) : (RNum.sine a).val = Real.sin a.val := by
  unfold RNum.sine
  split
  · split
    · rename_i p h
      rw [Rat.num_eq_zero.mp h]
      simp [RNum.val]
    · rfl
  · rename_i q
    obtain ⟨n, hn⟩ := turnPart_angle q
    have e : Real.sin (RNum.pi q).val = Real.sin ((turnPart q : ℝ) * Real.pi) := by
      simp only [RNum.val]
      rw [hn, Real.sin_add_int_mul_two_pi]
    rw [e]
    split
    · rename_i h; rw [h]; simp [RNum.val]
    · split
      · rename_i h
        rw [h]
        simp only [RNum.val]
        rw [show ((1 / 2 : ℚ) : ℝ) * Real.pi = Real.pi / 2 by push_cast; ring, Real.sin_pi_div_two]
        simp
      · split
        · rename_i h; rw [h]; simp [RNum.val]
        · split
          · rename_i h
            rw [h]
            simp only [RNum.val]
            rw [show ((3 / 2 : ℚ) : ℝ) * Real.pi = Real.pi / 2 + Real.pi by push_cast; ring, Real.sin_add_pi, Real.sin_pi_div_two]
            simp
          · rfl
  · rfl

@[simp] theorem RNum.finite_sine (a : RNum) : (RNum.sine a).finite = a.finite := by
  unfold RNum.sine
  split
  · split <;> rfl
  · repeat' split
    all_goals rfl
  · rfl

theorem RNum.val_greater (a b : RNum) : (RNum.greater a b).val = Max.max a.val b.val := by
  unfold RNum.greater
  split
  · rename_i p q
    simp only [RNum.val]
    split
    · rename_i h
      have : q ≤ p := sub_nonneg.mp (Rat.num_nonneg.mp h)
      simp only [RNum.val]
      rw [max_eq_left]
      exact_mod_cast this
    · rename_i h
      have : p ≤ q := by
        by_contra hc
        rw [not_le] at hc
        exact h (Rat.num_nonneg.mpr (sub_nonneg.mpr hc.le))
      simp only [RNum.val]
      rw [max_eq_right]
      exact_mod_cast this
  · rfl

@[simp] theorem RNum.finite_greater (a b : RNum) : (RNum.greater a b).finite = (a.finite && b.finite) := by
  unfold RNum.greater
  split
  · split <;> rfl
  · rfl

theorem RNum.isPos_rat (q : ℚ) : (RNum.rat q).isPos = true ↔ 0 < q := by
  simp [RNum.isPos_iff, RNum.val]

theorem RNum.nonneg_rat (q : ℚ) : (RNum.rat q).nonneg = true ↔ 0 ≤ q := by
  simp [RNum.nonneg_iff, RNum.val]

theorem RNum.atMost_iff (x y : RNum) : x.atMost y = true ↔ x.val ≤ y.val := by
  rw [RNum.atMost, RNum.nonneg_iff, RNum.val_minus, sub_nonneg]

/-- When an expression stands for a real number, over the reals: no quotient by zero, no logarithm of a number that is not
positive, no square root of a negative number (R263). -/
theorem RNum.finite_over_iff (a b : RNum) :
    (RNum.over a b).finite = true ↔ a.finite = true ∧ b.finite = true ∧ b.val ≠ 0 := by
  simp [RNum.sign_eq_iff, and_assoc]

theorem RNum.finite_root_iff (a : RNum) : (RNum.root a).finite = true ↔ a.finite = true ∧ 0 ≤ a.val := by
  simp [RNum.sign_lt_iff]

theorem RNum.finite_log_iff (a : RNum) : (RNum.log a).finite = true ↔ a.finite = true ∧ 0 < a.val := by
  simp [RNum.sign_gt_iff]

/-- Adding the rational number 0 changes nothing, not even the expression (R200: coordinates are equal exactly). -/
theorem RNum.plus_zero (a : RNum) : RNum.plus a (.rat 0) = a := by
  unfold RNum.plus
  split
  · rename_i h
    cases h
    simp
  · rename_i h
    cases h
  · split
    · rename_i h; exact h.symm
    · simp

end Sys2Proof
end

