-- ==== Sys2Proof/Laws/State.lean ====
section
/-! SUPPORT. What each named update of State leaves in each field. -/
namespace Sys2Proof.Machine

section
variable (s : State)

@[simp] theorem State.refuseAccess_params : s.refuseAccess.params = s.params := rfl
@[simp] theorem State.refuseAccess_phase : s.refuseAccess.phase = s.phase := rfl
@[simp] theorem State.refuseAccess_degen : s.refuseAccess.degen = s.degen := rfl
@[simp] theorem State.refuseAccess_snrv : s.refuseAccess.snrv = s.snrv := rfl
@[simp] theorem State.refuseAccess_cmderr : s.refuseAccess.cmderr = s.cmderr := rfl
@[simp] theorem State.refuseAccess_accerr : s.refuseAccess.accerr = true := rfl
@[simp] theorem State.refuseAccess_cause : s.refuseAccess.cause = s.cause := rfl
@[simp] theorem State.refuseAccess_verrmask : s.refuseAccess.verrmask = s.verrmask := rfl
@[simp] theorem State.refuseAccess_ien : s.refuseAccess.ien = s.ien := rfl
@[simp] theorem State.refuseAccess_cfg : s.refuseAccess.cfg = s.cfg := rfl
@[simp] theorem State.refuseAccess_txbits : s.refuseAccess.txbits = s.txbits := rfl
@[simp] theorem State.refuseAccess_run : s.refuseAccess.run = s.run := rfl
@[simp] theorem State.refuseAccess_res : s.refuseAccess.res = s.res := rfl
@[simp] theorem State.refuseAccess_work : s.refuseAccess.work = s.work := rfl
@[simp] theorem State.refuseAccess_urng : s.refuseAccess.urng = s.urng := rfl
@[simp] theorem State.refuseAccess_turns : s.refuseAccess.turns = s.turns := rfl
@[simp] theorem State.refuseAccess_rdata : s.refuseAccess.rdata = s.rdata := rfl
@[simp] theorem State.refuseAccess_epoch : s.refuseAccess.epoch = s.epoch := rfl

@[simp] theorem State.refuseRead_params : s.refuseRead.params = s.params := rfl
@[simp] theorem State.refuseRead_phase : s.refuseRead.phase = s.phase := rfl
@[simp] theorem State.refuseRead_degen : s.refuseRead.degen = s.degen := rfl
@[simp] theorem State.refuseRead_snrv : s.refuseRead.snrv = s.snrv := rfl
@[simp] theorem State.refuseRead_cmderr : s.refuseRead.cmderr = s.cmderr := rfl
@[simp] theorem State.refuseRead_accerr : s.refuseRead.accerr = true := rfl
@[simp] theorem State.refuseRead_cause : s.refuseRead.cause = s.cause := rfl
@[simp] theorem State.refuseRead_verrmask : s.refuseRead.verrmask = s.verrmask := rfl
@[simp] theorem State.refuseRead_ien : s.refuseRead.ien = s.ien := rfl
@[simp] theorem State.refuseRead_cfg : s.refuseRead.cfg = s.cfg := rfl
@[simp] theorem State.refuseRead_txbits : s.refuseRead.txbits = s.txbits := rfl
@[simp] theorem State.refuseRead_run : s.refuseRead.run = s.run := rfl
@[simp] theorem State.refuseRead_res : s.refuseRead.res = s.res := rfl
@[simp] theorem State.refuseRead_work : s.refuseRead.work = s.work := rfl
@[simp] theorem State.refuseRead_urng : s.refuseRead.urng = s.urng := rfl
@[simp] theorem State.refuseRead_turns : s.refuseRead.turns = s.turns := rfl
@[simp] theorem State.refuseRead_rdata : s.refuseRead.rdata = none := rfl
@[simp] theorem State.refuseRead_epoch : s.refuseRead.epoch = s.epoch := rfl

@[simp] theorem State.refuseCommand_params : s.refuseCommand.params = s.params := rfl
@[simp] theorem State.refuseCommand_phase : s.refuseCommand.phase = s.phase := rfl
@[simp] theorem State.refuseCommand_degen : s.refuseCommand.degen = s.degen := rfl
@[simp] theorem State.refuseCommand_snrv : s.refuseCommand.snrv = s.snrv := rfl
@[simp] theorem State.refuseCommand_cmderr : s.refuseCommand.cmderr = true := rfl
@[simp] theorem State.refuseCommand_accerr : s.refuseCommand.accerr = s.accerr := rfl
@[simp] theorem State.refuseCommand_cause : s.refuseCommand.cause = s.cause := rfl
@[simp] theorem State.refuseCommand_verrmask : s.refuseCommand.verrmask = s.verrmask := rfl
@[simp] theorem State.refuseCommand_ien : s.refuseCommand.ien = s.ien := rfl
@[simp] theorem State.refuseCommand_cfg : s.refuseCommand.cfg = s.cfg := rfl
@[simp] theorem State.refuseCommand_txbits : s.refuseCommand.txbits = s.txbits := rfl
@[simp] theorem State.refuseCommand_run : s.refuseCommand.run = s.run := rfl
@[simp] theorem State.refuseCommand_res : s.refuseCommand.res = s.res := rfl
@[simp] theorem State.refuseCommand_work : s.refuseCommand.work = s.work := rfl
@[simp] theorem State.refuseCommand_urng : s.refuseCommand.urng = s.urng := rfl
@[simp] theorem State.refuseCommand_turns : s.refuseCommand.turns = s.turns := rfl
@[simp] theorem State.refuseCommand_rdata : s.refuseCommand.rdata = s.rdata := rfl
@[simp] theorem State.refuseCommand_epoch : s.refuseCommand.epoch = s.epoch := rfl

@[simp] theorem State.failRun_params (c : BitVec 8) : (s.failRun c).params = s.params := rfl
@[simp] theorem State.failRun_phase (c : BitVec 8) : (s.failRun c).phase = .failed := rfl
@[simp] theorem State.failRun_degen (c : BitVec 8) : (s.failRun c).degen = s.degen := rfl
@[simp] theorem State.failRun_snrv (c : BitVec 8) : (s.failRun c).snrv = s.snrv := rfl
@[simp] theorem State.failRun_cmderr (c : BitVec 8) : (s.failRun c).cmderr = s.cmderr := rfl
@[simp] theorem State.failRun_accerr (c : BitVec 8) : (s.failRun c).accerr = s.accerr := rfl
@[simp] theorem State.failRun_cause (c : BitVec 8) : (s.failRun c).cause = c := rfl
@[simp] theorem State.failRun_verrmask (c : BitVec 8) : (s.failRun c).verrmask = s.verrmask := rfl
@[simp] theorem State.failRun_ien (c : BitVec 8) : (s.failRun c).ien = s.ien := rfl
@[simp] theorem State.failRun_cfg (c : BitVec 8) : (s.failRun c).cfg = s.cfg := rfl
@[simp] theorem State.failRun_txbits (c : BitVec 8) : (s.failRun c).txbits = s.txbits := rfl
@[simp] theorem State.failRun_run (c : BitVec 8) : (s.failRun c).run = s.run := rfl
@[simp] theorem State.failRun_res (c : BitVec 8) : (s.failRun c).res = Results.absent := rfl
@[simp] theorem State.failRun_work (c : BitVec 8) : (s.failRun c).work = s.work := rfl
@[simp] theorem State.failRun_urng (c : BitVec 8) : (s.failRun c).urng = s.urng := rfl
@[simp] theorem State.failRun_turns (c : BitVec 8) : (s.failRun c).turns = s.turns := rfl
@[simp] theorem State.failRun_rdata (c : BitVec 8) : (s.failRun c).rdata = s.rdata := rfl
@[simp] theorem State.failRun_epoch (c : BitVec 8) : (s.failRun c).epoch = s.epoch := rfl

@[simp] theorem State.raiseValidation_params (m : BitVec 10) (c : BitVec 8) : (s.raiseValidation m c).params = s.params := rfl
@[simp] theorem State.raiseValidation_phase (m : BitVec 10) (c : BitVec 8) : (s.raiseValidation m c).phase = .failed := rfl
@[simp] theorem State.raiseValidation_degen (m : BitVec 10) (c : BitVec 8) : (s.raiseValidation m c).degen = s.degen := rfl
@[simp] theorem State.raiseValidation_snrv (m : BitVec 10) (c : BitVec 8) : (s.raiseValidation m c).snrv = s.snrv := rfl
@[simp] theorem State.raiseValidation_cmderr (m : BitVec 10) (c : BitVec 8) : (s.raiseValidation m c).cmderr = s.cmderr := rfl
@[simp] theorem State.raiseValidation_accerr (m : BitVec 10) (c : BitVec 8) : (s.raiseValidation m c).accerr = s.accerr := rfl
@[simp] theorem State.raiseValidation_cause (m : BitVec 10) (c : BitVec 8) : (s.raiseValidation m c).cause = c := rfl
@[simp] theorem State.raiseValidation_verrmask (m : BitVec 10) (c : BitVec 8) : (s.raiseValidation m c).verrmask = m := rfl
@[simp] theorem State.raiseValidation_ien (m : BitVec 10) (c : BitVec 8) : (s.raiseValidation m c).ien = s.ien := rfl
@[simp] theorem State.raiseValidation_cfg (m : BitVec 10) (c : BitVec 8) : (s.raiseValidation m c).cfg = s.cfg := rfl
@[simp] theorem State.raiseValidation_txbits (m : BitVec 10) (c : BitVec 8) : (s.raiseValidation m c).txbits = s.txbits := rfl
@[simp] theorem State.raiseValidation_run (m : BitVec 10) (c : BitVec 8) : (s.raiseValidation m c).run = s.run := rfl
@[simp] theorem State.raiseValidation_res (m : BitVec 10) (c : BitVec 8) : (s.raiseValidation m c).res = Results.absent := rfl
@[simp] theorem State.raiseValidation_work (m : BitVec 10) (c : BitVec 8) : (s.raiseValidation m c).work = s.work := rfl
@[simp] theorem State.raiseValidation_urng (m : BitVec 10) (c : BitVec 8) : (s.raiseValidation m c).urng = s.urng := rfl
@[simp] theorem State.raiseValidation_turns (m : BitVec 10) (c : BitVec 8) : (s.raiseValidation m c).turns = s.turns := rfl
@[simp] theorem State.raiseValidation_rdata (m : BitVec 10) (c : BitVec 8) : (s.raiseValidation m c).rdata = s.rdata := rfl
@[simp] theorem State.raiseValidation_epoch (m : BitVec 10) (c : BitVec 8) : (s.raiseValidation m c).epoch = s.epoch := rfl

@[simp] theorem State.raiseUnexpected_params (c : BitVec 8) : (s.raiseUnexpected c).params = s.params := rfl
@[simp] theorem State.raiseUnexpected_phase (c : BitVec 8) : (s.raiseUnexpected c).phase = .failed := rfl
@[simp] theorem State.raiseUnexpected_degen (c : BitVec 8) : (s.raiseUnexpected c).degen = s.degen := rfl
@[simp] theorem State.raiseUnexpected_snrv (c : BitVec 8) : (s.raiseUnexpected c).snrv = false := rfl
@[simp] theorem State.raiseUnexpected_cmderr (c : BitVec 8) : (s.raiseUnexpected c).cmderr = s.cmderr := rfl
@[simp] theorem State.raiseUnexpected_accerr (c : BitVec 8) : (s.raiseUnexpected c).accerr = s.accerr := rfl
@[simp] theorem State.raiseUnexpected_cause (c : BitVec 8) : (s.raiseUnexpected c).cause = c := rfl
@[simp] theorem State.raiseUnexpected_verrmask (c : BitVec 8) : (s.raiseUnexpected c).verrmask = s.verrmask := rfl
@[simp] theorem State.raiseUnexpected_ien (c : BitVec 8) : (s.raiseUnexpected c).ien = s.ien := rfl
@[simp] theorem State.raiseUnexpected_cfg (c : BitVec 8) : (s.raiseUnexpected c).cfg = s.cfg := rfl
@[simp] theorem State.raiseUnexpected_txbits (c : BitVec 8) : (s.raiseUnexpected c).txbits = s.txbits := rfl
@[simp] theorem State.raiseUnexpected_run (c : BitVec 8) : (s.raiseUnexpected c).run = s.run := rfl
@[simp] theorem State.raiseUnexpected_res (c : BitVec 8) : (s.raiseUnexpected c).res = Results.absent := rfl
@[simp] theorem State.raiseUnexpected_work (c : BitVec 8) : (s.raiseUnexpected c).work = Work.empty := rfl
@[simp] theorem State.raiseUnexpected_urng (c : BitVec 8) : (s.raiseUnexpected c).urng = s.urng := rfl
@[simp] theorem State.raiseUnexpected_turns (c : BitVec 8) : (s.raiseUnexpected c).turns = s.turns := rfl
@[simp] theorem State.raiseUnexpected_rdata (c : BitVec 8) : (s.raiseUnexpected c).rdata = s.rdata := rfl
@[simp] theorem State.raiseUnexpected_epoch (c : BitVec 8) : (s.raiseUnexpected c).epoch = s.epoch := rfl

@[simp] theorem State.advance_params (p : Phase) : (s.advance p).params = s.params := rfl
@[simp] theorem State.advance_phase (p : Phase) : (s.advance p).phase = p := rfl
@[simp] theorem State.advance_degen (p : Phase) : (s.advance p).degen = s.degen := rfl
@[simp] theorem State.advance_snrv (p : Phase) : (s.advance p).snrv = s.snrv := rfl
@[simp] theorem State.advance_cmderr (p : Phase) : (s.advance p).cmderr = s.cmderr := rfl
@[simp] theorem State.advance_accerr (p : Phase) : (s.advance p).accerr = s.accerr := rfl
@[simp] theorem State.advance_cause (p : Phase) : (s.advance p).cause = s.cause := rfl
@[simp] theorem State.advance_verrmask (p : Phase) : (s.advance p).verrmask = s.verrmask := rfl
@[simp] theorem State.advance_ien (p : Phase) : (s.advance p).ien = s.ien := rfl
@[simp] theorem State.advance_cfg (p : Phase) : (s.advance p).cfg = s.cfg := rfl
@[simp] theorem State.advance_txbits (p : Phase) : (s.advance p).txbits = s.txbits := rfl
@[simp] theorem State.advance_run (p : Phase) : (s.advance p).run = s.run := rfl
@[simp] theorem State.advance_res (p : Phase) : (s.advance p).res = s.res := rfl
@[simp] theorem State.advance_work (p : Phase) : (s.advance p).work = Work.empty := rfl
@[simp] theorem State.advance_urng (p : Phase) : (s.advance p).urng = s.urng := rfl
@[simp] theorem State.advance_turns (p : Phase) : (s.advance p).turns = s.turns := rfl
@[simp] theorem State.advance_rdata (p : Phase) : (s.advance p).rdata = s.rdata := rfl
@[simp] theorem State.advance_epoch (p : Phase) : (s.advance p).epoch = s.epoch := rfl

@[simp] theorem State.startRun_params : s.startRun.params = s.params := rfl
@[simp] theorem State.startRun_phase : s.startRun.phase = .validating := rfl
@[simp] theorem State.startRun_degen : s.startRun.degen = false := rfl
@[simp] theorem State.startRun_snrv : s.startRun.snrv = false := rfl
@[simp] theorem State.startRun_cmderr : s.startRun.cmderr = s.cmderr := rfl
@[simp] theorem State.startRun_accerr : s.startRun.accerr = s.accerr := rfl
@[simp] theorem State.startRun_cause : s.startRun.cause = causeNone := rfl
@[simp] theorem State.startRun_verrmask : s.startRun.verrmask = 0 := rfl
@[simp] theorem State.startRun_ien : s.startRun.ien = s.ien := rfl
@[simp] theorem State.startRun_cfg : s.startRun.cfg = s.cfg := rfl
@[simp] theorem State.startRun_txbits : s.startRun.txbits = s.txbits := rfl
@[simp] theorem State.startRun_run : s.startRun.run = s.cfg := rfl
@[simp] theorem State.startRun_res : s.startRun.res = { Results.absent with runbits := s.latchedBits } := rfl
@[simp] theorem State.startRun_work : s.startRun.work = s.work := rfl
@[simp] theorem State.startRun_urng : s.startRun.urng = s.urng := rfl
@[simp] theorem State.startRun_turns : s.startRun.turns = s.turns := rfl
@[simp] theorem State.startRun_rdata : s.startRun.rdata = s.rdata := rfl
@[simp] theorem State.startRun_epoch : s.startRun.epoch = s.epoch := rfl

@[simp] theorem State.abortRun_params : s.abortRun.params = s.params := rfl
@[simp] theorem State.abortRun_phase : s.abortRun.phase = .idle := rfl
@[simp] theorem State.abortRun_degen : s.abortRun.degen = s.degen := rfl
@[simp] theorem State.abortRun_snrv : s.abortRun.snrv = false := rfl
@[simp] theorem State.abortRun_cmderr : s.abortRun.cmderr = s.cmderr := rfl
@[simp] theorem State.abortRun_accerr : s.abortRun.accerr = s.accerr := rfl
@[simp] theorem State.abortRun_cause : s.abortRun.cause = causeAborted := rfl
@[simp] theorem State.abortRun_verrmask : s.abortRun.verrmask = s.verrmask := rfl
@[simp] theorem State.abortRun_ien : s.abortRun.ien = s.ien := rfl
@[simp] theorem State.abortRun_cfg : s.abortRun.cfg = s.cfg := rfl
@[simp] theorem State.abortRun_txbits : s.abortRun.txbits = s.txbits := rfl
@[simp] theorem State.abortRun_run : s.abortRun.run = s.run := rfl
@[simp] theorem State.abortRun_res : s.abortRun.res = Results.absent := rfl
@[simp] theorem State.abortRun_work : s.abortRun.work = Work.empty := rfl
@[simp] theorem State.abortRun_urng : s.abortRun.urng = s.urng := rfl
@[simp] theorem State.abortRun_turns : s.abortRun.turns = s.turns := rfl
@[simp] theorem State.abortRun_rdata : s.abortRun.rdata = s.rdata := rfl
@[simp] theorem State.abortRun_epoch : s.abortRun.epoch = s.epoch := rfl

@[simp] theorem State.clearAll_params : s.clearAll.params = s.params := rfl
@[simp] theorem State.clearAll_phase : s.clearAll.phase = .idle := rfl
@[simp] theorem State.clearAll_degen : s.clearAll.degen = false := rfl
@[simp] theorem State.clearAll_snrv : s.clearAll.snrv = false := rfl
@[simp] theorem State.clearAll_cmderr : s.clearAll.cmderr = false := rfl
@[simp] theorem State.clearAll_accerr : s.clearAll.accerr = false := rfl
@[simp] theorem State.clearAll_cause : s.clearAll.cause = causeNone := rfl
@[simp] theorem State.clearAll_verrmask : s.clearAll.verrmask = 0 := rfl
@[simp] theorem State.clearAll_ien : s.clearAll.ien = s.ien := rfl
@[simp] theorem State.clearAll_cfg : s.clearAll.cfg = s.cfg := rfl
@[simp] theorem State.clearAll_txbits : s.clearAll.txbits = s.txbits := rfl
@[simp] theorem State.clearAll_run : s.clearAll.run = s.run := rfl
@[simp] theorem State.clearAll_res : s.clearAll.res = Results.absent := rfl
@[simp] theorem State.clearAll_work : s.clearAll.work = s.work := rfl
@[simp] theorem State.clearAll_urng : s.clearAll.urng = s.urng := rfl
@[simp] theorem State.clearAll_turns : s.clearAll.turns = s.turns := rfl
@[simp] theorem State.clearAll_rdata : s.clearAll.rdata = s.rdata := rfl
@[simp] theorem State.clearAll_epoch : s.clearAll.epoch = s.epoch := rfl

@[simp] theorem State.flagDegen_params : s.flagDegen.params = s.params := rfl
@[simp] theorem State.flagDegen_phase : s.flagDegen.phase = s.phase := rfl
@[simp] theorem State.flagDegen_degen : s.flagDegen.degen = (s.degen || !s.power.isPos) := rfl
@[simp] theorem State.flagDegen_snrv : s.flagDegen.snrv = s.snrv := rfl
@[simp] theorem State.flagDegen_cmderr : s.flagDegen.cmderr = s.cmderr := rfl
@[simp] theorem State.flagDegen_accerr : s.flagDegen.accerr = s.accerr := rfl
@[simp] theorem State.flagDegen_cause : s.flagDegen.cause = s.cause := rfl
@[simp] theorem State.flagDegen_verrmask : s.flagDegen.verrmask = s.verrmask := rfl
@[simp] theorem State.flagDegen_ien : s.flagDegen.ien = s.ien := rfl
@[simp] theorem State.flagDegen_cfg : s.flagDegen.cfg = s.cfg := rfl
@[simp] theorem State.flagDegen_txbits : s.flagDegen.txbits = s.txbits := rfl
@[simp] theorem State.flagDegen_run : s.flagDegen.run = s.run := rfl
@[simp] theorem State.flagDegen_res : s.flagDegen.res = s.res := rfl
@[simp] theorem State.flagDegen_work : s.flagDegen.work = s.work := rfl
@[simp] theorem State.flagDegen_urng : s.flagDegen.urng = s.urng := rfl
@[simp] theorem State.flagDegen_turns : s.flagDegen.turns = s.turns := rfl
@[simp] theorem State.flagDegen_rdata : s.flagDegen.rdata = s.rdata := rfl
@[simp] theorem State.flagDegen_epoch : s.flagDegen.epoch = s.epoch := rfl

@[simp] theorem State.afterReset_params : s.afterReset.params = s.params := rfl
@[simp] theorem State.afterReset_phase : s.afterReset.phase = State.reset.phase := rfl
@[simp] theorem State.afterReset_degen : s.afterReset.degen = State.reset.degen := rfl
@[simp] theorem State.afterReset_snrv : s.afterReset.snrv = State.reset.snrv := rfl
@[simp] theorem State.afterReset_cmderr : s.afterReset.cmderr = State.reset.cmderr := rfl
@[simp] theorem State.afterReset_accerr : s.afterReset.accerr = State.reset.accerr := rfl
@[simp] theorem State.afterReset_cause : s.afterReset.cause = State.reset.cause := rfl
@[simp] theorem State.afterReset_verrmask : s.afterReset.verrmask = State.reset.verrmask := rfl
@[simp] theorem State.afterReset_ien : s.afterReset.ien = State.reset.ien := rfl
@[simp] theorem State.afterReset_cfg : s.afterReset.cfg = State.reset.cfg := rfl
@[simp] theorem State.afterReset_txbits : s.afterReset.txbits = State.reset.txbits := rfl
@[simp] theorem State.afterReset_run : s.afterReset.run = State.reset.run := rfl
@[simp] theorem State.afterReset_res : s.afterReset.res = State.reset.res := rfl
@[simp] theorem State.afterReset_work : s.afterReset.work = State.reset.work := rfl
@[simp] theorem State.afterReset_urng : s.afterReset.urng = s.urng := rfl
@[simp] theorem State.afterReset_turns : s.afterReset.turns = s.turns := rfl
@[simp] theorem State.afterReset_rdata : s.afterReset.rdata = State.reset.rdata := rfl
@[simp] theorem State.afterReset_epoch : s.afterReset.epoch = s.epoch + 1 := rfl

end

end Sys2Proof.Machine
end

