-- ==== Sys2Proof/Laws/Ops.lean ====
section
/-! SUPPORT. What each shared operation can do: TXBITS, the address map, draws and the loops that draw. -/
namespace Sys2Proof.Machine

/-! ### TXBITS -/

theorem Memory.get?_set_same (m : Memory) (a : Nat) (b : Byte) : Memory.get? (Memory.set m a b) a = some b := by
  induction m with
  | nil => simp [Memory.set, Memory.get?]
  | cons c m ih =>
    simp only [Memory.set]
    split
    · simp [Memory.get?]
    · split
      · simp [Memory.get?]
      · rename_i h1 h2
        simp [Memory.get?, Ne.symm h2, ih]

theorem Memory.get?_set_other (m : Memory) {a i : Nat} (b : Byte) (h : i ≠ a) :
    Memory.get? (Memory.set m a b) i = Memory.get? m i := by
  induction m with
  | nil => simp [Memory.set, Memory.get?, Ne.symm h]
  | cons c m ih =>
    simp only [Memory.set]
    split
    · simp [Memory.get?, Ne.symm h]
    · split
      · rename_i h1 h2
        simp [Memory.get?, Ne.symm h, ← h2]
      · simp [Memory.get?, ih]

theorem Memory.mem_set {m : Memory} {a : Nat} {b : Byte} {c : Host.Cell} (h : c ∈ Memory.set m a b) :
    c = (a, b) ∨ c ∈ m := by
  induction m with
  | nil => simpa [Memory.set] using h
  | cons d m ih =>
    simp only [Memory.set] at h
    split at h
    · simpa using h
    · split at h
      · rcases List.mem_cons.1 h with h | h
        · exact .inl h
        · exact .inr (List.mem_cons_of_mem _ h)
      · rcases List.mem_cons.1 h with h | h
        · exact .inr (h ▸ List.mem_cons_self)
        · rcases ih h with h | h
          · exact .inl h
          · exact .inr (List.mem_cons_of_mem _ h)

theorem Memory.wf_cons {c : Host.Cell} {m : Memory} :
    Memory.wf (c :: m) = true ↔ (∀ d ∈ m.head?, c.1 < d.1) ∧ Memory.wf m = true := by
  cases m with
  | nil => simp [Memory.wf]
  | cons d m => simp [Memory.wf]

theorem Memory.head?_set (m : Memory) (a : Nat) (b : Byte) :
    ∀ d ∈ (Memory.set m a b).head?, d.1 = a ∨ d ∈ m.head? := by
  cases m with
  | nil => simp [Memory.set]
  | cons c m =>
    simp only [Memory.set]
    split
    · simp
    · split <;> simp

theorem Memory.wf_set {m : Memory} (a : Nat) (b : Byte) (h : Memory.wf m = true) : Memory.wf (Memory.set m a b) = true := by
  induction m with
  | nil => rfl
  | cons c m ih =>
    obtain ⟨h1, h2⟩ := Memory.wf_cons.1 h
    simp only [Memory.set]
    split
    · rename_i h3
      exact Memory.wf_cons.2 ⟨by simpa using h3, h⟩
    · split
      · rename_i h3 h4
        exact Memory.wf_cons.2 ⟨by simpa [h4] using h1, h2⟩
      · rename_i h3 h4
        refine Memory.wf_cons.2 ⟨fun d hd => ?_, ih h2⟩
        rcases Memory.head?_set m a b d hd with e | e
        · omega
        · exact h1 d e

theorem Memory.wf_reset : Memory.wf State.reset.txbits = true := rfl

theorem State.txRead_store_same (s : State) (a : Nat) (b : Byte) :
    ({ s with txbits := Memory.set s.txbits a b } : State).txRead a = b := by
  simp [State.txRead, Memory.get?_set_same]

theorem State.txRead_store_other (s : State) {a i : Nat} (b : Byte) (h : i ≠ a) :
    ({ s with txbits := Memory.set s.txbits a b } : State).txRead i = s.txRead i := by
  simp [State.txRead, Memory.get?_set_other _ _ h]

theorem State.txRead_congr {s t : State} (h : t.txbits = s.txbits) (e : t.epoch = s.epoch) (i : Nat) :
    t.txRead i = s.txRead i := by
  simp [State.txRead, h, e]

/-! ### The address map -/

theorem Reg.ofIndex_index (r : Reg) : Reg.ofIndex r.index = some r := by cases r <;> rfl

theorem Reg.mem_all (r : Reg) : r ∈ Reg.all := by cases r <;> decide

theorem Reg.index_of_ofIndex {idx : BitVec 16} {r : Reg} (h : Reg.ofIndex idx = some r) : r.index = idx := by
  have := List.find?_some h
  simpa using this

theorem Reg.ofIndex_none {idx : BitVec 16} : Reg.ofIndex idx = none ↔ ∀ r : Reg, r.index ≠ idx := by
  constructor
  · intro h r e
    rw [← e, Reg.ofIndex_index] at h
    cases h
  · intro h
    cases e : Reg.ofIndex idx with
    | none => rfl
    | some r => exact absurd (Reg.index_of_ofIndex e) (h r)

theorem Space.ofId_id (sp : Space) : Space.ofId sp.id = some sp := by cases sp <;> rfl

theorem Space.ofId_none (id : BitVec 4) : Space.ofId id = none ↔ 8 ≤ id.toNat := by
  revert id
  decide

/-! ### Draws -/

theorem Urng.value_zero (u : Urng) : u.value 0 = u.draw.1 := by
  unfold Urng.value Urng.draw
  cases u.next <;> simp

theorem Urng.after_one (u : Urng) : u.after 1 = u.draw.2 := by
  obtain ⟨pos, next⟩ := u
  cases next <;> simp [Urng.after, Urng.draw]

@[simp] theorem Urng.after_zero (u : Urng) : u.after 0 = u := by
  obtain ⟨pos, next⟩ := u
  simp [Urng.after]

theorem Urng.after_after (u : Urng) (j k : Nat) : (u.after j).after k = u.after (j + k) := by
  simp [Urng.after, Nat.add_assoc]

theorem Urng.value_after (u : Urng) (j k : Nat) : (u.after j).value k = u.value (j + k) := by
  simp [Urng.after, Urng.value, Nat.add_assoc]

@[simp] theorem Urng.after_pos (u : Urng) (k : Nat) : (u.after k).pos = u.pos + k := rfl

theorem Urng.take_eq (u : Urng) :
    u.take = if inUnit (u.value 0) then .ok (u.value 0, u.after 1) else .error (causeRngRange, u.after 1) := by
  unfold Urng.take
  rw [Urng.value_zero, Urng.after_one]

/-- A draw passes exactly when it is a real number between 0 and 1 (R157). -/
theorem inUnit_iff (x : RNum) : inUnit x = true ↔ x.finite = true ∧ 0 < x.val ∧ x.val < 1 := by
  simp [inUnit, RNum.isPos_iff, RNum.val_minus, RNum.val, and_assoc]

/-- The Box–Muller value of two draws in (0,1) is a real number, however close to 0 or 1 they are (R156, R160). -/
theorem gauss_finite {u1 u2 : RNum} (h1 : inUnit u1 = true) (h2 : inUnit u2 = true) : (gauss u1 u2).finite = true := by
  obtain ⟨f1, p1, q1⟩ := (inUnit_iff u1).1 h1
  have f2 := ((inUnit_iff u2).1 h2).1
  have l : 0 ≤ -2 * Real.log u1.val := by linarith [Real.log_nonpos p1.le q1.le]
  simp only [gauss, RNum.finite_times, RNum.finite_cosine, Bool.and_eq_true, RNum.finite_root_iff, RNum.finite_log_iff,
    RNum.val_times, RNum.val_log, f1, f2, p1, RNum.finite, RNum.val, true_and, and_true]
  exact_mod_cast l

/-- The noise loop with all its draws in (0,1) and all its samples real (R152, R156). -/
theorem noiseLoop_ok (sigma : RNum) (xs : List RNum) (u : Urng) (h : ∀ k, k < 2 * xs.length → inUnit (u.value k) = true)
    (f : ∀ x ∈ xs, x.finite = true) :
    noiseLoop sigma xs u = .ok
      (xs.mapIdx (fun j x => RNum.plus x (RNum.times sigma (gauss (u.value (2 * j)) (u.value (2 * j + 1))))),
        u.after (2 * xs.length)) := by
  induction xs generalizing u with
  | nil => simp [noiseLoop]
  | cons x xs ih =>
    have h0 := h 0 (by simp)
    have h1 := h 1 (by simp; omega)
    have g0 := gauss_finite h0 h1
    have x0 := f x (by simp)
    have e := ih (u.after 2) (fun k hk => by rw [Urng.value_after]; exact h _ (by simp; omega))
      (fun y hy => f y (List.mem_cons_of_mem _ hy))
    have v1 : (u.after 1).value 0 = u.value 1 := by rw [Urng.value_after]
    simp only [noiseLoop, Urng.take_eq, h0, v1, h1, x0, g0, if_true, Urng.after_after, Bool.and_self, e, List.mapIdx_cons,
      List.length_cons, Urng.value_after, Nat.mul_zero, Nat.zero_add]
    congr 3
    · congr 1
      funext j y
      congr 4 <;> ring
    · ring

/-- The noise loop stops at its first draw outside (0,1) (R157). -/
theorem noiseLoop_range (sigma : RNum) (xs : List RNum) (u : Urng) {k : Nat} (hk : k < 2 * xs.length)
    (h : ∀ j, j < k → inUnit (u.value j) = true) (b : inUnit (u.value k) = false)
    (f : ∀ x ∈ xs, x.finite = true) :
    noiseLoop sigma xs u = .error (causeRngRange, u.after (k + 1)) := by
  induction xs generalizing u k with
  | nil => simp at hk
  | cons x xs ih =>
    have x0 := f x (by simp)
    have v1 : (u.after 1).value 0 = u.value 1 := by rw [Urng.value_after]
    match k, hk, h, b with
    | 0, _, _, b => simp [noiseLoop, Urng.take_eq, b]
    | 1, _, h, b => simp [noiseLoop, Urng.take_eq, h 0 (by omega), v1, b, Urng.after_after]
    | k + 2, hk, h, b =>
      have g0 := gauss_finite (h 0 (by omega)) (h 1 (by omega))
      have e := ih (u.after 2) (k := k) (by simp at hk; omega)
        (fun j hj => by rw [Urng.value_after]; exact h _ (by omega))
        (by rw [Urng.value_after, Nat.add_comm]; exact b) (fun y hy => f y (List.mem_cons_of_mem _ hy))
      simp only [noiseLoop, Urng.take_eq, h 0 (by omega), v1, h 1 (by omega), x0, g0, if_true, Urng.after_after,
        Bool.and_self, e]
      congr 3
      ring

/-- What the noise loop leaves when it ends well (R152, R156). -/
theorem noiseLoop_spec {sigma : RNum} {xs ys : List RNum} {u v : Urng} (s : sigma.finite = true)
    (e : noiseLoop sigma xs u = .ok (ys, v)) :
    ys.length = xs.length ∧ v = u.after (2 * xs.length) ∧ ys.all RNum.finite = true := by
  induction xs generalizing u ys v with
  | nil =>
    simp only [noiseLoop, Except.ok.injEq, Prod.mk.injEq] at e
    obtain ⟨rfl, rfl⟩ := e
    simp
  | cons x xs ih =>
    simp only [noiseLoop, Urng.take_eq] at e
    split at e
    · cases e
    · rename_i e1
      split at e1
      · cases e1
        split at e
        · cases e
        · rename_i e2
          split at e2
          · cases e2
            split at e
            · rename_i fin
              split at e
              · rename_i ys' v' e3
                cases e
                obtain ⟨l, p, q⟩ := ih e3
                simp only [Bool.and_eq_true] at fin
                refine ⟨by simp [l], ?_, ?_⟩
                · rw [p, Urng.after_after, Urng.after_after]; congr 1; simp only [List.length_cons]; ring
                · simp [fin.1, fin.2, s]
                  simpa using q
              · cases e
            · cases e
          · cases e2
      · cases e1

/-- Where the noise loop stops, and why: at a draw outside (0,1), or at a sample that is not a real number (R157, R263). -/
theorem noiseLoop_error {sigma : RNum} {xs : List RNum} {u v : Urng} {c : BitVec 8}
    (e : noiseLoop sigma xs u = .error (c, v)) :
    (c = causeRngRange ∨ c = causeNonfinite ∧ ∃ x ∈ xs, x.finite = false) ∧ ∃ k, v = u.after k := by
  induction xs generalizing u with
  | nil => cases e
  | cons x xs ih =>
    simp only [noiseLoop, Urng.take_eq] at e
    split at e
    · rename_i e1
      split at e1 <;> cases e1
      cases e
      exact ⟨.inl rfl, 1, rfl⟩
    · rename_i e0
      split at e0 <;> cases e0
      rename_i d0
      split at e
      · rename_i e1
        split at e1 <;> cases e1
        cases e
        exact ⟨.inl rfl, 2, by rw [Urng.after_after]⟩
      · rename_i e1
        split at e1 <;> cases e1
        rename_i d1
        split at e
        · split at e
          · cases e
          · rename_i e3
            cases e
            obtain ⟨a, k, b⟩ := ih e3
            refine ⟨a.imp_right fun h => ⟨h.1, ?_⟩, 1 + (1 + k), by rw [b, Urng.after_after, Urng.after_after]⟩
            obtain ⟨y, hy, f⟩ := h.2
            exact ⟨y, List.mem_cons_of_mem _ hy, f⟩
        · rename_i f
          cases e
          rw [gauss_finite d0 d1, Bool.and_true, Bool.not_eq_true] at f
          exact ⟨.inr ⟨rfl, x, List.mem_cons_self, f⟩, 2, by rw [Urng.after_after]⟩

/-- A received point is real when its ideal point, the dispersion and the draws are (R192, R196). -/
theorem received_finite {g a b : RNum} {d : Ideal} (gf : g.finite = true) (df : d.sent.finite = true) (ha : inUnit a = true)
    (hb : inUnit b = true) : (d.received (RNum.times g (.jit a)) (RNum.times g (.jit b))).finite = true := by
  simp only [Point.finite, Ideal.sent, Bool.and_eq_true] at df
  simp [Point.finite, Ideal.received, df.1, df.2, gf, RNum.finite, ((inUnit_iff a).1 ha).1, ((inUnit_iff b).1 hb).1]

/-- The received points with all draws in (0,1) and all coordinates real (R192, R197). -/
theorem jitterLoop_ok (g : RNum) (ds : List Ideal) (u : Urng) (h : ∀ k, k < 2 * ds.length → inUnit (u.value k) = true)
    (gf : g.finite = true) (f : ∀ d ∈ ds, d.sent.finite = true) :
    jitterLoop g ds u = .ok
      (ds.mapIdx (fun j d => d.received (RNum.times g (.jit (u.value (2 * j)))) (RNum.times g (.jit (u.value (2 * j + 1))))),
        u.after (2 * ds.length)) := by
  induction ds generalizing u with
  | nil => simp [jitterLoop]
  | cons d ds ih =>
    have h0 := h 0 (by simp)
    have h1 := h 1 (by simp; omega)
    have d0 := f d (by simp)
    have r0 := received_finite gf d0 h0 h1
    have e := ih (u.after 2) (fun k hk => by rw [Urng.value_after]; exact h _ (by simp; omega))
      (fun y hy => f y (List.mem_cons_of_mem _ hy))
    have v1 : (u.after 1).value 0 = u.value 1 := by rw [Urng.value_after]
    simp only [jitterLoop, Urng.take_eq, h0, v1, h1, d0, r0, if_true, Urng.after_after, e, List.mapIdx_cons,
      List.length_cons, Urng.value_after, Nat.mul_zero, Nat.zero_add]
    congr 3
    · congr 1
      funext j y
      congr 4 <;> ring
    · ring

/-- The received points stop at the first draw outside (0,1) (R157, R192). -/
theorem jitterLoop_range (g : RNum) (ds : List Ideal) (u : Urng) {k : Nat} (hk : k < 2 * ds.length)
    (h : ∀ j, j < k → inUnit (u.value j) = true) (b : inUnit (u.value k) = false)
    (gf : g.finite = true) (f : ∀ d ∈ ds, d.sent.finite = true) :
    jitterLoop g ds u = .error (causeRngRange, u.after (k + 1)) := by
  induction ds generalizing u k with
  | nil => simp at hk
  | cons d ds ih =>
    have d0 := f d (by simp)
    have v1 : (u.after 1).value 0 = u.value 1 := by rw [Urng.value_after]
    match k, hk, h, b with
    | 0, _, _, b => simp [jitterLoop, Urng.take_eq, b, d0]
    | 1, _, h, b => simp [jitterLoop, Urng.take_eq, h 0 (by omega), v1, b, Urng.after_after, d0]
    | k + 2, hk, h, b =>
      have h0 := h 0 (by omega)
      have h1 := h 1 (by omega)
      have r0 := received_finite gf d0 h0 h1
      have e := ih (u.after 2) (k := k) (by simp at hk; omega)
        (fun j hj => by rw [Urng.value_after]; exact h _ (by omega))
        (by rw [Urng.value_after, Nat.add_comm]; exact b) (fun y hy => f y (List.mem_cons_of_mem _ hy))
      simp only [jitterLoop, Urng.take_eq, h0, v1, h1, d0, r0, if_true, Urng.after_after, e]
      congr 3
      ring

/-- What the received points are when the loop ends well: those of their symbols, with real coordinates (R192, R197). -/
theorem jitterLoop_spec {g : RNum} {ds : List Ideal} {ps : List Point} {u v : Urng} (e : jitterLoop g ds u = .ok (ps, v)) :
    ps.length = ds.length ∧ v = u.after (2 * ds.length) ∧ ps.all Point.finite = true ∧
      ps.map Point.err = ds.map (fun d => (BitVec.ofBool d.err).setWidth 32) ∧ ps.map Point.sym = ds.map Ideal.sym := by
  induction ds generalizing u ps v with
  | nil =>
    simp only [jitterLoop, Except.ok.injEq, Prod.mk.injEq] at e
    obtain ⟨rfl, rfl⟩ := e
    simp
  | cons d ds ih =>
    simp only [jitterLoop, Urng.take_eq] at e
    split at e
    · split at e
      · cases e
      · rename_i e1
        split at e1
        · cases e1
          split at e
          · cases e
          · rename_i e2
            split at e2
            · cases e2
              split at e
              · rename_i fin
                split at e
                · rename_i ps' v' e3
                  cases e
                  obtain ⟨l, p, q, a, b⟩ := ih e3
                  refine ⟨by simp [l], ?_, ?_, ?_, ?_⟩
                  · rw [p, Urng.after_after, Urng.after_after]; congr 1; simp only [List.length_cons]; ring
                  · rw [List.all_cons, fin, q]; rfl
                  · rw [List.map_cons, a]; rfl
                  · rw [List.map_cons, b]; rfl
                · cases e
              · cases e
            · cases e2
        · cases e1
    · cases e

/-- Where the received points stop, and why: at a draw outside (0,1), or at a point that is not of real numbers (R157,
R263). -/
theorem jitterLoop_error {g : RNum} {ds : List Ideal} {u v : Urng} {c : BitVec 8}
    (e : jitterLoop g ds u = .error (c, v)) :
    (c = causeRngRange ∨ c = causeNonfinite ∧ (g.finite = true → ∃ d ∈ ds, d.sent.finite = false)) ∧
      ∃ k, v = u.after k := by
  induction ds generalizing u with
  | nil => cases e
  | cons d ds ih =>
    simp only [jitterLoop, Urng.take_eq] at e
    split at e
    · rename_i f
      split at e
      · rename_i e1
        split at e1 <;> cases e1
        cases e
        exact ⟨.inl rfl, 1, rfl⟩
      · rename_i e0
        split at e0 <;> cases e0
        rename_i d0
        split at e
        · rename_i e1
          split at e1 <;> cases e1
          cases e
          exact ⟨.inl rfl, 2, by rw [Urng.after_after]⟩
        · rename_i e1
          split at e1 <;> cases e1
          rename_i d1
          split at e
          · split at e
            · cases e
            · rename_i e3
              cases e
              obtain ⟨a, k, b⟩ := ih e3
              refine ⟨a.imp_right fun h => ⟨h.1, fun gf => ?_⟩, 1 + (1 + k), by rw [b, Urng.after_after, Urng.after_after]⟩
              obtain ⟨y, hy, f'⟩ := h.2 gf
              exact ⟨y, List.mem_cons_of_mem _ hy, f'⟩
          · rename_i f'
            cases e
            exact ⟨.inr ⟨rfl, fun gf => absurd (received_finite gf f d0 d1) f'⟩, 2, by rw [Urng.after_after]⟩
    · rename_i f
      cases e
      exact ⟨.inr ⟨rfl, fun _ => ⟨d, List.mem_cons_self, by simpa using f⟩⟩, 0, by simp⟩

/-- The noise loop depends on the stream only through its values (R46, R242). -/
theorem noiseLoop_congr (sigma : RNum) (xs : List RNum) (u v : Urng) (h : ∀ k, u.value k = v.value k) :
    (∃ ys k, noiseLoop sigma xs u = .ok (ys, u.after k) ∧ noiseLoop sigma xs v = .ok (ys, v.after k)) ∨
    (∃ c k, noiseLoop sigma xs u = .error (c, u.after k) ∧ noiseLoop sigma xs v = .error (c, v.after k)) := by
  induction xs generalizing u v with
  | nil => exact .inl ⟨[], 0, by simp [noiseLoop], by simp [noiseLoop]⟩
  | cons x xs ih =>
    have h1 : (u.after 1).value 0 = (v.after 1).value 0 := by rw [Urng.value_after, Urng.value_after]; exact h _
    simp only [noiseLoop, Urng.take_eq, h 0]
    by_cases a : inUnit (v.value 0) = true
    · simp only [a, if_true]
      by_cases b : inUnit ((v.after 1).value 0) = true
      · simp only [h1, b, if_true]
        by_cases c : (x.finite && (gauss (v.value 0) ((v.after 1).value 0)).finite) = true
        · simp only [c, if_true]
          have h2 : ∀ k, ((u.after 1).after 1).value k = ((v.after 1).after 1).value k := by
            intro k; simp only [Urng.value_after]; exact h _
          rcases ih ((u.after 1).after 1) ((v.after 1).after 1) h2 with ⟨ys, k, p, q⟩ | ⟨e, k, p, q⟩
          · left
            exact ⟨RNum.plus x (RNum.times sigma (gauss (v.value 0) ((v.after 1).value 0))) :: ys, 2 + k,
                by rw [p]; simp [Urng.after_after], by rw [q]; simp [Urng.after_after]⟩
          · right; exact ⟨e, 2 + k, by rw [p]; simp [Urng.after_after], by rw [q]; simp [Urng.after_after]⟩
        · simp only [c]
          right; exact ⟨causeNonfinite, 2, by simp [Urng.after_after], by simp [Urng.after_after]⟩
      · simp only [h1, b]
        right; exact ⟨causeRngRange, 2, by simp [Urng.after_after], by simp [Urng.after_after]⟩
    · simp only [a]
      right; exact ⟨causeRngRange, 1, by simp, by simp⟩

/-- The received points depend on the stream only through its values (R46, R242). -/
theorem jitterLoop_congr (g : RNum) (xs : List Ideal) (u v : Urng) (h : ∀ k, u.value k = v.value k) :
    (∃ ys k, jitterLoop g xs u = .ok (ys, u.after k) ∧ jitterLoop g xs v = .ok (ys, v.after k)) ∨
    (∃ c k, jitterLoop g xs u = .error (c, u.after k) ∧ jitterLoop g xs v = .error (c, v.after k)) := by
  induction xs generalizing u v with
  | nil => exact .inl ⟨[], 0, by simp [jitterLoop], by simp [jitterLoop]⟩
  | cons x xs ih =>
    have h1 : (u.after 1).value 0 = (v.after 1).value 0 := by rw [Urng.value_after, Urng.value_after]; exact h _
    simp only [jitterLoop, Urng.take_eq, h 0]
    by_cases f : x.sent.finite = true
    · simp only [f, if_true]
      by_cases a : inUnit (v.value 0) = true
      · simp only [a, if_true]
        by_cases b : inUnit ((v.after 1).value 0) = true
        · simp only [h1, b, if_true]
          by_cases c : (x.received (RNum.times g (.jit (v.value 0))) (RNum.times g (.jit ((v.after 1).value 0)))).finite = true
          · simp only [c, if_true]
            have h2 : ∀ k, ((u.after 1).after 1).value k = ((v.after 1).after 1).value k := by
              intro k; simp only [Urng.value_after]; exact h _
            rcases ih ((u.after 1).after 1) ((v.after 1).after 1) h2 with ⟨ys, k, p, q⟩ | ⟨e, k, p, q⟩
            · left
              exact ⟨x.received (RNum.times g (.jit (v.value 0))) (RNum.times g (.jit ((v.after 1).value 0))) :: ys, 2 + k,
                by rw [p]; simp [Urng.after_after], by rw [q]; simp [Urng.after_after]⟩
            · right; exact ⟨e, 2 + k, by rw [p]; simp [Urng.after_after], by rw [q]; simp [Urng.after_after]⟩
          · simp only [c]
            right; exact ⟨causeNonfinite, 2, by simp [Urng.after_after], by simp [Urng.after_after]⟩
        · simp only [h1, b]
          right; exact ⟨causeRngRange, 2, by simp [Urng.after_after], by simp [Urng.after_after]⟩
      · simp only [a]
        right; exact ⟨causeRngRange, 1, by simp, by simp⟩
    · simp only [f]
      right; exact ⟨causeNonfinite, 0, by simp, by simp⟩

end Sys2Proof.Machine
end

