-- ==== Sys2Proof/Laws/Step.lean ====
section
/-! SUPPORT. What a step and a run of several steps are. -/
namespace Sys2Proof.Machine

theorem run_zero (s : State) : Host.Core.run Sys2Proof.core 0 s = .next s := rfl

theorem run_succ (k : Nat) (s : State) :
    Host.Core.run Sys2Proof.core (k + 1) s =
      match step s with
      | .next t => Host.Core.run Sys2Proof.core k t
      | .fault r => .fault r
      | .refused r => .refused r := by
  refine (Host.Core.run.eq_2 Sys2Proof.core s k).trans ?_
  have e : Host.Core.step Sys2Proof.core s = step s := rfl
  rw [e]
  cases step s <;> rfl

theorem run_next {s t : State} (h : step s = .next t) (k : Nat) :
    Host.Core.run Sys2Proof.core (k + 1) s = Host.Core.run Sys2Proof.core k t := by
  rw [run_succ, h]

/-- A longer run that goes on has its first step go on. -/
theorem run_succ_next {k : Nat} {s t : State} (h : Host.Core.run Sys2Proof.core (k + 1) s = .next t) :
    ∃ u, step s = .next u ∧ Host.Core.run Sys2Proof.core k u = .next t := by
  rw [run_succ] at h
  split at h
  · exact ⟨_, by assumption, h⟩
  · cases h
  · cases h

theorem State.fetch_none {s : State} (h : s.turns = []) : s.fetch = (s.sequencerCode, s) := by simp [State.fetch, h]

/-- With no turn listed and no run in flight a step changes nothing (R238). -/
theorem step_rest {s : State} (h : s.turns = []) (b : s.busy = false) : step s = .next s := by
  simp [step, State.fetch, h, State.sequencerCode, b]

/-- With no turn listed a run in flight takes its stage (R95). -/
theorem step_stage {s : State} (h : s.turns = []) (b : s.busy = true) : step s = runCode (.stage s.selector) s := by
  simp [step, State.fetch, h, State.sequencerCode, b]

/-- The sequencer's turn is a step with no turn listed (R20). -/
theorem step_sequencer {s : State} {ts : List Turn} (h : s.turns = .sequencer :: ts) :
    step s = if s.busy then runCode (.stage s.selector) { s with turns := ts } else .next { s with turns := ts } := by
  simp only [step, State.fetch, h, State.sequencerCode]
  cases s.busy <;> rfl

/-- The operation of each busy phase (R96). -/
theorem runCode_stage (s : State) :
    runCode (.stage s.selector) s =
      match s.phase, s.run.modtype.getLsbD 0 with
      | .validating, _ => execValidate s
      | .generating, _ => execGenerate s
      | .modulating, false => execModBpsk s
      | .modulating, true => execModQpsk s
      | .noiseInjection, _ => execNoise s
      | .demodulating, false => execDemodBpsk s
      | .demodulating, true => execDemodQpsk s
      | .mapping, false => execMapBpsk s
      | .mapping, true => execMapQpsk s
      | .computing, false => execBerBpsk s
      | .computing, true => execBerQpsk s
      | .idle, _ => .next s
      | .done, _ => .next s
      | .failed, _ => .next s := by
  rw [State.selector]
  cases s.phase <;> cases s.run.modtype.getLsbD 0 <;> rfl

theorem State.selector_turns (s : State) (ts : List Turn) : ({ s with turns := ts } : State).selector = s.selector := rfl

theorem Phase.busy_iff (p : Phase) : p.busy = false ↔ p = .idle ∨ p = .done ∨ p = .failed := by cases p <;> decide

/-- Everything a step can be. -/
theorem step_cases (s : State) :
    (s.turns = [] ∧ s.busy = false ∧ step s = .next s) ∨
    (s.turns = [] ∧ s.busy = true ∧ step s = runCode (.stage s.selector) s) ∨
    ∃ ts, (s.turns = .sequencer :: ts ∧ s.busy = false ∧ step s = .next { s with turns := ts }) ∨
      (s.turns = .sequencer :: ts ∧ s.busy = true ∧
        step s = runCode (.stage ({ s with turns := ts } : State).selector) { s with turns := ts }) ∨
      (∃ w, s.turns = .command w :: ts ∧ step s = runCode (.cmd w) { s with turns := ts }) ∨
      (∃ h i v, s.turns = .bus h i v :: ts ∧ step s = runCode (.bus h i v) { s with turns := ts }) ∨
      (s.turns = .reset :: ts ∧ step s = .next ({ s with turns := ts } : State).afterReset) := by
  rcases h : s.turns with _ | ⟨u, ts⟩
  · cases b : s.busy
    · exact .inl ⟨rfl, rfl, step_rest h b⟩
    · exact .inr (.inl ⟨rfl, rfl, step_stage h b⟩)
  · refine .inr (.inr ⟨ts, ?_⟩)
    cases u with
    | sequencer =>
      cases b : s.busy
      · exact .inl ⟨rfl, rfl, by rw [step_sequencer h, b]; rfl⟩
      · exact .inr (.inl ⟨rfl, rfl, by rw [step_sequencer h, b]; rfl⟩)
    | command w => exact .inr (.inr (.inl ⟨w, rfl, by simp [step, State.fetch, h]⟩))
    | bus x i v => exact .inr (.inr (.inr (.inl ⟨x, i, v, rfl, by simp [step, State.fetch, h]⟩)))
    | reset => exact .inr (.inr (.inr (.inr ⟨rfl, by simp [step, State.fetch, h]⟩)))

end Sys2Proof.Machine
end

