-- ==== Sys2Proof/Laws/Exec.lean ====
section
/-! SUPPORT. Everything the meaning of a stage, and an operation of the host, can do. -/
namespace Sys2Proof.Machine

/-! ### The stages -/

/-- `t` is `s` after `raise UnexpectedFailure` in a stage that may have flagged DEGEN and drawn before (R267). -/
def State.FailsTo (s t : State) : Prop :=
  ∃ (c : BitVec 8) (d : Bool) (k : Nat), (c = causeRngRange ∨ c = causeNonfinite) ∧ (s.degen = true → d = true) ∧
    t = ({ s with degen := d, urng := s.urng.after k } : State).raiseUnexpected c

theorem State.failsTo_plain (s : State) : s.FailsTo (s.raiseUnexpected causeNonfinite) :=
  ⟨causeNonfinite, s.degen, 0, .inr rfl, id, by simp⟩

/-- VALIDATE (R230, R231). -/
theorem execValidate_cases {s t : State} (h : execValidate s = .next t) :
    (s.gateMask = 0 ∧ t = ({ s with verrmask := 0 } : State).advance .generating) ∨
      (s.gateMask ≠ 0 ∧ t = s.raiseValidation s.gateMask (causeValidation s.firstFailed)) := by
  unfold execValidate at h
  split at h <;> cases h
  · exact .inl ⟨by assumption, rfl⟩
  · exact .inr ⟨by assumption, rfl⟩

/-- GENERATE (R121, R232). -/
theorem execGenerate_cases {s t : State} (h : execGenerate s = .next t) :
    ((timeGrid s.run).all RNum.finite = true ∧
      t = ({ s with
        res := { s.res with
          time := timeGrid s.run
          nsamp := some (BitVec.ofNat 32 (s.run.ns s.run.scheme))
          nsymb := some (BitVec.ofNat 32 (s.run.nsym s.run.scheme)) } } : State).advance .modulating) ∨
      s.FailsTo t := by
  unfold execGenerate at h
  split at h <;> cases h
  · exact .inl ⟨by assumption, rfl⟩
  · exact .inr s.failsTo_plain

/-- MOD (R131, R141, R151, R233). -/
theorem State.modulated_cases (s : State) (wave : List RNum) :
    (wave.all RNum.finite = true ∧ s.run.noiseen = true ∧
      s.modulated wave = ({ s with res := { s.res with mod := wave } } : State).advance .noiseInjection) ∨
    (wave.all RNum.finite = true ∧ s.run.noiseen = false ∧
      s.modulated wave = ({ s with res := { s.res with mod := wave, rx := wave } } : State).advance .demodulating) ∨
    s.FailsTo (s.modulated wave) := by
  unfold State.modulated
  split
  · cases n : s.run.noiseen
    · exact .inr (.inl ⟨by assumption, rfl, rfl⟩)
    · exact .inl ⟨by assumption, rfl, rfl⟩
  · exact .inr (.inr s.failsTo_plain)

/-- NOISE (R152, R155, R234). -/
theorem execNoise_cases {s t : State} (h : execNoise s = .next t) :
    (∃ rx, rx.length = s.run.ns s.run.scheme ∧ rx.all RNum.finite = true ∧
      t = ({ s.flagDegen with
        res := { s.res with rx := rx }
        urng := s.urng.after (2 * s.run.ns s.run.scheme) } : State).advance .demodulating) ∨
      s.FailsTo t := by
  unfold execNoise at h
  split at h
  · split at h
    · rename_i sf
      split at h
      · rename_i rx u e
        cases h
        obtain ⟨l, p, f⟩ := noiseLoop_spec sf e
        have sl : s.signal.length = s.run.ns s.run.scheme := by simp [State.signal, samples]
        rw [sl] at l p
        exact .inl ⟨rx, l, f, by rw [p]⟩
      · rename_i c u e
        cases h
        obtain ⟨a, k, b⟩ := noiseLoop_error e
        exact .inr ⟨c, s.flagDegen.degen, k, a.imp_right And.left, by simp_all, by rw [b]; rfl⟩
    · cases h
      exact .inr ⟨causeNonfinite, s.flagDegen.degen, 0, .inr rfl, by simp_all, by simp [State.flagDegen]⟩
  · cases h
    exact .inr s.failsTo_plain

/-- DEMOD (R171, R175, R235). -/
theorem State.demodulated_cases (s : State) (ok : Bool) (bits : List Byte) :
    (ok = true ∧ s.demodulated ok bits = ({ s with res := { s.res with rxbits := bits } } : State).advance .mapping) ∨
      s.FailsTo (s.demodulated ok bits) := by
  unfold State.demodulated
  split
  · exact .inl ⟨by assumption, rfl⟩
  · exact .inr s.failsTo_plain

/-- MAP (R192, R193, R236). -/
theorem State.mapped_cases (s : State) (ds : List Ideal) :
    (∃ ps, ps.length = ds.length ∧ ps.all Point.finite = true ∧
      ps.map Point.err = ds.map (fun d => (BitVec.ofBool d.err).setWidth 32) ∧ ps.map Point.sym = ds.map Ideal.sym ∧
      (s.run.noiseen = false → ps = ds.map (fun d => d.received (.rat 0) (.rat 0))) ∧
      s.mapped ds =
        ({ s with
          res := { s.res with ctx := ds.map Ideal.sent, crx := ps, npts := some (BitVec.ofNat 32 ds.length) }
          urng := if s.run.noiseen then s.urng.after (2 * ds.length) else s.urng } : State).advance .computing) ∨
      s.FailsTo (s.mapped ds) := by
  unfold State.mapped receivedPoints
  cases n : s.run.noiseen
  · simp only [Bool.false_eq_true, if_false]
    split
    · rename_i ps u e
      split at e
      · rename_i f
        cases e
        refine .inl ⟨_, by simp, ?_, by simp [Function.comp_def, Ideal.received], by simp [Function.comp_def, Ideal.received],
          fun _ => rfl, rfl⟩
        simp only [List.all_eq_true, List.mem_map] at f ⊢
        rintro p ⟨d, hd, rfl⟩
        have := f d hd
        simpa [Point.finite, Ideal.sent, Ideal.received, RNum.plus_zero] using this
      · cases e
    · rename_i c u e
      split at e <;> cases e
      exact .inr s.failsTo_plain
  · simp only [if_true]
    split
    · rename_i ps u e
      obtain ⟨a, b, c, d, f⟩ := jitterLoop_spec e
      exact .inl ⟨ps, a, c, d, f, by simp, by rw [b]⟩
    · rename_i c u e
      obtain ⟨a, k, b⟩ := jitterLoop_error e
      exact .inr ⟨c, s.degen, k, a.imp_right And.left, id, by rw [b]⟩

/-- BER (R211 to R214, R237). -/
theorem State.counted_cases (s : State) (errors : Nat) :
    ((berRate s.run errors).finite = true ∧
      s.counted errors = ({ s with
        snrv := s.snrv || s.run.noiseen
        res := { s.res with
          berErrcnt := some (BitVec.ofNat 32 errors)
          berTotal := some s.run.datalen
          berValue := some (berRate s.run errors)
          berSnrdb := if s.run.noiseen then some s.run.snrdb else s.res.berSnrdb } } : State).advance .done) ∨
      s.FailsTo (s.counted errors) := by
  unfold State.counted
  split
  · rename_i c
    simp only [Bool.and_eq_true] at c
    exact .inl ⟨c.1, rfl⟩
  · exact .inr s.failsTo_plain

/-! ### A run in flight -/

/-- Everything the operation of a busy phase can do (R231 to R238, R266, R267). -/
theorem stage_cases {s t : State} (h : runCode (.stage s.selector) s = .next t) :
    (s.busy = false ∧ t = s) ∨
    (s.phase = .validating ∧
      ((s.gateMask = 0 ∧ t = ({ s with verrmask := 0 } : State).advance .generating) ∨
        (s.gateMask ≠ 0 ∧ t = s.raiseValidation s.gateMask (causeValidation s.firstFailed)))) ∨
    (s.busy = true ∧ s.phase ≠ .validating ∧ s.FailsTo t) ∨
    (s.phase = .generating ∧
      t = ({ s with
        res := { s.res with
          time := timeGrid s.run
          nsamp := some (BitVec.ofNat 32 (s.run.ns s.run.scheme))
          nsymb := some (BitVec.ofNat 32 (s.run.nsym s.run.scheme)) } } : State).advance .modulating) ∨
    (s.phase = .modulating ∧ s.run.noiseen = true ∧
      ∃ wave, t = ({ s with res := { s.res with mod := wave } } : State).advance .noiseInjection) ∨
    (s.phase = .modulating ∧ s.run.noiseen = false ∧
      ∃ wave, t = ({ s with res := { s.res with mod := wave, rx := wave } } : State).advance .demodulating) ∨
    (s.phase = .noiseInjection ∧
      ∃ rx, t = ({ s.flagDegen with
        res := { s.res with rx := rx }
        urng := s.urng.after (2 * s.run.ns s.run.scheme) } : State).advance .demodulating) ∨
    (s.phase = .demodulating ∧
      ∃ bits, t = ({ s with res := { s.res with rxbits := bits } } : State).advance .mapping) ∨
    (s.phase = .mapping ∧
      ∃ ds ps,
        (s.run.modtype.getLsbD 0 = false → ds = (List.range (s.run.np s.params .bpsk)).map (bpskIdeal s.res)) ∧
        (s.run.modtype.getLsbD 0 = true → ds = (List.range (s.run.np s.params .qpsk)).map (qpskIdeal s.params s.res)) ∧
        t = ({ s with
          res := { s.res with ctx := ds.map Ideal.sent, crx := ps, npts := some (BitVec.ofNat 32 ds.length) }
          urng := if s.run.noiseen then s.urng.after (2 * ds.length) else s.urng } : State).advance .computing) ∨
    (s.phase = .computing ∧
      ∃ errors, t = ({ s with
        snrv := s.snrv || s.run.noiseen
        res := { s.res with
          berErrcnt := some (BitVec.ofNat 32 errors)
          berTotal := some s.run.datalen
          berValue := some (berRate s.run errors)
          berSnrdb := if s.run.noiseen then some s.run.snrdb else s.res.berSnrdb } } : State).advance .done) := by
  have busy : ∀ {p : Phase}, p.busy = true → s.phase = p → s.busy = true := fun b e => by rw [State.busy, e]; exact b
  have not : ∀ {p : Phase}, p ≠ .validating → s.phase = p → s.phase ≠ .validating := fun n e => by rw [e]; exact n
  have mods : ∀ w, s.phase = .modulating → t = s.modulated w →
      (s.busy = true ∧ s.phase ≠ .validating ∧ s.FailsTo t) ∨
      (s.phase = .modulating ∧ s.run.noiseen = true ∧
        ∃ wave, t = ({ s with res := { s.res with mod := wave } } : State).advance .noiseInjection) ∨
      (s.phase = .modulating ∧ s.run.noiseen = false ∧
        ∃ wave, t = ({ s with res := { s.res with mod := wave, rx := wave } } : State).advance .demodulating) := by
    rintro w p rfl
    rcases s.modulated_cases w with ⟨_, n, e⟩ | ⟨_, n, e⟩ | f
    · exact .inr (.inl ⟨p, n, w, e⟩)
    · exact .inr (.inr ⟨p, n, w, e⟩)
    · exact .inl ⟨busy rfl p, not (by simp) p, f⟩
  have demods : ∀ ok bits, s.phase = .demodulating → t = s.demodulated ok bits →
      (s.busy = true ∧ s.phase ≠ .validating ∧ s.FailsTo t) ∨
      (s.phase = .demodulating ∧
        ∃ bits, t = ({ s with res := { s.res with rxbits := bits } } : State).advance .mapping) := by
    rintro ok bits p rfl
    rcases s.demodulated_cases ok bits with ⟨_, e⟩ | f
    · exact .inr ⟨p, bits, e⟩
    · exact .inl ⟨busy rfl p, not (by simp) p, f⟩
  have counts : ∀ errors, s.phase = .computing → t = s.counted errors →
      (s.busy = true ∧ s.phase ≠ .validating ∧ s.FailsTo t) ∨
      (s.phase = .computing ∧
        ∃ errors, t = ({ s with
          snrv := s.snrv || s.run.noiseen
          res := { s.res with
            berErrcnt := some (BitVec.ofNat 32 errors)
            berTotal := some s.run.datalen
            berValue := some (berRate s.run errors)
            berSnrdb := if s.run.noiseen then some s.run.snrdb else s.res.berSnrdb } } : State).advance .done) := by
    rintro errors p rfl
    rcases s.counted_cases errors with ⟨_, e⟩ | f
    · exact .inr ⟨p, errors, e⟩
    · exact .inl ⟨busy rfl p, not (by simp) p, f⟩
  rw [runCode_stage] at h
  split at h
  · rename_i p
    exact .inr (.inl ⟨p, execValidate_cases h⟩)
  · rename_i p
    rcases execGenerate_cases h with ⟨_, e⟩ | f
    · exact .inr (.inr (.inr (.inl ⟨p, e⟩)))
    · exact .inr (.inr (.inl ⟨busy rfl p, not (by simp) p, f⟩))
  · rename_i p _
    cases h
    rcases mods _ p rfl with f | f | f
    · exact .inr (.inr (.inl f))
    · exact .inr (.inr (.inr (.inr (.inl f))))
    · exact .inr (.inr (.inr (.inr (.inr (.inl f)))))
  · rename_i p _
    cases h
    rcases mods _ p rfl with f | f | f
    · exact .inr (.inr (.inl f))
    · exact .inr (.inr (.inr (.inr (.inl f))))
    · exact .inr (.inr (.inr (.inr (.inr (.inl f)))))
  · rename_i p
    rcases execNoise_cases h with ⟨rx, _, _, e⟩ | f
    · exact .inr (.inr (.inr (.inr (.inr (.inr (.inl ⟨p, rx, e⟩))))))
    · exact .inr (.inr (.inl ⟨busy rfl p, not (by simp) p, f⟩))
  · rename_i p _
    cases h
    rcases demods _ _ p rfl with f | f
    · exact .inr (.inr (.inl f))
    · exact .inr (.inr (.inr (.inr (.inr (.inr (.inr (.inl f)))))))
  · rename_i p _
    unfold execDemodQpsk at h
    split at h <;> cases h
    rcases demods _ _ p rfl with f | f
    · exact .inr (.inr (.inl f))
    · exact .inr (.inr (.inr (.inr (.inr (.inr (.inr (.inl f)))))))
  · rename_i p m
    cases h
    rcases s.mapped_cases ((List.range (s.run.np s.params .bpsk)).map (bpskIdeal s.res)) with ⟨ps, _, _, _, _, _, e⟩ | f
    · exact .inr (.inr (.inr (.inr (.inr (.inr (.inr (.inr (.inl
        ⟨p, _, ps, fun _ => rfl, fun q => absurd (m.symm.trans q) (by simp), e⟩))))))))
    · exact .inr (.inr (.inl ⟨busy rfl p, not (by simp) p, f⟩))
  · rename_i p m
    unfold execMapQpsk at h
    split at h <;> cases h
    rcases s.mapped_cases ((List.range (s.run.np s.params .qpsk)).map (qpskIdeal s.params s.res)) with
      ⟨ps, _, _, _, _, _, e⟩ | f
    · exact .inr (.inr (.inr (.inr (.inr (.inr (.inr (.inr (.inl
        ⟨p, _, ps, fun q => absurd (m.symm.trans q) (by simp), fun _ => rfl, e⟩))))))))
    · exact .inr (.inr (.inl ⟨busy rfl p, not (by simp) p, f⟩))
  · rename_i p _
    cases h
    rcases counts _ p rfl with f | f
    · exact .inr (.inr (.inl f))
    · exact .inr (.inr (.inr (.inr (.inr (.inr (.inr (.inr (.inr f))))))))
  · rename_i p _
    unfold execBerQpsk at h
    split at h <;> cases h
    rcases counts _ p rfl with f | f
    · exact .inr (.inr (.inl f))
    · exact .inr (.inr (.inr (.inr (.inr (.inr (.inr (.inr (.inr f))))))))
  all_goals
    rename_i p
    cases h
    exact .inl ⟨(Phase.busy_iff _).2 (by simp [p]), rfl⟩

/-! ### The host -/

/-- What a transaction that starts no command does: to the run nothing; to TXBITS at most one write below LMAX (R64, R65,
R302). -/
structure HostOnly (s t : State) : Prop where
  view : t.view = s.view
  turns : t.turns = s.turns
  epoch : t.epoch = s.epoch
  txbits : t.txbits = s.txbits ∨ ∃ a b, a < s.params.lmax ∧ t.txbits = Memory.set s.txbits a b

theorem HostOnly.refl (s : State) : HostOnly s s := ⟨rfl, rfl, rfl, .inl rfl⟩

/-- What a command word does (R221 to R225). -/
theorem execCommandWord_cases (w : Word) (s : State) : ∃ t, execCommandWord w s = .next t ∧
    (HostOnly s t ∨ (w = 1 ∧ s.busy = false ∧ t = s.startRun) ∨ (w = 2 ∧ s.busy = true ∧ t = s.abortRun) ∨
      (w = 3 ∧ s.busy = false ∧ t = s.clearAll)) := by
  have refuse : HostOnly s s.refuseCommand := ⟨rfl, rfl, rfl, .inl rfl⟩
  unfold execCommandWord
  split
  · exact ⟨s, rfl, .inl (.refl s)⟩
  · rename_i e
    rcases decodeCommand_ok.1 e with ⟨_, h⟩ | ⟨rfl, _⟩ | ⟨_, h⟩ | ⟨_, h⟩ <;> try cases h
    unfold execStart
    cases b : s.busy
    · exact ⟨_, rfl, .inr (.inl ⟨rfl, rfl, rfl⟩)⟩
    · exact ⟨_, rfl, .inl refuse⟩
  · rename_i e
    rcases decodeCommand_ok.1 e with ⟨_, h⟩ | ⟨_, h⟩ | ⟨rfl, _⟩ | ⟨_, h⟩ <;> try cases h
    unfold execAbort
    split
    · cases b : s.busy
      · exact ⟨_, rfl, .inl (.refl s)⟩
      · exact ⟨_, rfl, .inr (.inr (.inl ⟨rfl, rfl, rfl⟩))⟩
    · exact ⟨_, rfl, .inl refuse⟩
  · rename_i e
    rcases decodeCommand_ok.1 e with ⟨_, h⟩ | ⟨_, h⟩ | ⟨_, h⟩ | ⟨rfl, _⟩ <;> try cases h
    unfold execClear
    cases b : s.busy
    · exact ⟨_, rfl, .inr (.inr (.inr ⟨rfl, rfl, rfl⟩))⟩
    · exact ⟨_, rfl, .inl refuse⟩
  · exact ⟨_, rfl, .inl refuse⟩

theorem State.writeReg_host {s t : State} {r : Reg} {v : Val} (h : s.writeReg r v = some t) : HostOnly s t := by
  cases r <;> simp only [State.writeReg, Option.some.injEq, reduceCtorEq] at h <;>
    exact ⟨by rw [← h]; rfl, by rw [← h], by rw [← h], .inl (by rw [← h])⟩

theorem State.answer_host (s : State) (v : Option Val) : HostOnly s (s.answer v) := by
  cases v <;> exact ⟨rfl, rfl, rfl, .inl rfl⟩

/-- A command word presented in format CMD (R92). -/
theorem runCode_cmd (w : Word) (s : State) : runCode (.cmd w) s = execCommandWord w s := by
      cases e : decodeCommand w with
      | ok i =>
        rcases decodeCommand_ok.1 e with ⟨_, rfl⟩ | ⟨_, rfl⟩ | ⟨_, rfl⟩ | ⟨_, rfl⟩ <;>
          simp only [runCode, execCommandWord, decode, e] <;> rfl
      | error x =>
        have : x = .illegalCommand := by
          unfold decodeCommand at e
          split at e
          · cases e; rfl
          · split at e <;> cases e; rfl
        subst this
        simp only [runCode, execCommandWord, decode, e]
        rfl

/-- What an operation of the host does, presented in either form (R220 to R226). -/
theorem runCode_host (c : Code) (s : State) (h : ∀ x, c ≠ .stage x) : ∃ t, runCode c s = .next t ∧
    (HostOnly s t ∨ (s.busy = false ∧ t = s.startRun) ∨ (s.busy = true ∧ t = s.abortRun) ∨
      (s.busy = false ∧ t = s.clearAll)) := by
  have refuse : HostOnly s s.refuseAccess := ⟨rfl, rfl, rfl, .inl rfl⟩
  cases c with
  | cmd w =>
    obtain ⟨t, a, b⟩ := execCommandWord_cases w s
    refine ⟨t, (runCode_cmd w s).trans a, ?_⟩
    rcases b with b | ⟨_, b⟩ | ⟨_, b⟩ | ⟨_, b⟩
    · exact .inl b
    · exact .inr (.inl b)
    · exact .inr (.inr (.inl b))
    · exact .inr (.inr (.inr b))
  | bus x j v =>
    have rd : ∀ idx, ∃ t, exec (.rd idx) s = .next t ∧ HostOnly s t := fun idx => ⟨_, rfl, s.answer_host _⟩
    have rb : ∀ sp, ∃ t, exec (.rb sp j) s = .next t ∧ HostOnly s t := fun sp => ⟨_, rfl, s.answer_host _⟩
    have wb : ∀ sp, ∃ t, exec (.wb sp j v) s = .next t ∧ HostOnly s t := by
      intro sp
      show ∃ t, execWb sp j v s = .next t ∧ HostOnly s t
      unfold execWb State.storeIndex
      split
      · rename_i a e
        refine ⟨_, rfl, rfl, rfl, rfl, .inr ⟨a, _, ?_, rfl⟩⟩
        split at e
        · split at e <;> cases e
          assumption
        · cases e
      · exact ⟨_, rfl, refuse⟩
    have weaken : ∀ i, (∃ t, exec i s = .next t ∧ HostOnly s t) → ∃ t, exec i s = .next t ∧ (HostOnly s t ∨
        (s.busy = false ∧ t = s.startRun) ∨ (s.busy = true ∧ t = s.abortRun) ∨ (s.busy = false ∧ t = s.clearAll)) :=
      fun i ⟨t, a, b⟩ => ⟨t, a, .inl b⟩
    have illegal : ∀ e, ∃ t, Host.Outcome.next (φ := Fault) (ρ := Refusal) (s.refuseCode (.bus x j v) e) = .next t ∧
        (HostOnly s t ∨ (s.busy = false ∧ t = s.startRun) ∨ (s.busy = true ∧ t = s.abortRun) ∨
          (s.busy = false ∧ t = s.clearAll)) := by
      intro e
      refine ⟨_, rfl, .inl ?_⟩
      cases e
      · exact ⟨rfl, rfl, rfl, .inl rfl⟩
      · unfold State.refuseCode
        dsimp only
        split
        · exact refuse
        · exact ⟨rfl, rfl, rfl, .inl rfl⟩
      · exact .refl s
    have wr : ∀ idx, ∃ t, exec (.wr idx v) s = .next t ∧ (HostOnly s t ∨
        (s.busy = false ∧ t = s.startRun) ∨ (s.busy = true ∧ t = s.abortRun) ∨ (s.busy = false ∧ t = s.clearAll)) := by
      intro idx
      show ∃ t, execWr idx v s = .next t ∧ _
      unfold execWr
      split
      · obtain ⟨t, a, b⟩ := execCommandWord_cases (operandWord v) s
        refine ⟨t, a, ?_⟩
        rcases b with b | ⟨_, b⟩ | ⟨_, b⟩ | ⟨_, b⟩
        · exact .inl b
        · exact .inr (.inl b)
        · exact .inr (.inr (.inl b))
        · exact .inr (.inr (.inr b))
      · split
        · rename_i e
          exact ⟨_, rfl, .inl (State.writeReg_host e)⟩
        · exact ⟨_, rfl, .inl refuse⟩
      · exact ⟨_, rfl, .inl refuse⟩
    unfold runCode decode decodeBus
    dsimp only
    split
    · rename_i i e
      split at e
      · split at e <;> cases e
        exact weaken _ (rd _)
      · split at e <;> cases e
        exact wr _
      · split at e <;> cases e
        exact weaken _ (rb _)
      · split at e <;> cases e
        exact weaken _ (wb _)
    · exact illegal _
  | stage x => exact absurd rfl (h x)

/-- A bus transaction starts a command only as a write to CMD (R31). -/
theorem runCode_bus {x j : Word} {v : Val} {s t : State} (h : runCode (.bus x j v) s = .next t) :
    HostOnly s t ∨ (decode (.bus x j v) = .ok (.wr 0x01 v) ∧ execCommandWord (operandWord v) s = .next t) := by
  cases e : decode (.bus x j v) with
  | error q =>
    left
    simp only [runCode, e, Host.Outcome.next.injEq] at h
    subst h
    cases q
    · exact ⟨rfl, rfl, rfl, .inl rfl⟩
    · unfold State.refuseCode
      dsimp only
      split
      · exact ⟨rfl, rfl, rfl, .inl rfl⟩
      · exact ⟨rfl, rfl, rfl, .inl rfl⟩
    · exact .refl s
  | ok i =>
    have sh : (∃ idx, i = .rd idx) ∨ (∃ idx, i = .wr idx v) ∨ (∃ sp, i = .rb sp j) ∨ (∃ sp, i = .wb sp j v) := by
      simp only [decode, decodeBus] at e
      split at e <;> split at e <;> cases e <;> simp
    simp only [runCode, e] at h
    rcases sh with ⟨idx, rfl⟩ | ⟨idx, rfl⟩ | ⟨sp, rfl⟩ | ⟨sp, rfl⟩
    · cases h; exact .inl (s.answer_host _)
    · simp only [exec, execWr] at h
      split at h
      · rename_i er
        have := Reg.index_of_ofIndex er
        subst this
        exact .inr ⟨rfl, h⟩
      · split at h <;> cases h
        · rename_i e2
          exact .inl (State.writeReg_host e2)
        · exact .inl ⟨rfl, rfl, rfl, .inl rfl⟩
      · cases h
        exact .inl ⟨rfl, rfl, rfl, .inl rfl⟩
    · cases h; exact .inl (s.answer_host _)
    · simp only [exec, execWb, State.storeIndex] at h
      split at h <;> cases h
      · rename_i a e2
        refine .inl ⟨rfl, rfl, rfl, .inr ⟨a, _, ?_, rfl⟩⟩
        split at e2
        · split at e2 <;> cases e2
          assumption
        · cases e2
      · exact .inl ⟨rfl, rfl, rfl, .inl rfl⟩

end Sys2Proof.Machine
end

