-- ==== Sys2Proof/Laws/Gate.lean ====
section
/-! SUPPORT. The validation gate: its mask bit by bit, and its checks over the reals. -/
namespace Sys2Proof.Machine

theorem failMask_testBit (cs : List Bool) (i : Nat) : (failMask cs).testBit i = (cs[i]? == some false) := by
  induction cs generalizing i with
  | nil => simp [failMask]
  | cons c cs ih =>
    cases i with
    | zero => cases c <;> simp [failMask, Nat.testBit_zero]
    | succ i =>
      rw [List.getElem?_cons_succ, ← ih]
      cases c
      · simp only [failMask, Nat.testBit_succ]
        congr 1
        simp
        omega
      · simp only [failMask, Nat.testBit_succ]
        congr 1
        simp

theorem checks_length (p : Params) (r : Settings) (bits : List Byte) : (checks p r bits).length = 10 := rfl

theorem gateMask_bit (s : State) (i : Nat) :
    s.gateMask.getLsbD i = ((checks s.params s.run s.res.runbits)[i]? == some false) := by
  rw [State.gateMask, BitVec.getLsbD_ofNat, failMask_testBit]
  by_cases h : i < 10
  · simp [h]
  · simp [h, List.getElem?_eq_none (show (checks s.params s.run s.res.runbits).length ≤ i by rw [checks_length]; omega)]

theorem gateMask_zero (s : State) : s.gateMask = 0 ↔ ∀ c ∈ checks s.params s.run s.res.runbits, c = true := by
  constructor
  · intro h c hc
    obtain ⟨i, hi, rfl⟩ := List.getElem_of_mem hc
    have := gateMask_bit s i
    rw [h, List.getElem?_eq_getElem hi] at this
    cases e : (checks s.params s.run s.res.runbits)[i] with
    | true => rfl
    | false => simp [e] at this
  · intro h
    apply BitVec.eq_of_getLsbD_eq
    intro i hi
    rw [gateMask_bit, List.getElem?_eq_getElem (by rw [checks_length]; exact hi), h _ (List.getElem_mem _)]
    simp

theorem positiveWithin_iff (m : Option RNum) (x : RNum) :
    positiveWithin m x = true ↔ x.finite = true ∧ 0 < x.val ∧ ∀ y ∈ m, x.val ≤ y.val := by
  cases m <;> simp [positiveWithin, RNum.isPos_iff, RNum.atMost_iff, and_assoc]

theorem within_iff (a b : Option RNum) (x : RNum) :
    within a b x = true ↔ x.finite = true ∧ (∀ y ∈ a, y.val ≤ x.val) ∧ ∀ y ∈ b, x.val ≤ y.val := by
  cases a <;> cases b <;> simp [within, RNum.atMost_iff, and_assoc]

/-- Check `i` of the gate is check `i` over the reals (R230). -/
theorem checks_iff {p : Params} {r : Settings} {bits : List Byte} (l : bits.length = min r.txcount.toNat p.lmax) (i : Fin 10) :
    (checks p r bits)[i]? = some true ↔ CheckHolds p r bits i := by
  match i with
  | 0 => simp [checks, CheckHolds, positiveWithin_iff]
  | 1 => simp [checks, CheckHolds, positiveWithin_iff]
  | 2 => simp [checks, CheckHolds, positiveWithin_iff]
  | 3 => simp [checks, CheckHolds]
  | 4 => simp [checks, CheckHolds]
  | 5 => simp [checks, CheckHolds]
  | 6 =>
    have := within_iff p.snrMin p.snrMax r.snrdb
    simp only [checks, CheckHolds, ← this]
    simp
  | 7 => simp [checks, CheckHolds]
  | 8 => simp [checks, CheckHolds]
  | 9 =>
    have inside : ∀ k, k < min (min r.txcount.toNat r.len) p.lmax → k < bits.length := by intro k hk; omega
    show some ((List.range (min (min r.txcount.toNat r.len) p.lmax)).all (fun k => isBit (bitAt bits k))) = some true ↔
      ∀ k, k < min (min r.txcount.toNat r.len) p.lmax → bits[k]? = some 0 ∨ bits[k]? = some 1
    rw [Option.some.injEq, List.all_eq_true]
    constructor
    · intro a k hk
      simpa [isBit, bitAt, List.getElem?_eq_getElem (inside k hk)] using a k (List.mem_range.2 hk)
    · intro a k hk
      rcases a k (List.mem_range.1 hk) with e | e <;> simp [bitAt, e, isBit]

/-- What validation leaves of the snapshot (R230). -/
structure Passed (p : Params) (r : Settings) (bits : List Byte) : Prop where
  bitrate : r.bitrate.finite = true
  bitratePos : 0 < r.bitrate.val
  carfreq : r.carfreq.finite = true
  carfreqPos : 0 < r.carfreq.val
  caramp : r.caramp.finite = true
  carampPos : 0 < r.caramp.val
  modtype : r.modtype = 0 ∨ r.modtype = 1
  low : 3 ≤ r.len
  high : r.len ≤ p.lmax
  even : r.modtype = 1 → r.len % 2 = 0
  snr : r.noiseen = true → r.snrdb.finite = true
  spb : p.spbMin ≤ r.spb.toNat
  fits : r.len * r.spb.toNat ≤ p.nsMax
  count : r.txcount = r.datalen
  bits : ∀ k, k < r.len → bitAt bits k = 0 ∨ bitAt bits k = 1

theorem State.Validated.passed {s : State} (h : s.Validated) : Passed s.params s.run s.res.runbits := by
  have h := (gateMask_zero s).1 h.checks
  simp only [Sys2Proof.Machine.checks, List.mem_cons, List.not_mem_nil, or_false, forall_eq_or_imp, forall_eq] at h
  obtain ⟨h0, h1, h2, h3, h4, h5, h6, h7, h8, h9⟩ := h
  rw [positiveWithin_iff] at h0 h1 h2
  simp only [Bool.and_eq_true, decide_eq_true_eq, Bool.or_eq_true, beq_iff_eq] at h3 h4 h7 h8
  refine ⟨h0.1, h0.2.1, h1.1, h1.2.1, h2.1, h2.2.1, h3, h4.1, h4.2, ?_, ?_, h7.1, h7.2, h8, ?_⟩
  · intro e
    simpa [e] using h5
  · intro e
    simp only [e, Bool.not_true, Bool.false_or, within_iff] at h6
    exact h6.1
  · intro k hk
    have : k < min (min s.run.txcount.toNat s.run.len) s.params.lmax := by
      have : s.run.txcount.toNat = s.run.len := by rw [h8]; rfl
      omega
    have := List.all_eq_true.1 h9 k (List.mem_range.2 this)
    exact (by simpa [isBit] using this)

/-- A run that passed validation, on an instance whose SPB_MIN is not 0, has a carrier of real numbers: no stage of it
meets an infinity or a NaN in the time grid or the phase (R121, R126, R263). -/
theorem Passed.carried {p : Params} {r : Settings} {bits : List Byte} (h : Passed p r bits) (m : 0 < p.spbMin) :
    r.Carried :=
  ⟨⟨m.trans_le h.spb, h.bitrate, h.bitratePos⟩, h.carfreq⟩

end Sys2Proof.Machine
end

