-- ==== Sys2Proof/Laws/PerInstr.lean ====
section
/-! SUPPORT. A family of lemmas with one lemma per operation: the encoding of each operation is a word of its own row of
spec/opcode_table.json. -/
namespace Sys2Proof.Laws

/-- The format of a row. -/
inductive RowFormat
  | cmd | bus | stage
  deriving DecidableEq, Repr

/-- A row of spec/opcode_table.json: its format, mask and match. -/
structure Row where
  /-- The format (R90). -/
  format : RowFormat
  /-- The fixed bits. -/
  mask : Word
  /-- Their values. -/
  pattern : Word
  deriving DecidableEq, Repr

/-- The row of each operation. -/
def rowOf : Instr → Row
  | .nop => ⟨.cmd, 0xFFFFFFFF, 0x00000000⟩
  | .start => ⟨.cmd, 0xFFFFFFFF, 0x00000001⟩
  | .abort => ⟨.cmd, 0xFFFFFFFF, 0x00000002⟩
  | .clear => ⟨.cmd, 0xFFFFFFFF, 0x00000003⟩
  | .rd _ => ⟨.bus, 0xFFFF0000, 0x00000000⟩
  | .wr _ _ => ⟨.bus, 0xFFFF0000, 0x40000000⟩
  | .rb _ _ => ⟨.bus, 0xC3FFFFFF, 0x80000000⟩
  | .wb _ _ _ => ⟨.bus, 0xC3FFFFFF, 0xC0000000⟩
  | .validate => ⟨.stage, 0x0F, 0x01⟩
  | .generate => ⟨.stage, 0x0F, 0x02⟩
  | .modBpsk => ⟨.stage, 0x1F, 0x03⟩
  | .modQpsk => ⟨.stage, 0x1F, 0x13⟩
  | .noise => ⟨.stage, 0x0F, 0x04⟩
  | .demodBpsk => ⟨.stage, 0x1F, 0x05⟩
  | .demodQpsk => ⟨.stage, 0x1F, 0x15⟩
  | .mapBpsk => ⟨.stage, 0x1F, 0x06⟩
  | .mapQpsk => ⟨.stage, 0x1F, 0x16⟩
  | .berBpsk => ⟨.stage, 0x1F, 0x07⟩
  | .berQpsk => ⟨.stage, 0x1F, 0x17⟩

/-- The encoding of an operation has its row's format and fixed bits (R93, R94, R96). -/
def TableRow.Statement (i : Instr) : Prop :=
  match encode i with
  | .cmd w => (rowOf i).format = .cmd ∧ w &&& (rowOf i).mask = (rowOf i).pattern
  | .bus h _ _ => (rowOf i).format = .bus ∧ h &&& (rowOf i).mask = (rowOf i).pattern
  | .stage sel => (rowOf i).format = .stage ∧ sel.setWidth 32 &&& (rowOf i).mask = (rowOf i).pattern

theorem TableRow.nop : TableRow.Statement .nop := ⟨rfl, rfl⟩
theorem TableRow.start : TableRow.Statement .start := ⟨rfl, rfl⟩
theorem TableRow.abort : TableRow.Statement .abort := ⟨rfl, rfl⟩
theorem TableRow.clear : TableRow.Statement .clear := ⟨rfl, rfl⟩

theorem register_header (k : BitVec 2) (idx : BitVec 16) :
    (k ++ (0 : BitVec 14) ++ idx) &&& (0xFFFF0000 : BitVec (2 + 14 + 16)) = k ++ (0 : BitVec 14) ++ (0 : BitVec 16) := by
  apply BitVec.eq_of_getLsbD_eq
  intro i hi
  rw [BitVec.getLsbD_and, BitVec.getLsbD_append, BitVec.getLsbD_append (x := k ++ (0 : BitVec 14))]
  interval_cases i <;> simp

theorem buffer_header (k : BitVec 2) (sp : BitVec 4) :
    (k ++ sp ++ (0 : BitVec 26)) &&& (0xC3FFFFFF : BitVec (2 + 4 + 26)) = k ++ (0 : BitVec 4) ++ (0 : BitVec 26) := by
  apply BitVec.eq_of_getLsbD_eq
  intro i hi
  rw [BitVec.getLsbD_and, BitVec.getLsbD_append, BitVec.getLsbD_append (x := k ++ (0 : BitVec 4)),
    BitVec.getLsbD_append (x := k), BitVec.getLsbD_append (x := k)]
  interval_cases i <;> simp

theorem TableRow.rd (idx : BitVec 16) : TableRow.Statement (.rd idx) := ⟨rfl, register_header 0 idx⟩
theorem TableRow.wr (idx : BitVec 16) (v : Val) : TableRow.Statement (.wr idx v) := ⟨rfl, register_header 1 idx⟩
theorem TableRow.rb (space : BitVec 4) (i : Word) : TableRow.Statement (.rb space i) := ⟨rfl, buffer_header 2 space⟩
theorem TableRow.wb (space : BitVec 4) (i : Word) (v : Val) : TableRow.Statement (.wb space i v) :=
  ⟨rfl, buffer_header 3 space⟩

theorem TableRow.validate : TableRow.Statement .validate := ⟨rfl, rfl⟩
theorem TableRow.generate : TableRow.Statement .generate := ⟨rfl, rfl⟩
theorem TableRow.modBpsk : TableRow.Statement .modBpsk := ⟨rfl, rfl⟩
theorem TableRow.modQpsk : TableRow.Statement .modQpsk := ⟨rfl, rfl⟩
theorem TableRow.noise : TableRow.Statement .noise := ⟨rfl, rfl⟩
theorem TableRow.demodBpsk : TableRow.Statement .demodBpsk := ⟨rfl, rfl⟩
theorem TableRow.demodQpsk : TableRow.Statement .demodQpsk := ⟨rfl, rfl⟩
theorem TableRow.mapBpsk : TableRow.Statement .mapBpsk := ⟨rfl, rfl⟩
theorem TableRow.mapQpsk : TableRow.Statement .mapQpsk := ⟨rfl, rfl⟩
theorem TableRow.berBpsk : TableRow.Statement .berBpsk := ⟨rfl, rfl⟩
theorem TableRow.berQpsk : TableRow.Statement .berQpsk := ⟨rfl, rfl⟩

end Sys2Proof.Laws
end

