-- ==== Sys2Proof/Laws/Stages.lean ====
section
/-! SUPPORT. The real values of what the stages compute, and when they are real at all. -/
namespace Sys2Proof.Machine

/-! ### carrier_generator -/

theorem timeAt_val (r : Settings) (n : Nat) : (timeAt r n).val = r.time n := by
  simp [timeAt, RNum.val_over, RNum.val_ofNat, RNum.val_times, Settings.time]

theorem theta_val (r : Settings) (n : Nat) : (theta r n).val = r.angle n := by
  simp only [theta, RNum.val_times, timeAt_val, Settings.angle, RNum.val]
  norm_num

theorem carrier_val (r : Settings) (n : Nat) (φ : RNum) : (carrier r n φ).val = Real.cos (r.angle n + φ.val) := by
  simp [carrier, RNum.val_cosine, RNum.val_plus, theta_val]

theorem refI_val (r : Settings) (n : Nat) : (refI r n).val = Real.cos (r.angle n) := by
  simp [refI, RNum.val_cosine, theta_val]

theorem refQ_val (r : Settings) (n : Nat) : (refQ r n).val = Real.sin (r.angle n) := by
  simp [refQ, RNum.val_sine, theta_val]

theorem Settings.Timed.sign {r : Settings} (h : r.Timed) : (RNum.times (.ofNat r.spb.toNat) r.bitrate).sign = .gt := by
  rw [RNum.sign_gt_iff, RNum.val_times, RNum.val_ofNat]
  exact mul_pos (by exact_mod_cast h.spb) h.positive

theorem timeAt_finite {r : Settings} (h : r.Timed) (n : Nat) : (timeAt r n).finite = true := by
  simp [timeAt, h.finite, h.sign]

theorem timeGrid_finite {r : Settings} (h : r.Timed) : (timeGrid r).all RNum.finite = true := by
  simp [timeGrid, timeAt_finite h]

theorem theta_finite {r : Settings} (h : r.Carried) (n : Nat) : (theta r n).finite = true := by
  simp [theta, h.carfreq, timeAt_finite h.toTimed, RNum.finite]

theorem refI_finite {r : Settings} (h : r.Carried) (n : Nat) : (refI r n).finite = true := by
  simp [refI, theta_finite h]

theorem refQ_finite {r : Settings} (h : r.Carried) (n : Nat) : (refQ r n).finite = true := by
  simp [refQ, theta_finite h]

theorem carrier_finite {r : Settings} (h : r.Carried) (n : Nat) (φ : RNum) : (carrier r n φ).finite = φ.finite := by
  simp [carrier, theta_finite h]

theorem timeGrid_length (r : Settings) : (timeGrid r).length = r.ns r.scheme := by simp [timeGrid]

theorem timeGrid_get (r : Settings) {n : Nat} (h : n < r.ns r.scheme) : (timeGrid r)[n]? = some (timeAt r n) := by
  simp [timeGrid, h]

/-! ### The modulators -/

theorem bpskPhase_val (b : Byte) : (bpskPhase b).val = if b = 1 then 0 else Real.pi := by
  unfold bpskPhase; split <;> simp [RNum.val]

theorem bpskPhase_finite (b : Byte) : (bpskPhase b).finite = true := by
  unfold bpskPhase; split <;> rfl

theorem bpskSample_val (r : Settings) (bits : List Byte) (n : Nat) :
    (bpskSample r bits n).val =
      r.caramp.val * Real.cos (r.angle n + if bitAt bits (n / r.sps .bpsk) = 1 then 0 else Real.pi) := by
  simp [bpskSample, RNum.val_times, carrier_val, bpskPhase_val, Settings.symbolOf]

theorem bpskSample_finite {r : Settings} (h : r.Carried) (a : r.caramp.finite = true) (bits : List Byte) (n : Nat) :
    (bpskSample r bits n).finite = true := by
  simp [bpskSample, a, carrier_finite h, bpskPhase_finite]

theorem isBit_iff (b : Byte) : isBit b = true ↔ b = 0 ∨ b = 1 := by simp [isBit]

theorem qpskPhase_val {b1 b2 : Byte} (h1 : b1 = 0 ∨ b1 = 1) (h2 : b2 = 0 ∨ b2 = 1) :
    (qpskPhase b1 b2).val = pairAngle b1 b2 := by
  rcases h1 with rfl | rfl <;> rcases h2 with rfl | rfl <;> simp [qpskPhase, pairAngle, RNum.val] <;> ring

theorem qpskPhase_finite {b1 b2 : Byte} (h1 : b1 = 0 ∨ b1 = 1) (h2 : b2 = 0 ∨ b2 = 1) :
    (qpskPhase b1 b2).finite = true := by
  rcases h1 with rfl | rfl <;> rcases h2 with rfl | rfl <;> simp [qpskPhase, RNum.finite]

theorem bpskWave_length (r : Settings) (bits : List Byte) : (bpskWave r bits).length = r.ns .bpsk := by simp [bpskWave]

theorem qpskWave_length (r : Settings) (bits : List Byte) : (qpskWave r bits).length = r.ns .qpsk := by simp [qpskWave]

theorem waveOf_length (r : Settings) (bits : List Byte) : (waveOf r bits).length = r.ns r.scheme := by
  unfold waveOf
  cases r.scheme
  · exact bpskWave_length r bits
  · exact qpskWave_length r bits

/-! ### gaussian_noise_injector -/

theorem powerSum_val_aux (xs : List RNum) (a : RNum) :
    (xs.foldl (fun acc x => RNum.plus acc (RNum.square x)) a).val = a.val + (xs.map (fun x => x.val ^ 2)).sum := by
  induction xs generalizing a with
  | nil => simp
  | cons x xs ih => simp [ih, RNum.val_plus, RNum.val_square, add_assoc]

theorem powerSum_val (xs : List RNum) : (powerSum xs).val = (xs.map (fun x => x.val ^ 2)).sum := by
  rw [powerSum, powerSum_val_aux]; simp [RNum.val]

theorem powerSum_finite_aux (xs : List RNum) (a : RNum) :
    (xs.foldl (fun acc x => RNum.plus acc (RNum.square x)) a).finite = (a.finite && xs.all RNum.finite) := by
  induction xs generalizing a with
  | nil => simp
  | cons x xs ih => simp [ih, Bool.and_assoc]

theorem powerSum_finite (xs : List RNum) : (powerSum xs).finite = xs.all RNum.finite := by
  rw [powerSum, powerSum_finite_aux]; simp [RNum.finite]

theorem sign_ofNat_pos {n : Nat} (h : 0 < n) : (RNum.ofNat n).sign = .gt := by
  simp [RNum.ofNat, RNum.sign, h]

theorem meanPower_val (xs : List RNum) : (meanPower xs).val = (xs.map (fun x => x.val ^ 2)).sum / xs.length := by
  simp [meanPower, RNum.val_over, powerSum_val, RNum.val_ofNat]

theorem meanPower_finite {xs : List RNum} (h : 0 < xs.length) : (meanPower xs).finite = xs.all RNum.finite := by
  simp [meanPower, powerSum_finite, sign_ofNat_pos h]

theorem snrLinear_val (r : Settings) : (snrLinear r).val = (10 : ℝ) ^ (r.snrdb.val / 10) := by
  simp [snrLinear, RNum.val_tenTo, RNum.val_over, RNum.val]

theorem sign_rat_pos {q : ℚ} (h : 0 < q) : (RNum.rat q).sign = .gt := by
  simp [RNum.sign, Rat.num_pos.2 h]

theorem snrLinear_finite (r : Settings) : (snrLinear r).finite = r.snrdb.finite := by
  simp [snrLinear, sign_rat_pos (show (0 : ℚ) < 10 by norm_num), RNum.finite]

theorem powerSum_nonneg (xs : List RNum) : 0 ≤ (powerSum xs).val := by
  rw [powerSum_val]
  exact List.sum_nonneg fun y hy => by
    obtain ⟨x, -, rfl⟩ := List.mem_map.1 hy
    positivity

theorem signal_length (s : State) : s.signal.length = s.run.ns s.run.scheme := by simp [State.signal, samples]

/-- `σ` over the reals: of the signal power over `10^(S/10)` where the power is above 0, however small, else of NOISE_FLOOR
(R154, R155). -/
theorem sigma_val (s : State) :
    s.sigma.val =
      Real.sqrt (if 0 < s.power.val then s.power.val / (10 : ℝ) ^ (s.run.snrdb.val / 10) else Config.noiseFloor) := by
  simp only [State.sigma, noiseSigma, RNum.val_root, noisePower, RNum.isPos_iff]
  split <;> simp [RNum.val_over, snrLinear_val, RNum.val]

/-- `σ` is a real number when the power and the SNR are (R152, R160, R263). -/
theorem sigma_finite {s : State} (p : s.power.finite = true) (h : s.run.snrdb.finite = true) : s.sigma.finite = true := by
  have l : 0 < (snrLinear s.run).val := by rw [snrLinear_val]; positivity
  simp only [State.sigma, noiseSigma, RNum.finite_root_iff, noisePower, RNum.isPos_iff]
  split
  · rename_i q
    rw [RNum.finite_over_iff, RNum.val_over, snrLinear_finite]
    exact ⟨⟨p, h, l.ne'⟩, by positivity⟩
  · exact ⟨rfl, Config.noiseFloor.2⟩

theorem power_finite {s : State} (n : 0 < s.run.ns s.run.scheme) : s.power.finite = s.signal.all RNum.finite :=
  meanPower_finite (by rw [signal_length]; exact n)

theorem gauss_val (a b : RNum) : (gauss a b).val = Real.sqrt (-2 * Real.log a.val) * Real.cos (2 * Real.pi * b.val) := by
  simp only [gauss, RNum.val_times, RNum.val_root, RNum.val_log, RNum.val_cosine, RNum.val]
  norm_num

theorem samples_length (b : List RNum) (n : Nat) : (samples b n).length = n := by simp [samples]

theorem samples_self (b : List RNum) : samples b b.length = b := by
  apply List.ext_getElem
  · simp [samples]
  · intro i h1 h2
    simp [samples, numAt, h2]

/-! ### matched_filter_demodulator -/

theorem iSum_val_aux (r : Settings) (rx : List RNum) (l : List Nat) (a : RNum) :
    (l.foldl (fun acc n => RNum.plus acc (RNum.times (numAt rx n) (refI r n))) a).val =
      a.val + (l.map (fun n => (numAt rx n).val * Real.cos (r.angle n))).sum := by
  induction l generalizing a with
  | nil => simp
  | cons x xs ih => simp [ih, RNum.val_plus, RNum.val_times, refI_val, add_assoc]

theorem sum_range' (f : Nat → ℝ) (n0 w : Nat) :
    ((List.range' n0 w).map f).sum = ∑ j ∈ Finset.range w, f (n0 + j) := by
  rw [List.range'_eq_map_range, List.map_map, Finset.sum_range]
  rw [← List.sum_ofFn]
  congr 1
  apply List.ext_getElem <;> simp

theorem iSum_val (r : Settings) (rx : List RNum) (n0 w : Nat) : (iSum r rx n0 w).val = inPhase r rx n0 w := by
  rw [iSum, iSum_val_aux, sum_range']
  simp [RNum.val, inPhase]

theorem qSum_val_aux (r : Settings) (rx : List RNum) (l : List Nat) (a : RNum) :
    (l.foldl (fun acc n => RNum.minus acc (RNum.times (numAt rx n) (refQ r n))) a).val =
      a.val - (l.map (fun n => (numAt rx n).val * Real.sin (r.angle n))).sum := by
  induction l generalizing a with
  | nil => simp
  | cons x xs ih => simp [ih, RNum.val_minus, RNum.val_times, refQ_val, sub_sub]

theorem qSum_val (r : Settings) (rx : List RNum) (n0 w : Nat) : (qSum r rx n0 w).val = quadrature r rx n0 w := by
  rw [qSum, qSum_val_aux, sum_range']
  simp [RNum.val, quadrature]

theorem iSum_finite_aux (r : Settings) (rx : List RNum) (l : List Nat) (a : RNum) :
    (l.foldl (fun acc n => RNum.plus acc (RNum.times (numAt rx n) (refI r n))) a).finite =
      (a.finite && l.all (fun n => (numAt rx n).finite && (refI r n).finite)) := by
  induction l generalizing a with
  | nil => simp
  | cons x xs ih => simp [ih, Bool.and_assoc]

theorem qSum_finite_aux (r : Settings) (rx : List RNum) (l : List Nat) (a : RNum) :
    (l.foldl (fun acc n => RNum.minus acc (RNum.times (numAt rx n) (refQ r n))) a).finite =
      (a.finite && l.all (fun n => (numAt rx n).finite && (refQ r n).finite)) := by
  induction l generalizing a with
  | nil => simp
  | cons x xs ih => simp [ih, Bool.and_assoc]

theorem iSum_finite {r : Settings} (h : r.Carried) {rx : List RNum} {n0 w : Nat}
    (f : ∀ n, n0 ≤ n → n < n0 + w → (numAt rx n).finite = true) : (iSum r rx n0 w).finite = true := by
  rw [iSum, iSum_finite_aux]
  simp only [RNum.finite, Bool.true_and, List.all_eq_true, Bool.and_eq_true]
  intro n hn
  rw [List.mem_range'_1] at hn
  exact ⟨f n hn.1 hn.2, refI_finite h n⟩

theorem qSum_finite {r : Settings} (h : r.Carried) {rx : List RNum} {n0 w : Nat}
    (f : ∀ n, n0 ≤ n → n < n0 + w → (numAt rx n).finite = true) : (qSum r rx n0 w).finite = true := by
  rw [qSum, qSum_finite_aux]
  simp only [RNum.finite, Bool.true_and, List.all_eq_true, Bool.and_eq_true]
  intro n hn
  rw [List.mem_range'_1] at hn
  exact ⟨f n hn.1 hn.2, refQ_finite h n⟩

theorem numAt_finite {rx : List RNum} (h : rx.all RNum.finite = true) {n : Nat} (hn : n < rx.length) :
    (numAt rx n).finite = true := by
  simp only [numAt, List.getElem?_eq_getElem hn, Option.getD_some]
  exact List.all_eq_true.1 h _ (List.getElem_mem hn)

theorem numAt_val {rx : List RNum} {n : Nat} {x : RNum} (h : rx[n]? = some x) : numAt rx n = x := by simp [numAt, h]

theorem bitAt_val {b : List Byte} {k : Nat} {x : Byte} (h : b[k]? = some x) : bitAt b k = x := by simp [bitAt, h]

theorem bpskBits_length (r : Settings) (rx : List RNum) : (bpskBits r rx).length = r.len := by simp [bpskBits, bpskSums]

theorem qpskBits_length (r : Settings) (rx : List RNum) : (qpskBits r rx).length = 2 * r.nsym .qpsk := by
  simp [qpskBits, List.length_flatMap, mul_comm]

theorem bpskBits_get {r : Settings} {rx : List RNum} {k : Nat} (h : k < r.len) :
    (bpskBits r rx)[k]? = some (decideBit (iSumOf .bpsk r rx k)) := by
  simp [bpskBits, bpskSums, h]

theorem flatMap_pairs_get (f g : Nat → Byte) (n k : Nat) (h : k < n) :
    ((List.range n).flatMap (fun k => [f k, g k]))[2 * k]? = some (f k) ∧
      ((List.range n).flatMap (fun k => [f k, g k]))[2 * k + 1]? = some (g k) := by
  induction n with
  | zero => omega
  | succ n ih =>
    have l : ((List.range n).flatMap (fun k => [f k, g k])).length = 2 * n := by
      simp [List.length_flatMap, mul_comm]
    rw [List.range_succ, List.flatMap_append]
    by_cases hk : k < n
    · rw [List.getElem?_append_left (by omega), List.getElem?_append_left (by omega)]
      exact ih hk
    · have : k = n := by omega
      subst this
      rw [List.getElem?_append_right (by omega), List.getElem?_append_right (by omega), l]
      simp

theorem qpskBits_get {r : Settings} {rx : List RNum} {k : Nat} (h : k < r.nsym .qpsk) :
    (qpskBits r rx)[2 * k]? = some (qpskPair r rx k).1 ∧ (qpskBits r rx)[2 * k + 1]? = some (qpskPair r rx k).2 :=
  flatMap_pairs_get _ _ _ _ h

end Sys2Proof.Machine
end

