-- ==== Sys2Proof/Laws/Validated.lean ====
section
/-! SUPPORT. Over the real numbers no stage of a run that passed validation meets an infinity or a NaN (spec/60 R263): what
each stage computes is finite, and a stage that fails fails on a draw. -/
namespace Sys2Proof.Machine

/-- The scheme of a snapshot that passed validation, and its lengths (R69, R229). -/
theorem Passed.scheme {p : Params} {r : Settings} {bits : List Byte} (h : Passed p r bits) :
    (r.scheme = .bpsk ∧ r.modtype = 0) ∨ (r.scheme = .qpsk ∧ r.modtype = 1 ∧ r.len % 2 = 0) := by
  rcases h.modtype with e | e
  · exact .inl ⟨by simp [Settings.scheme, e], e⟩
  · exact .inr ⟨by simp [Settings.scheme, e], e, h.even e⟩

theorem ns_bpsk (r : Settings) : r.ns .bpsk = r.len * r.spb.toNat := by
  simp [Settings.ns, Settings.nsym, Settings.sps, Scheme.bps]

theorem ns_qpsk (r : Settings) : r.ns .qpsk = (r.len + 1) / 2 * (2 * r.spb.toNat) := by
  simp [Settings.ns, Settings.nsym, Settings.sps, Scheme.bps]

theorem Passed.ns {p : Params} {r : Settings} {bits : List Byte} (h : Passed p r bits) :
    r.ns r.scheme = r.len * r.spb.toNat := by
  rcases h.scheme with ⟨e, -⟩ | ⟨e, -, even⟩
  · rw [e, ns_bpsk]
  · rw [e, ns_qpsk, show (r.len + 1) / 2 = r.len / 2 by omega, ← mul_assoc, Nat.div_mul_cancel (Nat.dvd_of_mod_eq_zero even)]

theorem Passed.ns_pos {p : Params} {r : Settings} {bits : List Byte} (h : Passed p r bits) (m : 0 < p.spbMin) :
    0 < r.ns r.scheme := by
  rw [h.ns]
  exact Nat.mul_pos (by have := h.low; omega) (m.trans_le h.spb)

/-- The modulated waveform is of real numbers (R131, R141). -/
theorem Passed.wave_finite {p : Params} {r : Settings} {bits : List Byte} (h : Passed p r bits) (m : 0 < p.spbMin) :
    (waveOf r bits).all RNum.finite = true := by
  have ca := h.carried m
  rcases h.scheme with ⟨e, -⟩ | ⟨e, -, even⟩
  · simp [waveOf, e, bpskWave, bpskSample_finite ca h.caramp]
  · simp only [waveOf, e, qpskWave, List.all_eq_true, List.mem_map, List.mem_range, qpskSample, secondBit]
    rintro x ⟨n, hn, rfl⟩
    have hk : r.symbolOf .qpsk n < (r.len + 1) / 2 := by
      rw [ns_qpsk, mul_comm] at hn
      simpa [Settings.symbolOf, Settings.sps, Scheme.bps, mul_comm] using Nat.div_lt_of_lt_mul hn
    rw [RNum.finite_times, carrier_finite ca, qpskPhase_finite (h.bits _ (by omega)), h.caramp, Bool.and_self]
    split
    · exact h.bits _ (by assumption)
    · exact .inl rfl

/-- The ideal points are of real numbers when the QPSK scale is (R194). -/
theorem Passed.ideals_finite {p : Params} {r : Settings} {res : Results} (h : Passed p r res.runbits)
    (q : p.qscale.finite = true) : ∀ d ∈ idealsOf p r res, d.sent.finite = true := by
  intro d hd
  rcases h.scheme with ⟨e, -⟩ | ⟨e, -, even⟩
  · simp only [idealsOf, e, List.mem_map, List.mem_range] at hd
    obtain ⟨j, -, rfl⟩ := hd
    simp only [Ideal.sent, Point.finite, bpskIdeal, bpskPoint]
    split <;> rfl
  · simp only [idealsOf, e, List.mem_map, List.mem_range] at hd
    obtain ⟨j, hj, rfl⟩ := hd
    have hj' : j < (r.len + 1) / 2 := by
      have := hj.trans_le (Nat.min_le_left _ _)
      simpa [Settings.nsym, Scheme.bps] using this
    rcases h.bits (2 * j) (by omega) with a | a <;> rcases h.bits (2 * j + 1) (by omega) with b | b <;>
      simp [Ideal.sent, Point.finite, qpskIdeal, qpskPoint, a, b, q, RNum.finite]

theorem dispersion_finite {r : Settings} (h : r.snrdb.finite = true) : (dispersion r).finite = true := by
  simp [dispersion, h, RNum.finite, sign_rat_pos (show (0 : ℚ) < 30 by norm_num)]

theorem berRate_finite {r : Settings} (h : 0 < r.len) (n : Nat) : (berRate r n).finite = true := by
  simp [berRate, sign_ofNat_pos h]

/-- The sums of DEMOD are real numbers when the samples are (R171, R175). -/
theorem Passed.bpskSums_finite {p : Params} {r : Settings} {bits : List Byte} (h : Passed p r bits) (m : 0 < p.spbMin)
    (e : r.scheme = .bpsk) {rx : List RNum} (l : rx.length = r.ns r.scheme) (f : rx.all RNum.finite = true) :
    (bpskSums r rx).all RNum.finite = true := by
  simp only [bpskSums, List.all_eq_true, List.mem_map, List.mem_range]
  rintro x ⟨k, hk, rfl⟩
  refine iSum_finite (h.carried m) fun n _ hn => numAt_finite f ?_
  rw [l, e, ns_bpsk]
  simp only [Settings.sps, Scheme.bps, Nat.one_mul] at hn
  nlinarith

theorem Passed.qpskSums_finite {p : Params} {r : Settings} {bits : List Byte} (h : Passed p r bits) (m : 0 < p.spbMin)
    (e : r.scheme = .qpsk) {rx : List RNum} (l : rx.length = r.ns r.scheme) (f : rx.all RNum.finite = true) :
    (qpskSums r rx).all (fun q => q.1.finite && q.2.finite) = true := by
  simp only [qpskSums, List.all_eq_true, List.mem_map, List.mem_range]
  rintro x ⟨k, hk, rfl⟩
  have all : ∀ n, k * r.sps .qpsk ≤ n → n < k * r.sps .qpsk + r.sps .qpsk → (numAt rx n).finite = true := by
    intro n _ hn
    refine numAt_finite f ?_
    rw [l, e, Settings.ns]
    nlinarith
  simp [iSumOf, qSumOf, iSum_finite (h.carried m) all, qSum_finite (h.carried m) all]

/-! ### Where a stage can fail -/

/-- NOISE on real samples fails on a draw or not at all (R152, R157, R263). -/
theorem execNoise_range {s t : State} (f : s.signal.all RNum.finite = true) (n : 0 < s.run.ns s.run.scheme)
    (snr : s.run.snrdb.finite = true) (h : execNoise s = .next t) : t.phase = .demodulating ∨ t.cause = causeRngRange := by
  have pf := (power_finite n).trans f
  rw [execNoise, if_pos (by simp [pf, snrLinear_finite, snr]), if_pos (sigma_finite pf snr)] at h
  split at h
  · cases h; exact .inl rfl
  · rename_i c u e
    cases h
    rcases (noiseLoop_error e).1 with rfl | ⟨-, x, hx, b⟩
    · exact .inr rfl
    · exact absurd (List.all_eq_true.1 f x hx) (by simp [b])

/-- MAP of real ideal points fails on a draw, with noise, or not at all (R157, R192, R263). -/
theorem State.mapped_range {s : State} {ds : List Ideal} (f : ∀ d ∈ ds, d.sent.finite = true)
    (snr : s.run.noiseen = true → s.run.snrdb.finite = true) :
    (s.mapped ds).phase = .computing ∨ s.run.noiseen = true ∧ (s.mapped ds).cause = causeRngRange := by
  unfold State.mapped receivedPoints
  cases n : s.run.noiseen
  · rw [if_neg (by simp), if_pos (List.all_eq_true.2 f)]
    exact .inl rfl
  · rw [if_pos rfl]
    split
    · exact .inl rfl
    · rename_i c u e
      rcases (jitterLoop_error e).1 with rfl | ⟨-, b⟩
      · exact .inr ⟨rfl, rfl⟩
      · obtain ⟨d, hd, bad⟩ := b (dispersion_finite (snr n))
        exact absurd (f d hd) (by simp [bad])

end Sys2Proof.Machine
end

