-- ==== Sys2Proof/Machine/Script.lean ====
section
/-! DEFINITION. Host scripts (spec/30_encoding.md R101, R102): a line as the turn it stands for, and the pseudo-operations
that expand to a fixed list of lines. WAIT repeats a read until it shows Done or Failed, so it has no fixed list; the
sequencer's turns stand between the host's. -/
namespace Sys2Proof.Machine

/-- The turn in which the host presents an encoded operation. -/
def turnOf : Code → Turn
  | .cmd w => .command w
  | .bus h i v => .bus h i v
  | .stage _ => .sequencer

/-- `WR <REG>, <value>` (R101). -/
def scriptWr (r : Reg) (v : Val) : Turn := turnOf (encode (.wr r.index v))

/-- `RD <REG>` (R101). -/
def scriptRd (r : Reg) : Turn := turnOf (encode (.rd r.index))

/-- `WB <SPACE>[<i>], <value>` (R101). -/
def scriptWb (sp : Space) (i : Word) (v : Val) : Turn := turnOf (encode (.wb sp.id i v))

/-- `RB <SPACE>[<i>]` (R101). -/
def scriptRb (sp : Space) (i : Word) : Turn := turnOf (encode (.rb sp.id i))

/-- A pseudo-operation that is a write of a command word to CMD (R102). -/
def scriptCommand (w : Word) : Turn := scriptWr .cmd (.u32 w)

/-- The writes of BITS from element `k` on (R102). -/
def scriptBitsFrom (k : Nat) : List Bool → List Turn
  | [] => []
  | b :: bs => scriptWb .txbits (BitVec.ofNat 32 k) (.u32 (if b then 1 else 0)) :: scriptBitsFrom (k + 1) bs

/-- `BITS` (R102): the bits from element 0 on, then TXCOUNT. -/
def scriptBits (bits : List Bool) : List Turn :=
  scriptBitsFrom 0 bits ++ [scriptWr .txcount (.u32 (BitVec.ofNat 32 bits.length))]

/-- `CONFIG` with every field given (R102). -/
def scriptConfig (bitRate carrierFreq carrierAmplitude : RNum) (qpsk : Bool) (dataLength : Word) (noise : Bool)
    (snrDb : RNum) (spb : Word) : List Turn :=
  [ scriptWr .bitrate (.num bitRate),
    scriptWr .carfreq (.num carrierFreq),
    scriptWr .caramp (.num carrierAmplitude),
    scriptWr .modtype (.u32 (if qpsk then 1 else 0)),
    scriptWr .datalen (.u32 dataLength),
    scriptWr .noiseen (.u32 (if noise then 1 else 0)),
    scriptWr .snrdb (.num snrDb),
    scriptWr .spb (.u32 spb) ]

end Sys2Proof.Machine
end

