-- ==== Sys2Proof/Tests/Slice0.lean ====
section
/-! SUPPORT. The smoke test of WellFormed, words written out from the spec's encodings, one or two small steps for each
operation with values from spec/95 or by hand from the rule named, and for each statement with hypotheses a state and
operands that meet them. -/
namespace Sys2Proof.Tests

open Sys2Proof.Machine

set_option Elab.async false

/-! ### Well-formed operations (R94, R97) -/

theorem test_wr_num_refuses_word : (Instr.wr 0x10 (.u32 1)).wellFormed = false := by decide
theorem test_wr_word_refuses_num : (Instr.wr 0x14 (.num (.rat 4))).wellFormed = false := by decide
theorem test_wr_word_refuses_byte : (Instr.wr 0x05 (.u8 1)).wellFormed = false := by decide
theorem test_wr_reserved_refuses_byte : (Instr.wr 0x07 (.u8 1)).wellFormed = false := by decide
theorem test_wb_bits_refuses_num : (Instr.wb 0 0 (.num (.rat 1))).wellFormed = false := by decide
theorem test_wb_samples_refuses_word : (Instr.wb 2 0 (.u32 1)).wellFormed = false := by decide
theorem test_wb_coordinate_refuses_word : (Instr.wb 6 1 (.u32 1)).wellFormed = false := by decide
theorem test_wb_symbol_refuses_num : (Instr.wb 7 2 (.num (.rat 1))).wellFormed = false := by decide
theorem test_wb_reserved_refuses_byte : (Instr.wb 8 0 (.u8 1)).wellFormed = false := by decide
theorem test_wellFormed_accepts :
    (Instr.wr 0x10 (.num (.rat 1))).wellFormed = true ∧ (Instr.wr 0x14 (.u32 4)).wellFormed = true ∧
    (Instr.wb 0 0 (.u32 1)).wellFormed = true ∧ (Instr.wb 6 1 (.num (.rat 1))).wellFormed = true ∧
    (Instr.rb 15 0).wellFormed = true ∧ Instr.start.wellFormed = true := by decide

/-! ### Words of the encodings, field by field (R92 to R96) -/

/-- A CMD word: `zero ++ op`. -/
def cmdWord (op : BitVec 8) : Code := .cmd ((0b000000000000000000000000 : BitVec 24) ++ op)

/-- A register header: `kind ++ zero ++ idx`. -/
def regWord (kind : BitVec 2) (idx : BitVec 16) : Word := kind ++ (0b00000000000000 : BitVec 14) ++ idx

/-- A buffer header: `kind ++ space ++ zero`. -/
def bufWord (kind : BitVec 2) (space : BitVec 4) : Word := kind ++ space ++ (0b00000000000000000000000000 : BitVec 26)

theorem test_decode_nop : decode (cmdWord 0b00000000) = .ok .nop := by decide
theorem test_decode_start : decode (cmdWord 0b00000001) = .ok .start := by decide
theorem test_decode_abort : decode (cmdWord 0b00000010) = .ok .abort := by decide
theorem test_decode_clear : decode (cmdWord 0b00000011) = .ok .clear := by decide
theorem test_decode_rd : decode (.bus (regWord 0b00 0b0000000000000010) 0 (.u32 0)) = .ok (.rd 0x02) := by decide
theorem test_decode_wr : decode (.bus (regWord 0b01 0b0000000000010100) 0 (.u32 4)) = .ok (.wr 0x14 (.u32 4)) := by decide
theorem test_decode_rb : decode (.bus (bufWord 0b10 0b0011) 100 (.u32 0)) = .ok (.rb 3 100) := by decide
theorem test_decode_wb : decode (.bus (bufWord 0b11 0b0000) 2 (.u32 1)) = .ok (.wb 0 2 (.u32 1)) := by decide
theorem test_decode_validate : decode (.stage ((0b1 : BitVec 1) ++ (0b0001 : BitVec 4))) = .ok .validate := by decide
theorem test_decode_generate : decode (.stage ((0b0 : BitVec 1) ++ (0b0010 : BitVec 4))) = .ok .generate := by decide
theorem test_decode_modBpsk : decode (.stage ((0b0 : BitVec 1) ++ (0b0011 : BitVec 4))) = .ok .modBpsk := by decide
theorem test_decode_modQpsk : decode (.stage ((0b1 : BitVec 1) ++ (0b0011 : BitVec 4))) = .ok .modQpsk := by decide
theorem test_decode_noise : decode (.stage ((0b1 : BitVec 1) ++ (0b0100 : BitVec 4))) = .ok .noise := by decide
theorem test_decode_demodBpsk : decode (.stage ((0b0 : BitVec 1) ++ (0b0101 : BitVec 4))) = .ok .demodBpsk := by decide
theorem test_decode_demodQpsk : decode (.stage ((0b1 : BitVec 1) ++ (0b0101 : BitVec 4))) = .ok .demodQpsk := by decide
theorem test_decode_mapBpsk : decode (.stage ((0b0 : BitVec 1) ++ (0b0110 : BitVec 4))) = .ok .mapBpsk := by decide
theorem test_decode_mapQpsk : decode (.stage ((0b1 : BitVec 1) ++ (0b0110 : BitVec 4))) = .ok .mapQpsk := by decide
theorem test_decode_berBpsk : decode (.stage ((0b0 : BitVec 1) ++ (0b0111 : BitVec 4))) = .ok .berBpsk := by decide
theorem test_decode_berQpsk : decode (.stage ((0b1 : BitVec 1) ++ (0b0111 : BitVec 4))) = .ok .berQpsk := by decide

/-- The table's rows with a word that both 32-bit formats have (notes/assumptions/16.md). -/
theorem test_tableWord :
    decodeTableWord 32 0x00000003 = some .clear ∧ decodeTableWord 32 0x00000022 = some (.rd 0x22) ∧
    decodeTableWord 32 0x40000014 = some (.wr 0x14 (.u32 0)) ∧ decodeTableWord 32 0x98000000 = some (.rb 6 0) ∧
    decodeTableWord 32 0xC0000000 = some (.wb 0 0 (.u32 0)) ∧ decodeTableWord 8 0x13 = some .modQpsk ∧
    decodeTableWord 8 0x08 = none ∧ decodeTableWord 32 0x00010000 = none := by decide

/-! ### Small states -/

/-- The next state of an outcome, if it is one. -/
def nextOf (o : Host.Outcome State Fault Refusal) : Option State :=
  match o with
  | .next t => some t
  | _ => none

/-- A next state of which something is known. -/
theorem exists_next {α : Type} {o : Host.Outcome State Fault Refusal} {f : State → α} {a : α}
    (h : (nextOf o).map f = some a) : ∃ t, o = .next t ∧ f t = a := by
  cases o with
  | next t => exact ⟨t, rfl, by simpa [nextOf] using h⟩
  | fault r => cases h
  | refused r => cases h

/-- A small instance: SPB_MIN 2, LMAX 8, NSMAX 64. -/
def tiny : Params :=
  { spbMin := 2, maxPts := 100, lmax := 8, nsMax := 64, qscale := .rat 1, bitrateMax := none, carfreqMax := none,
    carampMax := none, snrMin := none, snrMax := none, abortSupported := true }

/-- `tiny` with every bound of R8 set, at the values of `cfgB`. -/
def tight : Params :=
  { tiny with bitrateMax := some (.rat 1), carfreqMax := some (.rat 1), carampMax := some (.rat 1), snrMin := some (.rat 0),
              snrMax := some (.rat 0) }

/-- A BPSK snapshot: three bits, four samples a bit, one carrier cycle a bit. -/
def cfgB : Settings :=
  { bitrate := .rat 1, carfreq := .rat 1, caramp := .rat 1, modtype := 0, datalen := 3, noiseen := false, snrdb := .rat 0,
    spb := 4, txcount := 3 }

/-- The same with noise and two samples a bit. -/
def cfgN : Settings := { cfgB with noiseen := true, spb := 2 }

/-- A QPSK snapshot: the four pairs of V-QM-2, four samples a bit. -/
def cfgQ : Settings := { cfgB with modtype := 1, datalen := 8, txcount := 8 }

def bitsB : List Byte := [1, 0, 1]

def bitsQ : List Byte := [0, 0, 0, 1, 1, 1, 1, 0]

/-- A state of the small instance in a phase, with a snapshot and results. -/
def inStage (p : Phase) (r : Settings) (res : Results) : State :=
  { State.reset with params := tiny, phase := p, run := r, cfg := r, res := res }

/-- The latched bits and nothing else. -/
def latched (bits : List Byte) : Results := { Results.absent with runbits := bits }

/-- A stream of values, all one half. -/
def halves (n : Nat) : Urng := { pos := 0, next := List.replicate n (.rat (1 / 2)) }

/-- A stage row runs as the first operation after reset: VALIDATE of the zero snapshot fails (R230; notes/assumptions/11.md,
17.md). -/
theorem test_fetch_stage : (nextOf (step (State.reset.withFetchWord 8 0x01))).map State.phase = some .failed := by
  decide +kernel

/-! ### One step of each operation -/

/-- A number lies strictly between two rational numbers, by exact arithmetic. -/
def between (lo hi : ℚ) (x : RNum) : Bool := (RNum.minus x (.rat lo)).isPos && (RNum.minus (.rat hi) x).isPos

/-- The comparison is that of the real numbers where no bounds settle it: `√2 − √2` is 0 and decides 1, `10^(−100)` is above
0, `−10^(−100)` below it (R12, R172; spec/93 I13). -/
theorem test_compare_real : decideBit (.sub (.sqrt (.rat 2)) (.sqrt (.rat 2))) = 1 ∧ (RNum.pow10 (.rat (-100))).isPos = true ∧
    (RNum.mul (.rat (-1)) (.pow10 (.rat (-100)))).nonneg = false := by
  refine ⟨?_, ?_, ?_⟩
  · have : (RNum.sub (.sqrt (.rat 2)) (.sqrt (.rat 2))).nonneg = true := by rw [RNum.nonneg_iff]; simp [RNum.val]
    rw [decideBit, if_pos this]
  · rw [RNum.isPos_iff]
    exact Real.rpow_pos_of_pos (by norm_num) _
  · rw [← Bool.not_eq_true, RNum.nonneg_iff, not_le]
    have : (0 : ℝ) < (10 : ℝ) ^ ((-100 : ℚ) : ℝ) := Real.rpow_pos_of_pos (by norm_num) _
    simp [RNum.val]

/-- V-CMD-1, in a phase of a run (R221). -/
theorem test_nop : exec .nop (inStage .computing cfgB (latched bitsB)) = .next (inStage .computing cfgB (latched bitsB)) := rfl

/-- V-CMD-10: START from Done (R222). -/
theorem test_start :
    (nextOf (exec .start { inStage .done cfgB (latched [1]) with txbits := [(0, 1), (1, 0), (2, 1)], snrv := true, cmderr := true })).map
      (fun t => (t.phase, t.run, t.res, t.snrv, t.cmderr)) = some (.validating, cfgB, latched bitsB, false, true) := by
  decide +kernel

/-- V-CMD-4: START in phase 5 is refused (R222). -/
theorem test_start_busy : (nextOf (exec .start (inStage .demodulating cfgB (latched bitsB)))).map State.status = some 0x215 := by
  decide +kernel

/-- V-CMD-6: ABORT in phase 5 (R223). -/
theorem test_abort :
    (nextOf (exec .abort (inStage .demodulating cfgB (latched bitsB)))).map (fun t => (t.status, t.cause, t.res, t.irq)) =
      some (0, 0x30, Results.absent, false) := by
  decide +kernel

/-- V-CMD-7: ABORT in Done changes nothing (R223). -/
theorem test_abort_done : exec .abort (inStage .done cfgB (latched bitsB)) = .next (inStage .done cfgB (latched bitsB)) := rfl

/-- V-CMD-9: CLEAR in Failed (R224). -/
theorem test_clear :
    (nextOf (exec .clear { inStage .failed cfgB Results.absent with cause := 0x15, verrmask := 0x20, accerr := true })).map
      (fun t => (t.status, t.cause, t.verrmask)) = some (0, 0, 0) := by
  decide +kernel

/-- V-CMD-5: CLEAR in phase 5 is refused (R224). -/
theorem test_clear_busy : (nextOf (exec .clear (inStage .demodulating cfgB (latched bitsB)))).map State.status = some 0x215 := by
  decide +kernel

/-- V-BUS-1 (R30). -/
theorem test_rd_id : (nextOf (exec (.rd 0x00) State.reset)).map State.rdata = some (some (.u32 0x53534E07)) := rfl

/-- V-BUS-4: a result register outside Done (R27, R70). -/
theorem test_rd_absent :
    (nextOf (exec (.rd 0x22) (inStage .computing cfgB { latched bitsB with berValue := some (.rat 0) }))).map
      (fun t => (t.rdata, t.accerr)) = some (none, true) := by
  decide +kernel

/-- V-BUS-8 (R35). -/
theorem test_wr_ien : (nextOf (exec (.wr 0x05 (.u32 0xFFFFFFFF)) State.reset)).map (fun t => t.readReg .ien) = some (some (.u32 3)) := by
  decide +kernel

/-- V-CMD-11: a word that is no command, written to CMD (R225). -/
theorem test_wr_cmd_illegal :
    (nextOf (exec (.wr 0x01 (.u32 0x101)) (inStage .failed cfgB Results.absent))).map State.status = some 0x249 := by
  decide +kernel

/-- V-BUS-11: TXBITS reads while a run is in flight (R65). -/
theorem test_rb_txbits :
    (nextOf (exec (.rb 0 7) { inStage .demodulating cfgB (latched bitsB) with txbits := [(7, 1)] })).map
      (fun t => (t.rdata, t.accerr)) = some (some (.u8 1), false) := by
  decide +kernel

/-- V-BUS-6: point 3, field 3 is `err`; the element after the last point is refused (R63, R66). -/
theorem test_rb_ctx :
    (nextOf (exec (.rb 6 15) (inStage .done cfgB { Results.absent with ctx := List.replicate 4 ⟨.rat 1, .rat 0, 1, 9⟩ }))).map
      State.rdata = some (some (.u32 9)) ∧
    (nextOf (exec (.rb 6 16) (inStage .done cfgB { Results.absent with ctx := List.replicate 4 ⟨.rat 1, .rat 0, 1, 9⟩ }))).map
      (fun t => (t.rdata, t.accerr)) = some (none, true) := by
  decide +kernel

/-- V-VAL-16: the value's low byte is stored (R65). -/
theorem test_wb : (nextOf (exec (.wb 0 2 (.u32 0x101)) (inStage .idle cfgB Results.absent))).map State.txbits = some [(2, 1)] := by
  decide +kernel

/-- V-BUS-7: a result buffer is read-only (R66). -/
theorem test_wb_mod : (nextOf (exec (.wb 3 0 (.num (.rat 0))) (inStage .done cfgB Results.absent))).map State.status = some 0x428 := by
  decide +kernel

/-- As V-VAL-8: five bits under QPSK (R230). -/
theorem test_validate_odd :
    (nextOf (exec .validate (inStage .validating { cfgQ with datalen := 5, txcount := 5 } (latched [1, 0, 1, 1, 0])))).map
      (fun t => (t.phase, t.verrmask, t.cause, t.res)) = some (.failed, 0x20, 0x15, Results.absent) := by
  decide +kernel

/-- As V-VAL-17: the lowest failed check is the cause (R230). -/
theorem test_validate_lowest :
    (nextOf (exec .validate (inStage .validating { cfgQ with bitrate := .rat 0, datalen := 5, txcount := 4 } (latched [1, 0, 1, 1])))).map
      (fun t => (t.verrmask, t.cause)) = some (0x121, 0x10) := by
  decide +kernel

/-- The grid of V-CG-5, `n/200` at Rb 2 and SPB 100, cut to SPB 4: `n/8` (R122). -/
theorem test_generate :
    (nextOf (exec .generate (inStage .generating { cfgB with bitrate := .rat 2 } (latched bitsB)))).map
      (fun t => (t.phase, t.res.time[11]?, t.res.nsamp, t.res.nsymb)) =
      some (.modulating, some (.rat (11 / 8)), some 12, some 3) := by
  decide +kernel

/-- The snapshot of V-BM-2: A 2, one carrier cycle a bit, SPB 8. -/
def cfgBM2 : Settings := { cfgB with bitrate := .rat 1000, carfreq := .rat 1000, caramp := .rat 2, spb := 8 }

/-- V-BM-2: samples 0, 2, 4, 6 and 8 are 2, 0, −2, 0, −2, sample 1 is 1.4142135624 (R131, R132). -/
theorem test_modBpsk :
    (nextOf (exec .modBpsk (inStage .modulating cfgBM2 (latched bitsB)))).map
      (fun t => ([0, 2, 4, 6, 8].map (numAt t.res.mod), between (14142135623 / 10000000000) (14142135625 / 10000000000) (numAt t.res.mod 1))) =
      some ([.rat 2, .rat 0, .rat (-2), .rat 0, .rat (-2)], true) := by
  decide +kernel

/-- The snapshot of V-QM-3: SPB 4, one carrier cycle a bit. -/
def cfgQM3 : Settings := { cfgQ with bitrate := .rat 1000, carfreq := .rat 1000, datalen := 4, txcount := 4 }

/-- V-QM-3, bits 10 01: the signs of samples 0 to 3 and 8 to 11, and sample 0 at 0.7071067812 (R141, R142). -/
theorem test_modQpsk :
    (nextOf (exec .modQpsk (inStage .modulating cfgQM3 (latched [1, 0, 0, 1])))).map
      (fun t => ([0, 1, 2, 3, 8, 9, 10, 11].map (fun n => (numAt t.res.mod n).isPos),
        between (7071067811 / 10000000000) (7071067813 / 10000000000) (numAt t.res.mod 0))) =
      some ([true, true, false, false, false, false, true, true], true) := by
  decide +kernel

/-- V-GNI-3 with `P` taken as its 0.5: `RX[0]` is 0.7367231152 (R154, R156). -/
theorem test_noise_sample :
    between (7367231151 / 10000000000) (7367231153 / 10000000000)
      (RNum.plus (.rat 1) (RNum.times (noiseSigma { cfgN with snrdb := .rat 10 } (.rat (1 / 2))) (gauss (.rat (1 / 2)) (.rat (1 / 2))))) =
      true := by
  decide +kernel

/-- V-GNI-5: a first draw of 0, or of 1 (R157). -/
theorem test_noise_range :
    [RNum.rat 0, .rat 1].map (fun u =>
      (nextOf (exec .noise { inStage .noiseInjection cfgN { latched bitsB with mod := List.replicate 6 (.rat 1) } with
        urng := { pos := 5, next := [u] } })).map (fun t => (t.phase, t.cause, t.urng.pos, t.res))) =
      [some (.failed, 0x20, 6, Results.absent), some (.failed, 0x20, 6, Results.absent)] := by
  decide +kernel

/-- V-MFD-2: RX is the waveform of V-BM-2 (R171). -/
theorem test_demodBpsk :
    (nextOf (exec .demodBpsk (inStage .demodulating cfgBM2 { latched [] with rx := bpskWave cfgBM2 bitsB }))).map
      (fun t => (t.phase, t.res.rxbits)) = some (.mapping, [1, 0, 1]) := by
  decide +kernel

/-- V-MFD-8: a sum of exactly 0 decides 1 (R172). -/
theorem test_demodBpsk_zero :
    (nextOf (exec .demodBpsk (inStage .demodulating cfgB { latched [] with rx := List.replicate 12 (.rat 0) }))).map
      (fun t => t.res.rxbits) = some [1, 1, 1] := by
  decide +kernel

/-- V-MFD-5: RX is the waveform of V-QM-3 (R175, R176). -/
theorem test_demodQpsk :
    (nextOf (exec .demodQpsk (inStage .demodulating cfgQM3 { latched [] with rx := qpskWave cfgQM3 [1, 0, 0, 1] }))).map
      (fun t => (t.phase, t.res.rxbits)) = some (.mapping, [1, 0, 0, 1]) := by
  decide +kernel

/-- V-CD-3, its first two points, the second received wrongly (R192, R194, R198). -/
theorem test_mapBpsk :
    (nextOf (exec .mapBpsk (inStage .mapping { cfgB with datalen := 2 } { latched [1, 0] with rxbits := [1, 1] }))).map
      (fun t => (t.res.npts, t.res.ctx, t.res.crx)) =
      some (some 2, [⟨.rat 1, .rat 0, 1, 0⟩, ⟨.rat (-1), .rat 0, 0, 0⟩], [⟨.rat 1, .rat 0, 1, 0⟩, ⟨.rat (-1), .rat 0, 0, 1⟩]) := by
  decide +kernel

/-- V-CD-4, with V-CD-7's error in the first symbol (R193, R194, R198). -/
theorem test_mapQpsk :
    (nextOf (exec .mapQpsk (inStage .mapping cfgQ { latched bitsQ with rxbits := [0, 1, 0, 1, 1, 1, 1, 0] }))).map
      (fun t => (t.res.npts, t.res.ctx.map Point.sym, t.res.crx)) =
      some (some 4, [4, 5, 7, 6],
        [⟨.rat 1, .rat 1, 4, 1⟩, ⟨.rat (-1), .rat 1, 5, 0⟩, ⟨.rat (-1), .rat (-1), 7, 0⟩, ⟨.rat 1, .rat (-1), 6, 0⟩]) := by
  decide +kernel

/-- V-CD-1 (R196). -/
theorem test_dispersion :
    [(0 : ℚ), 10, 15, 27, 30, 40, -30].map (fun q => dispersion { cfgN with snrdb := .rat q }) =
      [.rat 1, .rat (2 / 3), .rat (1 / 2), .rat (1 / 10), .rat (1 / 10), .rat (1 / 10), .rat 2] := by
  decide +kernel

/-- V-BC-2 (R211, R213). -/
theorem test_berBpsk :
    (nextOf (exec .berBpsk (inStage .computing { cfgB with datalen := 4 } { latched [1, 0, 1, 0] with rxbits := [0, 0, 0, 0] }))).map
      (fun t => (t.status, t.res.berErrcnt, t.res.berTotal, t.res.berValue)) =
      some (0x28, some 2, some 4, some (.rat (1 / 2))) := by
  decide +kernel

/-- V-BC-9: a noisy run attaches its SNR (R214). -/
theorem test_berBpsk_snr :
    (nextOf (exec .berBpsk (inStage .computing { cfgN with snrdb := .rat (-10) } { latched bitsB with rxbits := bitsB }))).map
      (fun t => (t.status, t.res.berSnrdb)) = some (0x128, some (.rat (-10))) := by
  decide +kernel

/-- V-BC-4: one wrong bit of a pair counts 2 (R212). -/
theorem test_berQpsk :
    (nextOf (exec .berQpsk (inStage .computing { cfgQ with datalen := 4 } { latched [0, 0, 1, 1] with rxbits := [0, 1, 1, 1] }))).map
      (fun t => (t.status, t.res.berErrcnt, t.res.berTotal, t.res.berValue)) =
      some (0x28, some 2, some 4, some (.rat (1 / 2))) := by
  decide +kernel

/-! ### States that meet the hypotheses of the statements -/

/-- A run of the small instance that has just been accepted. -/
def started (r : Settings) (bits : List Byte) : State := inStage .validating r (latched bits)

/-- The results of a finished run whose received samples are `rx` and whose points got no dispersion. -/
def finishedRes (r : Settings) (bits : List Byte) (rx : List RNum) : Results :=
  { runbits := bits, time := timeGrid r, mod := waveOf r bits, rx := rx, rxbits := bitsOf r rx,
    ctx := (idealsOf tiny r { latched bits with rxbits := bitsOf r rx }).map Ideal.sent,
    crx := (idealsOf tiny r { latched bits with rxbits := bitsOf r rx }).map (fun d => d.received (.rat 0) (.rat 0)),
    berErrcnt := some (BitVec.ofNat 32 (errorsOf r { latched bits with rxbits := bitsOf r rx })),
    berTotal := some r.datalen,
    berValue := some (berRate r (errorsOf r { latched bits with rxbits := bitsOf r rx })),
    berSnrdb := if r.noiseen then some r.snrdb else none,
    nsamp := some (BitVec.ofNat 32 (r.ns r.scheme)), nsymb := some (BitVec.ofNat 32 (r.nsym r.scheme)),
    npts := some (BitVec.ofNat 32 (r.np tiny r.scheme)) }

/-- The state at the end of a run whose received samples are the modulated ones. -/
def finished (r : Settings) (bits : List Byte) : State :=
  { inStage .done r (finishedRes r bits (waveOf r bits)) with snrv := r.noiseen }

theorem started_inv (r : Settings) (bits : List Byte) (u : Urng) (h : bits.length = min r.txcount.toNat 8) :
    ({ started r bits with urng := u } : State).Inv where
  txForm := rfl
  txBelow := by intro c hc; cases hc
  work := rfl
  causes := ⟨fun _ => ⟨rfl, rfl⟩, (fun h => by cases h), (fun h => by cases h)⟩
  snrv := rfl
  noisy := by intro h; cases h
  produced :=
    { latched := fun _ => ⟨h⟩
      noRunbits := fun h => by cases h
      validated := fun h => by cases h
      generated := fun h => by cases h
      noTime := fun _ => ⟨rfl, rfl, rfl⟩
      modulated := fun h => by cases h
      noMod := fun _ => rfl
      received := fun h => by cases h
      noRx := fun _ => rfl
      demodulated := fun h => by cases h
      noRxbits := fun _ => rfl
      mapped := fun h => by cases h
      noPoints := fun _ => ⟨rfl, rfl, rfl⟩
      counted := fun h => by cases h
      noBer := fun _ => ⟨rfl, rfl, rfl, rfl⟩ }

/-- What of a finished state is found by evaluation. -/
def finishedChecks (r : Settings) (bits : List Byte) : Bool :=
  bits.length == min r.txcount.toNat 8 && (finished r bits).gateMask == 0 && (timeGrid r).all RNum.finite &&
    (waveOf r bits).all RNum.finite && (finished r bits).res.crx.all Point.finite &&
    (berRate r (errorsOf r (finished r bits).res)).finite

theorem idealsOf_latched (r : Settings) (bits : List Byte) (rx : List RNum) :
    idealsOf tiny r (finishedRes r bits rx) = idealsOf tiny r { latched bits with rxbits := bitsOf r rx } := by
  unfold idealsOf
  cases r.scheme <;> rfl

theorem errorsOf_latched (r : Settings) (bits : List Byte) (rx : List RNum) :
    errorsOf r (finishedRes r bits rx) = errorsOf r { latched bits with rxbits := bitsOf r rx } := by
  unfold errorsOf
  cases r.scheme <;> rfl

theorem idealsOf_length (p : Params) (r : Settings) (res : Results) : (idealsOf p r res).length = r.np p r.scheme := by
  unfold idealsOf
  cases r.scheme <;> simp

theorem finished_inv (r : Settings) (bits : List Byte) (h : finishedChecks r bits = true) : (finished r bits).Inv := by
  simp only [finishedChecks, Bool.and_eq_true, beq_iff_eq] at h
  obtain ⟨⟨⟨⟨⟨h1, h2⟩, h3⟩, h4⟩, h5⟩, h6⟩ := h
  exact
  { txForm := rfl
    txBelow := by intro c hc; cases hc
    work := rfl
    causes := ⟨fun _ => ⟨rfl, rfl⟩, (fun h => by cases h), (fun h => by cases h)⟩
    snrv := rfl
    noisy := by intro h; cases h
    produced :=
      { latched := fun _ => ⟨h1⟩
        noRunbits := fun h => by cases h
        validated := fun _ => ⟨h2⟩
        generated := fun _ => ⟨rfl, h3, rfl, rfl⟩
        noTime := fun h => by cases h
        modulated := fun _ => ⟨rfl, h4⟩
        noMod := fun h => by cases h
        received := fun _ => ⟨waveOf_length r bits, h4, fun _ => rfl⟩
        noRx := fun h => by cases h
        demodulated := fun _ => ⟨rfl⟩
        noRxbits := fun h => by cases h
        mapped := fun _ =>
          { ctx := congrArg (List.map Ideal.sent) (idealsOf_latched r bits (waveOf r bits)).symm
            crxLength := by
              show (List.map _ (idealsOf tiny r _)).length = _
              rw [List.length_map, idealsOf_length]; rfl
            crxFinite := h5
            crxFlags := by
              show List.map Point.err (List.map _ (idealsOf tiny r _)) = List.map _ (idealsOf tiny r (finishedRes r bits (waveOf r bits)))
              rw [idealsOf_latched, List.map_map]; rfl
            crxSym := by
              show List.map Point.sym (List.map _ (idealsOf tiny r _)) = List.map _ (idealsOf tiny r (finishedRes r bits (waveOf r bits)))
              rw [idealsOf_latched, List.map_map]; rfl
            crxIdeal := fun _ => congrArg (List.map _) (idealsOf_latched r bits (waveOf r bits)).symm
            npts := rfl }
        noPoints := fun h => by cases h
        counted := fun _ =>
          { errcnt := congrArg (fun n => some (BitVec.ofNat 32 n)) (errorsOf_latched r bits (waveOf r bits)).symm
            total := rfl
            value := congrArg (fun n => some (berRate r n)) (errorsOf_latched r bits (waveOf r bits)).symm
            finite := h6
            snr := rfl }
        noBer := fun h => by cases h } }

theorem startedB_inv : (started cfgB bitsB).Inv := started_inv _ _ State.reset.urng rfl
theorem startedN_inv : (started cfgN bitsB).Inv := started_inv _ _ State.reset.urng rfl
theorem finishedB_inv : (finished cfgB bitsB).Inv := finished_inv _ _ (by decide +kernel)
theorem finishedN_inv : (finished cfgN bitsB).Inv := finished_inv _ _ (by decide +kernel)
theorem finishedQ_inv : (finished cfgQ bitsQ).Inv := finished_inv _ _ (by decide +kernel)

/-! ### Witnesses: encoding, the step, reset -/

theorem witness_EncodeThenDecode :
    (Instr.wr 0x10 (.num (.rat 1))).wellFormed = true ∧ (Instr.wb 0 0xFFFFFFFF (.u32 0)).wellFormed = true ∧
    Instr.berQpsk.wellFormed = true := by decide

theorem witness_DecodeThenEncode :
    decode (.cmd 3) = .ok .clear ∧ decode (.bus 0x00000022 7 (.u8 1)) = .ok (.rd 0x22) ∧
    decode (.bus 0xC0000000 0xFFFFFFFF (.u32 1)) = .ok (.wb 0 0xFFFFFFFF (.u32 1)) ∧
    decode (.stage 0b10001) = .ok .validate ∧ decode (.stage 0b10111) = .ok .berQpsk := by decide

theorem witness_RefusedEncodings :
    decode (.cmd 4) = .error .illegalCommand ∧ decode (.cmd 0x100) = .error .illegalCommand ∧
    decode (.bus 0x00010000 0 (.u32 0)) = .error .nonzeroField ∧ decode (.bus 0x82000000 0 (.u32 0)) = .error .nonzeroField ∧
    decode (.stage 0b10000) = .error .noStage ∧ decode (.stage 0b01000) = .error .noStage := by decide

theorem witness_StepRunsDecoded :
    decode (.cmd 1) = .ok .start ∧ decode (.bus 0x40000014 0 (.u32 4)) = .ok (.wr 0x14 (.u32 4)) ∧
    (Instr.wr 0x14 (.u32 4)).wellFormed = true ∧ Instr.start.wellFormed = true ∧ Instr.validate.wellFormed = true ∧
    (started cfgB bitsB).busy = true ∧ decode (.stage (started cfgB bitsB).selector) = .ok .validate ∧
    (started cfgB bitsB).turns = [] ∧ ({ started cfgB bitsB with turns := [.sequencer] } : State).turns = [.sequencer] := by
  decide +kernel

theorem witness_StepOnIllegalEncoding :
    decode (.cmd 4) = .error .illegalCommand ∧ decode (.bus 0x00010000 0 (.u32 0)) = .error .nonzeroField ∧
    decode (.bus 0x40010000 0 (.u32 0)) = .error .nonzeroField ∧
    ({ started cfgB bitsB with turns := [.command 4] } : State).turns = [.command 4] := by decide +kernel

theorem witness_SelectorNamesStage :
    (inStage .modulating cfgB (latched bitsB)).phase = .modulating ∧ (inStage .modulating cfgB (latched bitsB)).run.modtype = 0 ∧
    (inStage .computing cfgQ (latched bitsQ)).phase = .computing ∧ (inStage .computing cfgQ (latched bitsQ)).run.modtype = 1 := by
  decide +kernel

theorem witness_RestingPhases_rest : (finished cfgB bitsB).phase = .done ∧ (finished cfgB bitsB).turns = [] := ⟨rfl, rfl⟩

/-- CLEAR, written to CMD through the bus, from Done. -/
theorem witness_RestingPhases_leave :
    ∃ t, step { finished cfgB bitsB with turns := [.bus 0x40000001 0 (.u32 3)] } = .next t ∧ t.phase ≠ .done := by
  obtain ⟨t, h, e⟩ := exists_next (f := State.phase) (a := .idle)
    (o := step { finished cfgB bitsB with turns := [.bus 0x40000001 0 (.u32 3)] }) (by decide +kernel)
  exact ⟨t, h, by rw [e]; decide⟩

theorem witness_PhaseOrder : ∃ t, step (started cfgB bitsB) = .next t ∧ t.phase = .generating :=
  exists_next (by decide +kernel)

theorem witness_ResetInput : ({ finished cfgB bitsB with turns := [.reset] } : State).turns = [.reset] := rfl

theorem witness_StartAfterReset : tiny.spbMin ≤ 100 ∧ ({ tiny with spbMin := 100 } : Params).spbMin ≤ 100 := by decide

/-! ### Witnesses: commands, registers, buffers -/

theorem witness_StartRule : State.reset.phase = .idle ∧ (finished cfgB bitsB).phase = .done ∧
    (inStage .failed cfgB Results.absent).phase = .failed ∧ (started cfgB bitsB).busy = true ∧
    (inStage .computing cfgB (latched bitsB)).busy = true := by decide +kernel

theorem witness_StartRule_bits : 7 < min ({ cfgQ with txcount := 9 } : Settings).txcount.toNat tiny.lmax := by decide

theorem witness_AbortRule : (started cfgB bitsB).params.abortSupported = true ∧ (started cfgB bitsB).busy = true ∧
    (finished cfgB bitsB).params.abortSupported = true ∧ (finished cfgB bitsB).phase = .done ∧
    ({ started cfgB bitsB with params := { tiny with abortSupported := false } } : State).params.abortSupported = false := by
  decide +kernel

theorem witness_ClearRule : (finished cfgB bitsB).phase = .done ∧ (started cfgB bitsB).busy = true := by decide +kernel

theorem witness_IllegalCommandRule : 4 ≤ (4 : Word).toNat ∧ 4 ≤ (0xFFFFFFFF : Word).toNat ∧
    ({ started cfgB bitsB with params := { tiny with abortSupported := false }, turns := [.command 2] } : State).params.abortSupported
      = false := by decide

theorem witness_CmdRegister : decode (.cmd 0) = .ok .nop ∧ decode (.cmd 3) = .ok .clear := by decide

theorem witness_RefusedRegisterAccesses : (0x26 : BitVec 16) ∈ [0x00, 0x02, 0x03, 0x04, 0x20, 0x21, 0x22, 0x23, 0x24, 0x25, 0x26] ∧
    (0x27 : BitVec 16) ∉ [0x00, 0x01, 0x02, 0x03, 0x04, 0x05, 0x06, 0x10, 0x11, 0x12, 0x13, 0x14, 0x15, 0x16, 0x17, 0x20, 0x21,
      0x22, 0x23, 0x24, 0x25, 0x26] ∧
    (0x26 : BitVec 16) ∈ [0x20, 0x21, 0x22, 0x23, 0x24, 0x25, 0x26] ∧ (started cfgB bitsB).phase ≠ .done ∧
    (finished cfgB bitsB).snrv = false ∧
    (0x17 : BitVec 16) ∈ [0x05, 0x06, 0x10, 0x11, 0x12, 0x13, 0x14, 0x15, 0x16, 0x17] := by decide +kernel

theorem witness_TxbitsRule : (0 : Word).toNat < (started cfgB bitsB).params.lmax ∧ (7 : Word).toNat < (started cfgB bitsB).params.lmax := by
  decide +kernel

theorem witness_WbFrame : (started cfgB bitsB).storeIndex 0 7 = some 7 ∧ (started cfgB bitsB).storeIndex 0 8 = none ∧
    (started cfgB bitsB).storeIndex 1 0 = none ∧ (started cfgB bitsB).storeIndex 8 0 = none := by decide +kernel

theorem witness_RefusedBufferAccesses : 8 ≤ (8 : BitVec 4).toNat ∧ (started cfgB bitsB).params.lmax ≤ (8 : Word).toNat ∧
    1 ≤ (1 : BitVec 4).toNat ∧ (started cfgB bitsB).phase ≠ .done := by decide +kernel

theorem witness_RefusedBufferAccesses_length : (finished cfgB bitsB).Inv ∧ (finished cfgB bitsB).phase = .done ∧
    (finished cfgB bitsB).validLength .mod ≤ (12 : Word).toNat ∧ (finished cfgB bitsB).validLength .crx ≤ (12 : Word).toNat :=
  ⟨finishedB_inv, rfl, by decide +kernel, by decide +kernel⟩

theorem witness_BuffersInDone : (finished cfgB bitsB).Inv ∧ (finished cfgB bitsB).phase = .done ∧
    (2 : Word).toNat < (finished cfgB bitsB).validLength .runbits ∧ (11 : Word).toNat < (finished cfgB bitsB).validLength .time ∧
    (11 : Word).toNat < (finished cfgB bitsB).validLength .mod ∧ (11 : Word).toNat < (finished cfgB bitsB).validLength .rx ∧
    (2 : Word).toNat < (finished cfgB bitsB).validLength .rxbits ∧ (11 : Word).toNat < (finished cfgB bitsB).validLength .ctx ∧
    (11 : Word).toNat < (finished cfgB bitsB).validLength .crx :=
  ⟨finishedB_inv, rfl, by decide +kernel⟩

theorem tiny_fits : tiny.Fits :=
  ⟨by decide, by decide, by decide, by decide, by decide⟩

theorem witness_RegistersInDone : (finished cfgB bitsB).Inv ∧ (finished cfgB bitsB).params.Fits ∧
    (finished cfgB bitsB).phase = .done ∧ (finished cfgB bitsB).run.noiseen = false := ⟨finishedB_inv, tiny_fits, rfl, rfl⟩

theorem witness_RegistersInDone_noise : (finished cfgN bitsB).Inv ∧ (finished cfgN bitsB).params.Fits ∧
    (finished cfgN bitsB).phase = .done ∧ (finished cfgN bitsB).run.noiseen = true := ⟨finishedN_inv, tiny_fits, rfl, rfl⟩

theorem witness_ReadsHaveNoSideEffect : (∃ idx, Instr.rd 0x26 = .rd idx) ∧ ∃ space j, Instr.rb 7 0 = .rb space j :=
  ⟨⟨_, rfl⟩, _, _, rfl⟩

/-! ### Witnesses: the gate and the stages -/

/-- `started` in the instance with every bound set. -/
def startedT (r : Settings) (bits : List Byte) : State := { started r bits with params := tight }

theorem holds_of_checks {p : Params} {r : Settings} {bits : List Byte} (l : bits.length = min r.txcount.toNat p.lmax)
    (c : (checks p r bits).all id = true) (i : Fin 10) : CheckHolds p r bits i := by
  refine (checks_iff l i).1 ?_
  have hi : (i : Nat) < (checks p r bits).length := i.isLt
  rw [Fin.getElem?_fin, List.getElem?_eq_getElem hi]
  simpa using List.all_eq_true.1 c _ (List.getElem_mem hi)

theorem witness_ValidationGate_pass : (startedT cfgB bitsB).Latched ∧
    ∀ i, CheckHolds (startedT cfgB bitsB).params (startedT cfgB bitsB).run (startedT cfgB bitsB).res.runbits i :=
  ⟨⟨rfl⟩, holds_of_checks rfl (by decide +kernel)⟩

/-- Check 9 alone fails: a third bit that is 2. -/
theorem witness_ValidationGate_fail : (startedT cfgB [1, 0, 2]).Latched ∧
    ¬ CheckHolds (startedT cfgB [1, 0, 2]).params (startedT cfgB [1, 0, 2]).run [1, 0, 2] 9 ∧
    ∀ j : Fin 10, j < 9 → CheckHolds (startedT cfgB [1, 0, 2]).params (startedT cfgB [1, 0, 2]).run [1, 0, 2] j := by
  refine ⟨⟨rfl⟩, ?_, ?_⟩
  · intro h
    have := (checks_iff rfl 9).2 h
    revert this
    decide +kernel
  · intro j hj
    refine (checks_iff rfl j).1 ?_
    revert j
    decide +kernel

/-- Check 0 alone fails, on the bound. -/
theorem witness_ValidationGate_fail_first : (startedT { cfgB with bitrate := .rat 2 } bitsB).Latched ∧
    ¬ CheckHolds tight (startedT { cfgB with bitrate := .rat 2 } bitsB).run bitsB 0 := by
  refine ⟨⟨rfl⟩, fun c => ?_⟩
  have := (checks_iff rfl 0).2 c
  revert this
  decide +kernel

theorem carriedB : cfgB.Carried where
  spb := by decide
  finite := rfl
  positive := by simp [cfgB, RNum.val]
  carfreq := rfl

theorem carriedQ : cfgQ.Carried := { carriedB with }

theorem witness_GenerateTimeGrid : (inStage .generating cfgB (latched bitsB)).run.Timed := carriedB.toTimed

theorem witness_ModBpskWave : (inStage .modulating cfgB (latched bitsB)).run.Carried ∧
    (inStage .modulating cfgB (latched bitsB)).run.caramp.finite = true ∧ bitsB[11 / cfgB.spb.toNat]? = some 1 ∧
    bitsB[4 / cfgB.spb.toNat]? = some 0 := ⟨carriedB, rfl, rfl, rfl⟩

theorem witness_ModQpskWave : (inStage .modulating cfgQ (latched bitsQ)).run.Carried ∧
    (inStage .modulating cfgQ (latched bitsQ)).run.caramp.finite = true ∧
    (∀ k, k < (inStage .modulating cfgQ (latched bitsQ)).run.len → bitsQ[k]? = some 0 ∨ bitsQ[k]? = some 1) ∧
    2 * 3 + 1 < cfgQ.len ∧ bitsQ[2 * 3]? = some 1 ∧ bitsQ[2 * 3 + 1]? = some 0 := by
  refine ⟨carriedQ, rfl, ?_, by decide, rfl, rfl⟩
  decide +kernel

/-- The last symbol of an odd length (V-QM-4). -/
theorem witness_ModQpskWave_odd : ({ cfgB with modtype := 1 } : Settings).Carried ∧
    (∀ k, k < cfgB.len → [(1 : Byte), 1, 1][k]? = some 0 ∨ [(1 : Byte), 1, 1][k]? = some 1) ∧
    1 < (cfgB.len + 1) / 2 ∧ ¬ 2 * 1 + 1 < cfgB.len ∧ [(1 : Byte), 1, 1][2 * 1]? = some 1 :=
  ⟨{ carriedB with }, by decide +kernel, by decide, by decide, rfl⟩

theorem witness_BypassCopy : (inStage .modulating cfgB (latched bitsB)).run.noiseen = false ∧
    ∃ t, exec .modBpsk (inStage .modulating cfgB (latched bitsB)) = .next t ∧ t.phase ≠ .failed := by
  obtain ⟨t, h, e⟩ := exists_next (f := State.phase) (a := .demodulating)
    (o := exec .modBpsk (inStage .modulating cfgB (latched bitsB))) (by decide +kernel)
  exact ⟨rfl, t, h, by rw [e]; decide⟩

/-- A state at NOISE with a waveform and a stream of halves. -/
def atNoise (wave : List RNum) (u : List RNum) : State :=
  { inStage .noiseInjection cfgN { latched bitsB with mod := wave } with urng := { pos := 0, next := u } }

theorem halves_value : ∀ k, k < 18 → (halves 18).value k = .rat (1 / 2) := by decide +kernel

theorem halves_inUnit : inUnit (.rat (1 / 2)) = true := by decide +kernel

theorem halves_draws {k : Nat} (h : k < 18) : inUnit ((halves 18).value k) = true := by
  rw [halves_value _ h]
  exact halves_inUnit

theorem witness_NoiseSamples : ∃ s : State, s = atNoise (bpskWave cfgN bitsB) (halves 18).next ∧ 6 = s.run.ns s.run.scheme ∧ 0 < 6 ∧
    s.res.mod.length = 6 ∧ s.res.mod.all RNum.finite = true ∧ s.run.snrdb.finite = true ∧
    (∀ k, k < 2 * 6 → inUnit (s.urng.value k) = true) ∧ s.power.isPos = true :=
  ⟨_, rfl, by decide +kernel, by decide, by decide +kernel, by decide +kernel, rfl, fun _ h => halves_draws (by omega),
    by decide +kernel⟩

/-- The clamp of R155 (V-GNI-6). -/
theorem witness_NoiseSamples_clamp : ∃ s : State, s = atNoise (List.replicate 6 (.rat 0)) (halves 18).next ∧
    6 = s.run.ns s.run.scheme ∧ s.res.mod.length = 6 ∧ s.res.mod.all RNum.finite = true ∧ s.run.snrdb.finite = true ∧
    (∀ k, k < 2 * 6 → inUnit (s.urng.value k) = true) ∧ s.power.isPos = false :=
  ⟨_, rfl, by decide +kernel, by decide +kernel, by decide +kernel, rfl, fun _ h => halves_draws (by omega), by decide +kernel⟩

theorem witness_NoiseRangeFailure_first : ∃ s : State, s = atNoise (bpskWave cfgN bitsB) [.rat 0] ∧ 0 < 2 * s.run.ns s.run.scheme ∧
    s.res.mod.length = s.run.ns s.run.scheme ∧ s.res.mod.all RNum.finite = true ∧ s.run.snrdb.finite = true ∧
    inUnit (s.urng.value 0) = false :=
  ⟨_, rfl, by decide +kernel, by decide +kernel, by decide +kernel, rfl, by decide +kernel⟩

theorem witness_NoiseRangeFailure_last : ∃ s : State, s = atNoise (bpskWave cfgN bitsB) (List.replicate 11 (.rat (1 / 2)) ++ [.rat 1]) ∧
    11 < 2 * s.run.ns s.run.scheme ∧ s.res.mod.length = s.run.ns s.run.scheme ∧ s.res.mod.all RNum.finite = true ∧
    s.run.snrdb.finite = true ∧ (∀ j, j < 11 → inUnit (s.urng.value j) = true) ∧ inUnit (s.urng.value 11) = false :=
  ⟨_, rfl, by decide +kernel, by decide +kernel, by decide +kernel, rfl, by decide +kernel, by decide +kernel⟩

/-- Received samples whose block sums are 2, 0 and −2. -/
def rxB : List RNum := [1, 0, -1, 0, 0, 0, 0, 0, -1, 0, 1, 0].map RNum.rat

theorem sum_rxB (k : Nat) {q : ℚ} (h : iSum cfgB rxB (k * cfgB.spb.toNat) cfgB.spb.toNat = .rat q) :
    inPhase cfgB rxB (k * cfgB.spb.toNat) cfgB.spb.toNat = q := by
  rw [← iSum_val, h]
  rfl

theorem witness_DemodBpskDecision : ∃ s : State, s = inStage .demodulating cfgB { latched bitsB with rx := rxB } ∧ s.run.Carried ∧
    (∀ n, n < s.run.len * s.run.spb.toNat → (numAt s.res.rx n).finite = true) ∧
    inPhase s.run s.res.rx (0 * s.run.spb.toNat) s.run.spb.toNat = 2 ∧
    inPhase s.run s.res.rx (1 * s.run.spb.toNat) s.run.spb.toNat = 0 ∧
    inPhase s.run s.res.rx (2 * s.run.spb.toNat) s.run.spb.toNat = -2 := by
  refine ⟨_, rfl, carriedB, by decide +kernel, ?_, ?_, ?_⟩
  · exact (sum_rxB 0 (q := 2) (by decide +kernel)).trans (by norm_num)
  · exact (sum_rxB 1 (q := 0) (by decide +kernel)).trans (by norm_num)
  · exact (sum_rxB 2 (q := -2) (by decide +kernel)).trans (by norm_num)

/-- Received samples whose block sums are (0, 0), (−1, 1), (−1, −1) and (1, −1). -/
def rxQ : List RNum :=
  ([0, 0, 0, 0, 0, 0, 0, 0, -1, -1, 0, 0, 0, 0, 0, 0, -1, 1, 0, 0, 0, 0, 0, 0, 1, 1, 0, 0, 0, 0, 0, 0] : List ℚ).map RNum.rat

theorem sums_rxQ (k : Nat) {i q : ℚ} (h : iSum cfgQ rxQ (k * (2 * cfgQ.spb.toNat)) (2 * cfgQ.spb.toNat) = .rat i)
    (h' : qSum cfgQ rxQ (k * (2 * cfgQ.spb.toNat)) (2 * cfgQ.spb.toNat) = .rat q) :
    inPhase cfgQ rxQ (k * (2 * cfgQ.spb.toNat)) (2 * cfgQ.spb.toNat) = i ∧
    quadrature cfgQ rxQ (k * (2 * cfgQ.spb.toNat)) (2 * cfgQ.spb.toNat) = q := by
  rw [← iSum_val, ← qSum_val, h, h']
  exact ⟨rfl, rfl⟩

theorem witness_DemodQpskDecision : ∃ s : State, s = inStage .demodulating cfgQ { latched bitsQ with rx := rxQ } ∧ s.run.Carried ∧
    s.run.len % 2 = 0 ∧ ∀ n, n < s.run.len * s.run.spb.toNat → (numAt s.res.rx n).finite = true :=
  ⟨_, rfl, carriedQ, by decide, by decide +kernel⟩

/-- Each clause, the first one on both its boundaries. -/
theorem witness_DemodQpskDecision_clauses : ∀ p ∈ [(0, 0, 0), (1, -1, 1), (2, -1, -1), (3, 1, -1)],
    inPhase cfgQ rxQ (p.1 * (2 * cfgQ.spb.toNat)) (2 * cfgQ.spb.toNat) = (p.2.1 : ℚ) ∧
    quadrature cfgQ rxQ (p.1 * (2 * cfgQ.spb.toNat)) (2 * cfgQ.spb.toNat) = (p.2.2 : ℚ) := by
  simp only [List.forall_mem_cons]
  refine ⟨?_, ?_, ?_, ?_, by simp⟩
  · exact sums_rxQ 0 (by decide +kernel) (by decide +kernel)
  · exact sums_rxQ 1 (by decide +kernel) (by decide +kernel)
  · exact sums_rxQ 2 (by decide +kernel) (by decide +kernel)
  · exact sums_rxQ 3 (by decide +kernel) (by decide +kernel)

/-- The carrier of V-MFD-7, two samples a cycle. -/
theorem witness_QpskBlindCarrier : ∃ s : State,
    s = inStage .demodulating { cfgQ with carfreq := .rat 2 } { latched bitsQ with rx := rxQ } ∧ s.run.Carried ∧
    s.run.len % 2 = 0 ∧ Real.sin s.run.angleStep = 0 ∧ ∀ n, n < s.run.len * s.run.spb.toNat → (numAt s.res.rx n).finite = true := by
  refine ⟨_, rfl, { carriedQ with carfreq := rfl }, by decide, ?_, by decide +kernel⟩
  have : ({ cfgQ with carfreq := .rat 2 } : Settings).angleStep = Real.pi := by
    simp [Settings.angleStep, cfgQ, cfgB, RNum.val]
    ring
  show Real.sin ({ cfgQ with carfreq := .rat 2 } : Settings).angleStep = 0
  rw [this, Real.sin_pi]

theorem witness_OddQpskStops : (inStage .demodulating { cfgQ with datalen := 5 } (latched bitsQ)).run.len % 2 = 1 := by decide

/-- A state at MAP, with the bits received and the stream given. -/
def atMap (r : Settings) (bits got : List Byte) (u : List RNum) : State :=
  { inStage .mapping r { latched bits with rxbits := got } with urng := { pos := 0, next := u } }

theorem witness_MapBpskPoints : ∃ s : State, s = atMap cfgN bitsB [1, 1, 1] (halves 18).next ∧ 3 = min s.run.len s.params.maxPts ∧
    s.run.noiseen = true ∧ s.run.snrdb.finite = true ∧ (∀ k, k < 2 * 3 → inUnit (s.urng.value k) = true) ∧
    s.res.runbits[1]? = some 0 ∧ s.res.rxbits[1]? = some 1 ∧ s.res.runbits[2]? = some 1 ∧ s.res.rxbits[2]? = some 1 :=
  ⟨_, rfl, by decide +kernel, rfl, rfl, fun _ h => halves_draws (by omega), rfl, rfl, rfl, rfl⟩

theorem witness_MapBpskPoints_noiseless : ∃ s : State, s = atMap cfgB bitsB [1, 1, 1] [] ∧ 3 = min s.run.len s.params.maxPts ∧
    s.run.noiseen = false ∧ s.res.runbits[0]? = some 1 ∧ s.res.rxbits[0]? = some 1 :=
  ⟨_, rfl, by decide +kernel, rfl, rfl, rfl⟩

theorem witness_MapQpskPoints : ∃ s : State, s = atMap { cfgQ with noiseen := true } bitsQ [0, 1, 0, 1, 1, 1, 1, 0] (halves 18).next ∧
    4 = min (s.run.len / 2) s.params.maxPts ∧ s.run.len % 2 = 0 ∧ s.params.qscale.finite = true ∧
    (∀ k, k < 2 * 4 → s.res.runbits[k]? = some 0 ∨ s.res.runbits[k]? = some 1) ∧ s.run.noiseen = true ∧
    s.run.snrdb.finite = true ∧ (∀ k, k < 2 * 4 → inUnit (s.urng.value k) = true) ∧
    s.res.rxbits[2 * 0]? = some 0 ∧ s.res.rxbits[2 * 0 + 1]? = some 1 ∧ s.res.rxbits[2 * 3]? = some 1 ∧
    s.res.rxbits[2 * 3 + 1]? = some 0 :=
  ⟨_, rfl, by decide +kernel, by decide, rfl, by decide +kernel, rfl, rfl, fun _ h => halves_draws (by omega), rfl, rfl, rfl, rfl⟩

theorem witness_MapQpskPoints_noiseless : ∃ s : State, s = atMap cfgQ bitsQ bitsQ [] ∧ 4 = min (s.run.len / 2) s.params.maxPts ∧
    s.run.len % 2 = 0 ∧ s.params.qscale.finite = true ∧ s.run.noiseen = false ∧
    (∀ k, k < 2 * 4 → s.res.runbits[k]? = some 0 ∨ s.res.runbits[k]? = some 1) :=
  ⟨_, rfl, by decide +kernel, by decide, rfl, rfl, by decide +kernel⟩

theorem witness_MapRangeFailure_bpsk : ∃ s : State, s = atMap cfgN bitsB bitsB (List.replicate 5 (.rat (1 / 2)) ++ [.rat 1]) ∧
    s.run.noiseen = true ∧ s.run.snrdb.finite = true ∧ 5 < 2 * s.run.np s.params .bpsk ∧
    (∀ j, j < 5 → inUnit (s.urng.value j) = true) ∧ inUnit (s.urng.value 5) = false :=
  ⟨_, rfl, rfl, rfl, by decide +kernel, by decide +kernel, by decide +kernel⟩

theorem witness_MapRangeFailure_qpsk : ∃ s : State, s = atMap { cfgQ with noiseen := true } bitsQ bitsQ [.rat 0] ∧
    s.run.len % 2 = 0 ∧ s.params.qscale.finite = true ∧
    (∀ k, k < s.run.len → s.res.runbits[k]? = some 0 ∨ s.res.runbits[k]? = some 1) ∧
    s.run.noiseen = true ∧ s.run.snrdb.finite = true ∧ 0 < 2 * s.run.np s.params .qpsk ∧ inUnit (s.urng.value 0) = false :=
  ⟨_, rfl, by decide, rfl, by decide +kernel, rfl, rfl, by decide +kernel, by decide +kernel⟩

theorem witness_BerBpskCount : ∃ s : State, s = inStage .computing cfgN { latched bitsB with rxbits := [0, 0, 0] } ∧
    0 < s.run.len ∧ s.run.noiseen = true ∧ s.run.snrdb.finite = true ∧
    ∀ k, k < s.run.len → k < s.res.runbits.length ∧ k < s.res.rxbits.length :=
  ⟨_, rfl, by decide, rfl, rfl, by decide⟩

theorem witness_BerQpskCount : ∃ s : State, s = inStage .computing cfgQ { latched bitsQ with rxbits := [0, 1, 0, 1, 1, 1, 1, 0] } ∧
    0 < s.run.len ∧ s.run.len % 2 = 0 ∧ s.run.noiseen = false ∧
    ∀ k, k < s.run.len → k < s.res.runbits.length ∧ k < s.res.rxbits.length :=
  ⟨_, rfl, by decide, by decide, rfl, by decide⟩

/-! ### Witnesses: the machine as a whole -/

theorem witness_StepKeepsInvariant : (started cfgB bitsB).Inv ∧ ∃ t, step (started cfgB bitsB) = .next t ∧ t.phase = .generating :=
  ⟨startedB_inv, exists_next (by decide +kernel)⟩

theorem witness_StepNeverStops : (started cfgN bitsB).Inv ∧ (finished cfgQ bitsQ).Inv := ⟨startedN_inv, finishedQ_inv⟩

theorem witness_SnapshotIsStable : ∃ t, step { State.reset with cfg := cfgB, turns := [.command 1] } = .next t ∧
    t.run ≠ State.reset.run := by
  obtain ⟨t, h, e⟩ := exists_next (f := State.run) (a := cfgB)
    (o := step { State.reset with cfg := cfgB, turns := [.command 1] }) (by decide +kernel)
  exact ⟨t, h, by rw [e]; decide⟩

theorem witness_SnapshotIsStable_reset : ∃ t, step { finished cfgB bitsB with turns := [.reset] } = .next t ∧ t.run ≠ cfgB := by
  obtain ⟨t, h, e⟩ := exists_next (f := State.run) (a := Settings.beforeStart)
    (o := step { finished cfgB bitsB with turns := [.reset] }) (by decide +kernel)
  exact ⟨t, h, by rw [e]; decide⟩

/-- All clauses at once, in the last stage. -/
theorem witness_StageOutputsStay : ∃ s t : State, s = { finished cfgB bitsB with phase := .computing } ∧ s.busy = true ∧
    s.turns = [] ∧ step s = .next t ∧ t.phase ≠ .failed ∧ 7 ≤ s.phase.code.toNat := by
  obtain ⟨t, h, e⟩ := exists_next (f := State.phase) (a := .done)
    (o := step { finished cfgB bitsB with phase := .computing }) (by decide +kernel)
  exact ⟨_, t, rfl, by decide +kernel, rfl, h, by rw [e]; decide, by decide⟩

theorem witness_StageFailure : ∃ s t : State, s = { atNoise (bpskWave cfgN bitsB) [.rat 0] with degen := true } ∧ s.busy = true ∧
    s.phase ≠ .validating ∧ s.turns = [] ∧ step s = .next t ∧ t.phase = .failed ∧ s.degen = true := by
  obtain ⟨t, h, e⟩ := exists_next (f := State.phase) (a := .failed)
    (o := step { atNoise (bpskWave cfgN bitsB) [.rat 0] with degen := true }) (by decide +kernel)
  exact ⟨_, t, rfl, by decide +kernel, by decide, rfl, h, e, rfl⟩

/-- A noisy run of the invariant before NOISE, on a stream whose first value is 0. -/
def beforeNoise : State :=
  { atNoise (bpskWave cfgN bitsB) [.rat 0] with
    res := { latched bitsB with mod := bpskWave cfgN bitsB, time := timeGrid cfgN, nsamp := some 6, nsymb := some 3 } }

theorem beforeNoise_inv : beforeNoise.Inv where
  txForm := rfl
  txBelow := by intro c hc; cases hc
  work := rfl
  causes := ⟨fun _ => ⟨rfl, rfl⟩, (fun h => by cases h), (fun h => by cases h)⟩
  snrv := rfl
  noisy := fun _ => rfl
  produced :=
    { latched := fun _ => ⟨rfl⟩
      noRunbits := fun h => by cases h
      validated := fun _ => ⟨by decide +kernel⟩
      generated := fun _ => ⟨rfl, by decide +kernel, by decide +kernel, by decide +kernel⟩
      noTime := fun h => by cases h
      modulated := fun _ => ⟨rfl, by decide +kernel⟩
      noMod := fun h => by cases h
      received := fun h => by cases h
      noRx := fun _ => rfl
      demodulated := fun h => by cases h
      noRxbits := fun _ => rfl
      mapped := fun h => by cases h
      noPoints := fun _ => ⟨rfl, rfl, rfl⟩
      counted := fun h => by cases h
      noBer := fun _ => ⟨rfl, rfl, rfl, rfl⟩ }

theorem witness_StageFailure_validated : ∃ t : State, beforeNoise.Inv ∧ 0 < beforeNoise.params.spbMin ∧
    beforeNoise.params.qscale.finite = true ∧ beforeNoise.busy = true ∧ beforeNoise.phase ≠ .validating ∧
    beforeNoise.turns = [] ∧ step beforeNoise = .next t ∧ t.phase = .failed := by
  obtain ⟨t, h, e⟩ := exists_next (f := State.phase) (a := .failed) (o := step beforeNoise) (by decide +kernel)
  exact ⟨t, beforeNoise_inv, by decide, rfl, by decide +kernel, by decide, rfl, h, e⟩

theorem witness_BerBounds : (finished cfgB bitsB).Inv ∧ (finished cfgB bitsB).phase = .done := ⟨finishedB_inv, rfl⟩

theorem witness_ErrorFlagsAgree : (finished cfgQ bitsQ).Inv ∧ (finished cfgQ bitsQ).phase = .done ∧
    (finished cfgQ bitsQ).run.nsym (finished cfgQ bitsQ).run.scheme ≤ (finished cfgQ bitsQ).params.maxPts :=
  ⟨finishedQ_inv, rfl, by decide +kernel⟩

theorem witness_RunEnds : (started cfgN bitsB).Inv ∧ (started cfgN bitsB).busy = true ∧ (started cfgN bitsB).turns = [] :=
  ⟨startedN_inv, by decide +kernel, rfl⟩

/-- Two noisy runs on the same stream, with different registers beside. -/
theorem witness_RunIsAFunction : ∃ s₁ s₂ t₁ : State, s₁ = started cfgN bitsB ∧ s₂ = { started cfgN bitsB with ien := 3, cfg := cfgB } ∧
    s₁.phase = .validating ∧ s₂.phase = .validating ∧ s₁.turns = [] ∧ s₂.turns = [] ∧ s₁.params = s₂.params ∧
    s₁.run = s₂.run ∧ s₁.res = s₂.res ∧ s₁.snrv = s₂.snrv ∧ s₁.cause = s₂.cause ∧ s₁.verrmask = s₂.verrmask ∧
    s₁.run.noiseen = true ∧ (∀ k, s₁.urng.value k = s₂.urng.value k) ∧ Host.Core.run Sys2Proof.core 1 s₁ = .next t₁ := by
  obtain ⟨t, h, -⟩ := exists_next (f := State.phase) (a := .generating)
    (o := Host.Core.run Sys2Proof.core 1 (started cfgN bitsB)) (by decide +kernel)
  exact ⟨_, _, t, rfl, rfl, rfl, rfl, rfl, rfl, rfl, rfl, rfl, rfl, rfl, rfl, rfl, fun _ => rfl, h⟩

/-- NOP, a write of DATALEN, NOP and an illegal word written to CMD, a step of the run, a refused read (V-CMD-14). -/
theorem witness_HostDoesNotDisturb : ∃ (t : State) (ts : List Turn),
    ts = [.command 0, .bus 0x40000014 0 (.u32 6), .bus 0x40000001 0 (.u32 0), .bus 0x40000001 0 (.u32 4), .sequencer,
      .bus 0x00000020 0 (.u32 0)] ∧ (∀ u ∈ ts, u.quiet = true) ∧
    Host.Core.run Sys2Proof.core ts.length { started cfgB bitsB with turns := ts } = .next t ∧ t.phase = .generating := by
  obtain ⟨t, h, e⟩ := exists_next (f := State.phase) (a := .generating)
    (o := Host.Core.run Sys2Proof.core 6 { started cfgB bitsB with
      turns := [.command 0, .bus 0x40000014 0 (.u32 6), .bus 0x40000001 0 (.u32 0), .bus 0x40000001 0 (.u32 4), .sequencer,
        .bus 0x00000020 0 (.u32 0)] }) (by decide +kernel)
  exact ⟨t, _, rfl, by decide +kernel, h, e⟩

theorem witness_DrawsConsumed_noiseless : (started cfgB bitsB).Inv ∧ (started cfgB bitsB).run.noiseen = false ∧
    ∃ t, Host.Core.run Sys2Proof.core 8 (started cfgB bitsB) = .next t ∧ t.phase = .done :=
  ⟨startedB_inv, rfl, exists_next (by decide +kernel)⟩

theorem witness_DrawsConsumed_rejected : (started { cfgN with datalen := 2 } bitsB).Inv ∧
    ∃ t, Host.Core.run Sys2Proof.core 8 (started { cfgN with datalen := 2 } bitsB) = .next t ∧ t.verrmask = 0x110 :=
  ⟨started_inv _ _ State.reset.urng rfl, exists_next (by decide +kernel)⟩

/-- A noisy run on a stream of halves. -/
theorem witness_DrawsConsumed_noisy : ∃ s t : State, s = { started cfgN bitsB with urng := halves 18 } ∧ s.Inv ∧
    s.phase = .validating ∧ s.turns = [] ∧ s.run.noiseen = true ∧ Host.Core.run Sys2Proof.core 8 s = .next t ∧ t.phase = .done := by
  obtain ⟨t, h, e⟩ := exists_next (f := State.phase) (a := .done)
    (o := Host.Core.run Sys2Proof.core 8 { started cfgN bitsB with urng := halves 18 }) (by decide +kernel)
  exact ⟨_, t, rfl, started_inv _ _ _ rfl, rfl, rfl, rfl, h, e⟩

theorem witness_BpskRoundTrip : ∃ s : State, s = startedT cfgB bitsB ∧ s.phase = .validating ∧ s.turns = [] ∧ s.Latched ∧
    2 ≤ s.params.spbMin ∧ (∀ i, CheckHolds s.params s.run s.res.runbits i) ∧ s.run.modtype = 0 ∧ s.run.noiseen = false :=
  ⟨_, rfl, rfl, rfl, ⟨rfl⟩, by decide, holds_of_checks rfl (by decide +kernel), rfl, rfl⟩

theorem angleStepQ : cfgQ.angleStep = Real.pi / 2 := by
  simp [Settings.angleStep, cfgQ, cfgB, RNum.val]
  ring

theorem witness_QpskRoundTrip : ∃ s : State, s = started cfgQ bitsQ ∧ s.phase = .validating ∧ s.turns = [] ∧ s.Latched ∧
    (∀ i, CheckHolds s.params s.run s.res.runbits i) ∧ s.run.modtype = 1 ∧ s.run.noiseen = false ∧
    s.params.qscale.finite = true ∧ 0 < s.run.spb.toNat ∧
    Real.sqrt 2 < 2 * s.run.spb.toNat * |Real.sin s.run.angleStep| := by
  refine ⟨_, rfl, rfl, rfl, ⟨rfl⟩, holds_of_checks rfl (by decide +kernel), rfl, rfl, rfl, by decide, ?_⟩
  show Real.sqrt 2 < 2 * ((cfgQ.spb.toNat : Nat) : ℝ) * |Real.sin cfgQ.angleStep|
  rw [angleStepQ, Real.sin_pi_div_two, abs_one, show cfgQ.spb.toNat = 4 from rfl, Real.sqrt_lt' (by norm_num)]
  norm_num

end Sys2Proof.Tests
end

/-! ## Scope: the default parameters, the snapshot and the time grid (spec/00_scope.md) -/

namespace Sys2Proof.Machine

/-! ### The parameters of `State.reset` -/

/-- Settles O13: the opaque parts of LMAX and NSMAX have 31 bits, so the sums stay below `2 ^ 32`. -/
theorem resetInstanceFits : Obligations.ResetInstanceFits where
  spbMin := by decide
  lmaxLow := Nat.le_add_left 4 _
  nsMaxLow := Nat.le_add_left 400 _
  lmax := (Nat.add_lt_add_right Config.lmaxExtra.isLt 4).trans (by norm_num)
  nsMax := (Nat.add_lt_add_right Config.nsmaxExtra.isLt 400).trans (by norm_num)

/-! ### What a stage leaves to the host and to START -/

theorem StageFrame.refl (s : State) : StageFrame s s :=
  ⟨rfl, rfl, rfl, rfl, rfl, rfl, fun _ => rfl, rfl, rfl, rfl⟩

/-- The fields a stage may write are outside the frame. -/
theorem StageFrame.update (s : State) (degen snrv : Bool) (mask : BitVec 10) (res : Results) (urng : Urng) :
    StageFrame s { s with degen := degen, snrv := snrv, verrmask := mask, res := res, urng := urng } :=
  ⟨rfl, rfl, rfl, rfl, rfl, rfl, fun _ => rfl, rfl, rfl, rfl⟩

theorem StageFrame.advance {s t : State} (h : StageFrame s t) (p : Phase) : StageFrame s (t.advance p) := { h with }

theorem StageFrame.raiseValidation {s t : State} (h : StageFrame s t) (m : BitVec 10) (c : BitVec 8) :
    StageFrame s (t.raiseValidation m c) := { h with }

theorem StageFrame.raiseUnexpected {s t : State} (h : StageFrame s t) (c : BitVec 8) :
    StageFrame s (t.raiseUnexpected c) := { h with }

theorem State.FailsTo.frame {s t : State} (h : s.FailsTo t) : StageFrame s t := by
  obtain ⟨c, d, k, -, -, rfl⟩ := h
  exact (StageFrame.update ..).raiseUnexpected c

/-- A sequencer's turn keeps the frame of a stage, whether the stage completes, fails, or there is none to run. -/
theorem stage_frame {s t : State} (h : runCode (.stage s.selector) s = .next t) : StageFrame s t := by
  rcases stage_cases h with ⟨-, rfl⟩ | ⟨-, ⟨-, rfl⟩ | ⟨-, rfl⟩⟩ | ⟨-, -, failed⟩ | ⟨-, rfl⟩ | ⟨-, -, wave, rfl⟩ |
    ⟨-, -, wave, rfl⟩ | ⟨-, rx, rfl⟩ | ⟨-, bits, rfl⟩ | ⟨-, ds, ps, -, -, rfl⟩ | ⟨-, errors, rfl⟩
  case inl => exact .refl t
  case inr.inl.inr => exact (StageFrame.refl s).raiseValidation _ _
  case inr.inr.inl => exact failed.frame
  all_goals exact (StageFrame.update ..).advance _

/-! ### The snapshot RUN -/

/-- `t` has the parameters of `s`, and its snapshot too unless an accepted START copied the configuration registers
(R8, R40, R222). -/
def KeepsSnapshot (s t : State) : Prop :=
  t.params = s.params ∧ (t.run = s.run ∨ t.run = s.cfg ∧ t.phase = .validating ∧ s.busy = false)

theorem StageFrame.keepsSnapshot {s t : State} (h : StageFrame s t) : KeepsSnapshot s t := ⟨h.params, .inl h.run⟩

theorem HostOnly.keepsSnapshot {s t : State} (h : HostOnly s t) : KeepsSnapshot s t :=
  ⟨congrArg RunView.params h.view, .inl (congrArg RunView.run h.view)⟩

/-- Of all the host can present only START touches the snapshot (R40). -/
theorem runCode_host_keepsSnapshot {c : Code} {s t : State} (hc : ∀ x, c ≠ .stage x) (h : runCode c s = .next t) :
    KeepsSnapshot s t := by
  obtain ⟨u, hu, outcome⟩ := runCode_host c s hc
  obtain rfl : u = t := Host.Outcome.next.inj (hu.symm.trans h)
  rcases outcome with quiet | ⟨rest, rfl⟩ | ⟨-, rfl⟩ | ⟨-, rfl⟩
  · exact quiet.keepsSnapshot
  · exact ⟨s.startRun_params, .inr ⟨s.startRun_run, s.startRun_phase, rest⟩⟩
  · exact ⟨s.abortRun_params, .inl s.abortRun_run⟩
  · exact ⟨s.clearAll_params, .inl s.clearAll_run⟩

/-- Taking a turn off the list reaches neither side of `KeepsSnapshot`. -/
theorem KeepsSnapshot.of_turns {s t : State} {ts : List Turn} (h : KeepsSnapshot { s with turns := ts } t) :
    KeepsSnapshot s t := h

/-- A step is the reset input, or it keeps the snapshot. -/
theorem step_keepsSnapshot {s t : State} (h : step s = .next t) :
    (∃ ts, s.turns = .reset :: ts ∧ t = ({ s with turns := ts } : State).afterReset) ∨ KeepsSnapshot s t := by
  rcases step_cases s with ⟨-, -, e⟩ | ⟨-, -, e⟩ | ⟨ts, ⟨-, -, e⟩ | ⟨-, -, e⟩ | ⟨w, -, e⟩ | ⟨x, i, v, -, e⟩ | ⟨reset, e⟩⟩ <;>
    rw [e] at h
  · cases h; exact .inr (StageFrame.refl s).keepsSnapshot
  · exact .inr (stage_frame h).keepsSnapshot
  · cases h; exact .inr (StageFrame.refl _).keepsSnapshot.of_turns
  · exact .inr (stage_frame h).keepsSnapshot.of_turns
  · exact .inr (runCode_host_keepsSnapshot (by simp) h).of_turns
  · exact .inr (runCode_host_keepsSnapshot (by simp) h).of_turns
  · cases h; exact .inl ⟨ts, reset, rfl⟩

/-- Settles O49: the split of a step into the reset input, an accepted START, and all else. -/
theorem snapshotIsStable : Obligations.SnapshotIsStable := by
  intro s t h
  rcases step_keepsSnapshot h with ⟨ts, reset, rfl⟩ | ⟨params, same | start⟩
  · exact ⟨State.afterReset_params _, fun _ => .inr ⟨ts, reset⟩⟩
  · exact ⟨params, fun changed => absurd same changed⟩
  · exact ⟨params, fun _ => .inl start⟩

/-! ### The time grid -/

/-- TIME, NSAMP and NSYMB as GENERATE writes them (R121, R232). -/
def State.withTimeGrid (s : State) : State :=
  { s with res := { s.res with
      time := timeGrid s.run
      nsamp := some (BitVec.ofNat 32 (s.run.ns s.run.scheme))
      nsymb := some (BitVec.ofNat 32 (s.run.nsym s.run.scheme)) } }

/-- With a positive divisor every grid element is a real number, so GENERATE completes (R121, R232). -/
theorem exec_generate_of_timed {s : State} (h : s.run.Timed) :
    exec .generate s = .next (s.withTimeGrid.advance .modulating) := if_pos (timeGrid_finite h)

/-- GENERATE writes neither a flag nor the cause, and draws nothing. -/
theorem withTimeGrid_advance_plain (s : State) (p : Phase) : PlainStage s (s.withTimeGrid.advance p) where
  toStageFrame := (StageFrame.update ..).advance p
  degen := rfl
  snrv := rfl
  cause := rfl
  verrmask := rfl
  urng := rfl

/-- The sample time as a fraction of bit periods. -/
theorem Settings.time_eq_periods (r : Settings) (n : Nat) : r.time n = (n : ℝ) / r.spb.toNat / r.bitrate.val :=
  (div_div _ _ _).symm

/-- Sample `n` is not before the start of bit period `n div SPB` (R122). -/
theorem Settings.Timed.period_start_le {r : Settings} (h : r.Timed) (n : Nat) :
    ((n / r.spb.toNat : Nat) : ℝ) / r.bitrate.val ≤ r.time n := by
  rw [r.time_eq_periods]
  exact div_le_div_of_nonneg_right Nat.cast_div_le h.positive.le

/-- Sample `n` is before the end of bit period `n div SPB` (R122). -/
theorem Settings.Timed.lt_period_end {r : Settings} (h : r.Timed) (n : Nat) :
    r.time n < (((n / r.spb.toNat : Nat) : ℝ) + 1) / r.bitrate.val := by
  have floor_lt : (n : ℝ) / r.spb.toNat < ((n / r.spb.toNat : Nat) : ℝ) + 1 := by
    rw [← Nat.floor_div_eq_div (K := ℝ)]
    exact Nat.lt_floor_add_one _
  rw [r.time_eq_periods]
  exact div_lt_div_of_pos_right floor_lt h.positive

/-- Settles O32: GENERATE completes, and its grid element `n` is `timeAt n`, which stands for `n / (SPB·Rb)`. -/
theorem generateTimeGrid : Obligations.GenerateTimeGrid := by
  intro s timed
  refine ⟨_, exec_generate_of_timed timed, withTimeGrid_advance_plain s _, rfl, rfl, rfl, rfl, timeGrid_length s.run, ?_⟩
  intro n hn
  refine ⟨timeAt s.run n, timeGrid_get s.run hn, timeAt_finite timed n, timeAt_val s.run n, ?_, ?_⟩ <;> rw [timeAt_val]
  · exact timed.period_start_le n
  · exact timed.lt_period_end n

end Sys2Proof.Machine

/-! ## The machine's state: invariant, registers, runs (spec/10_state.md) -/

namespace Sys2Proof.Machine

/-! ### The fields of the host and those of a run -/

/-- What `State.view` leaves out: the fields the host alone reads and writes, and the model's own. -/
structure HostFields where
  cmderr : Bool
  accerr : Bool
  ien : BitVec 2
  cfg : Settings
  txbits : List Host.Cell
  turns : List Turn
  rdata : Option Val
  epoch : Nat

/-- `s` with other host fields. -/
def State.withHost (s : State) (f : HostFields) : State :=
  { s with
    cmderr := f.cmderr, accerr := f.accerr, ien := f.ien, cfg := f.cfg, txbits := f.txbits, turns := f.turns
    rdata := f.rdata, epoch := f.epoch }

/-- States with the same run view differ in host fields only. -/
theorem State.exists_withHost {s t : State} (h : t.view = s.view) : ∃ f, t = s.withHost f := by
  obtain ⟨⟩ := s
  obtain ⟨_, _, _, _, cmderr, accerr, _, _, ien, cfg, txbits, _, _, _, _, turns, rdata, epoch⟩ := t
  simp only [State.view, RunView.mk.injEq] at h
  obtain ⟨rfl, rfl, rfl, rfl, rfl, rfl, rfl, rfl, rfl, rfl⟩ := h
  exact ⟨⟨cmderr, accerr, ien, cfg, txbits, turns, rdata, epoch⟩, rfl⟩

section
variable (s : State) (f : HostFields)

@[simp] theorem State.withHost_phase : (s.withHost f).phase = s.phase := rfl
@[simp] theorem State.withHost_run : (s.withHost f).run = s.run := rfl
@[simp] theorem State.withHost_txbits : (s.withHost f).txbits = f.txbits := rfl
@[simp] theorem State.withHost_urng : (s.withHost f).urng = s.urng := rfl
@[simp] theorem State.withHost_sigma : (s.withHost f).sigma = s.sigma := rfl
@[simp] theorem State.withHost_signal : (s.withHost f).signal = s.signal := rfl
end

/-- An outcome with `f` applied to the next state, if there is one. -/
def onNext (f : State → State) : Host.Outcome State Fault Refusal → Host.Outcome State Fault Refusal
  | .next t => .next (f t)
  | .fault r => .fault r
  | .refused r => .refused r

section
variable (s : State) (f : HostFields)

theorem execValidate_withHost : execValidate (s.withHost f) = onNext (·.withHost f) (execValidate s) := by
  conv_rhs => rw [execValidate, apply_ite (onNext _)]
  rfl

theorem execGenerate_withHost : execGenerate (s.withHost f) = onNext (·.withHost f) (execGenerate s) := by
  conv_rhs => rw [execGenerate, apply_ite (onNext _)]
  rfl

theorem State.modulated_withHost (wave : List RNum) : (s.withHost f).modulated wave = (s.modulated wave).withHost f := by
  conv_rhs => rw [State.modulated, apply_ite (State.withHost · f), apply_ite (State.withHost · f)]
  rfl

theorem State.demodulated_withHost (ok : Bool) (bits : List Byte) :
    (s.withHost f).demodulated ok bits = (s.demodulated ok bits).withHost f := by
  cases ok <;> rfl

theorem State.counted_withHost (errors : Nat) : (s.withHost f).counted errors = (s.counted errors).withHost f := by
  conv_rhs => rw [State.counted, apply_ite (State.withHost · f)]
  rfl

theorem State.mapped_withHost (ds : List Ideal) : (s.withHost f).mapped ds = (s.mapped ds).withHost f := by
  rw [State.mapped, State.mapped, State.withHost_run, State.withHost_urng]
  cases receivedPoints s.run ds s.urng <;> rfl

theorem execNoise_withHost : execNoise (s.withHost f) = onNext (·.withHost f) (execNoise s) := by
  conv_rhs => rw [execNoise, apply_ite (onNext _), apply_ite (onNext _)]
  rw [execNoise, State.withHost_sigma, State.withHost_signal, State.withHost_urng]
  cases noiseLoop s.sigma s.signal s.urng <;> rfl

theorem execDemodQpsk_withHost : execDemodQpsk (s.withHost f) = onNext (·.withHost f) (execDemodQpsk s) := by
  conv_rhs => rw [execDemodQpsk, apply_ite (onNext _)]
  rw [execDemodQpsk, State.demodulated_withHost]
  rfl

theorem execMapQpsk_withHost : execMapQpsk (s.withHost f) = onNext (·.withHost f) (execMapQpsk s) := by
  conv_rhs => rw [execMapQpsk, apply_ite (onNext _)]
  rw [execMapQpsk, State.mapped_withHost]
  rfl

theorem execBerQpsk_withHost : execBerQpsk (s.withHost f) = onNext (·.withHost f) (execBerQpsk s) := by
  conv_rhs => rw [execBerQpsk, apply_ite (onNext _)]
  rw [execBerQpsk, State.counted_withHost]
  rfl

/-- A stage neither reads nor writes a host field (R40, R75, R302). -/
theorem runCode_stage_withHost :
    runCode (.stage (s.withHost f).selector) (s.withHost f) = onNext (·.withHost f) (runCode (.stage s.selector) s) := by
  rw [runCode_stage, runCode_stage, State.withHost_phase, State.withHost_run]
  cases s.phase
  case validating => exact execValidate_withHost s f
  case generating => exact execGenerate_withHost s f
  case noiseInjection => exact execNoise_withHost s f
  case modulating => cases s.run.modtype.getLsbD 0 <;> exact congrArg _ (State.modulated_withHost s f _)
  case demodulating =>
    cases s.run.modtype.getLsbD 0
    · exact congrArg _ (State.demodulated_withHost s f _ _)
    · exact execDemodQpsk_withHost s f
  case mapping =>
    cases s.run.modtype.getLsbD 0
    · exact congrArg _ (State.mapped_withHost s f _)
    · exact execMapQpsk_withHost s f
  case computing =>
    cases s.run.modtype.getLsbD 0
    · exact congrArg _ (State.counted_withHost s f _)
    · exact execBerQpsk_withHost s f
  all_goals rfl
end

/-- From states with the same run view the sequencer's turn leads to states with the same run view. -/
theorem stage_view_congr {s s' t : State} (view : s'.view = s.view) (h : runCode (.stage s.selector) s = .next t) :
    ∃ t', runCode (.stage s'.selector) s' = .next t' ∧ t'.view = t.view := by
  obtain ⟨f, rfl⟩ := State.exists_withHost view
  exact ⟨t.withHost f, by rw [runCode_stage_withHost, h]; rfl, rfl⟩

/-! ### What the results of a run hold, stage by stage -/

/-- The phase code as a count of the stages whose outputs are there, START counted first; none in Failed. -/
def Phase.stagesDone : Phase → Nat
  | .failed => 0
  | p => p.code.toNat

/-- What the stage that ends with phase code `k` leaves. -/
def State.Holds (s : State) : Nat → Prop
  | 1 => s.Latched
  | 2 => s.Validated
  | 3 => s.Generated
  | 4 => s.Modulated
  | 5 => s.Received
  | 6 => s.Demodulated
  | 7 => s.Mapped
  | 8 => s.Counted
  | _ => True

/-- The outputs of the stages up to phase code `k`; those of later stages absent. -/
def Results.through (r : Results) (k : Nat) : Results :=
  { runbits := if 1 ≤ k then r.runbits else []
    time := if 3 ≤ k then r.time else []
    mod := if 4 ≤ k then r.mod else []
    rx := if 5 ≤ k then r.rx else []
    rxbits := if 6 ≤ k then r.rxbits else []
    ctx := if 7 ≤ k then r.ctx else []
    crx := if 7 ≤ k then r.crx else []
    berErrcnt := if 8 ≤ k then r.berErrcnt else none
    berTotal := if 8 ≤ k then r.berTotal else none
    berValue := if 8 ≤ k then r.berValue else none
    berSnrdb := if 8 ≤ k then r.berSnrdb else none
    nsamp := if 3 ≤ k then r.nsamp else none
    nsymb := if 3 ≤ k then r.nsymb else none
    npts := if 7 ≤ k then r.npts else none }

theorem Results.eq_through_iff (r : Results) (k : Nat) :
    r = r.through k ↔
      (¬1 ≤ k → r.runbits = []) ∧ (¬3 ≤ k → r.time = [] ∧ r.nsamp = none ∧ r.nsymb = none) ∧ (¬4 ≤ k → r.mod = []) ∧
      (¬5 ≤ k → r.rx = []) ∧ (¬6 ≤ k → r.rxbits = []) ∧ (¬7 ≤ k → r.ctx = [] ∧ r.crx = [] ∧ r.npts = none) ∧
      (¬8 ≤ k → r.berErrcnt = none ∧ r.berTotal = none ∧ r.berValue = none ∧ r.berSnrdb = none) := by
  obtain ⟨⟩ := r
  simp only [Results.through, Results.mk.injEq, left_eq_ite_iff, imp_and]
  tauto

/-- Outputs absent after stage `j` are absent after a later stage `k`. -/
theorem Results.eq_through_mono {r : Results} {j k : Nat} (h : r = r.through j) (le : j ≤ k) : r = r.through k := by
  rw [Results.eq_through_iff] at h ⊢
  obtain ⟨h1, h3, h4, h5, h6, h7, h8⟩ := h
  exact ⟨fun n => h1 (by omega), fun n => h3 (by omega), fun n => h4 (by omega), fun n => h5 (by omega),
    fun n => h6 (by omega), fun n => h7 (by omega), fun n => h8 (by omega)⟩

theorem State.past_iff (s : State) {k : Nat} (hk : 1 ≤ k) : s.past k = true ↔ k ≤ s.phase.stagesDone := by
  rw [State.past]
  cases s.phase <;> simp [Phase.code, Phase.stagesDone]
  omega

theorem State.not_past_iff (s : State) {k : Nat} (hk : 1 ≤ k) : s.past k = false ↔ ¬k ≤ s.phase.stagesDone := by
  rw [← s.past_iff hk, Bool.not_eq_true]

/-- The results of a state are those of the stages done so far: each left what it should, and the others are absent. -/
theorem State.produced_iff (s : State) :
    s.Produced ↔ (∀ k, 1 ≤ k → k ≤ s.phase.stagesDone → s.Holds k) ∧ s.res = s.res.through s.phase.stagesDone := by
  rw [Results.eq_through_iff]
  constructor
  · intro h
    refine ⟨fun k pos le => ?_, fun n => h.noRunbits ((s.not_past_iff (by decide)).2 n),
      fun n => h.noTime ((s.not_past_iff (by decide)).2 n), fun n => h.noMod ((s.not_past_iff (by decide)).2 n),
      fun n => h.noRx ((s.not_past_iff (by decide)).2 n), fun n => h.noRxbits ((s.not_past_iff (by decide)).2 n),
      fun n => h.noPoints ((s.not_past_iff (by decide)).2 n), fun n => h.noBer ((s.not_past_iff (by decide)).2 n)⟩
    have past := (s.past_iff pos).2 le
    match k, past with
    | 1, past => exact h.latched past
    | 2, past => exact h.validated past
    | 3, past => exact h.generated past
    | 4, past => exact h.modulated past
    | 5, past => exact h.received past
    | 6, past => exact h.demodulated past
    | 7, past => exact h.mapped past
    | 8, past => exact h.counted past
    | _ + 9, _ => exact trivial
  · rintro ⟨holds, h1, h3, h4, h5, h6, h7, h8⟩
    exact
      { latched := fun p => holds 1 (by decide) ((s.past_iff (by decide)).1 p)
        noRunbits := fun p => h1 ((s.not_past_iff (by decide)).1 p)
        validated := fun p => holds 2 (by decide) ((s.past_iff (by decide)).1 p)
        generated := fun p => holds 3 (by decide) ((s.past_iff (by decide)).1 p)
        noTime := fun p => h3 ((s.not_past_iff (by decide)).1 p)
        modulated := fun p => holds 4 (by decide) ((s.past_iff (by decide)).1 p)
        noMod := fun p => h4 ((s.not_past_iff (by decide)).1 p)
        received := fun p => holds 5 (by decide) ((s.past_iff (by decide)).1 p)
        noRx := fun p => h5 ((s.not_past_iff (by decide)).1 p)
        demodulated := fun p => holds 6 (by decide) ((s.past_iff (by decide)).1 p)
        noRxbits := fun p => h6 ((s.not_past_iff (by decide)).1 p)
        mapped := fun p => holds 7 (by decide) ((s.past_iff (by decide)).1 p)
        noPoints := fun p => h7 ((s.not_past_iff (by decide)).1 p)
        counted := fun p => holds 8 (by decide) ((s.past_iff (by decide)).1 p)
        noBer := fun p => h8 ((s.not_past_iff (by decide)).1 p) }

/-- A machine with the parameters, the snapshot and the outputs up to stage `k` of `s`, and nothing else of it. -/
def State.upTo (s : State) (k : Nat) : State :=
  { State.reset with params := s.params, run := s.run, res := s.res.through k }

/-- What a stage leaves is said of the parameters, the snapshot and the outputs up to that stage alone. -/
theorem State.holds_upTo (s : State) : ∀ k, (s.upTo k).Holds k ↔ s.Holds k
  | 1 => ⟨fun ⟨a⟩ => ⟨a⟩, fun ⟨a⟩ => ⟨a⟩⟩
  | 2 => ⟨fun ⟨a⟩ => ⟨a⟩, fun ⟨a⟩ => ⟨a⟩⟩
  | 3 => ⟨fun ⟨a, b, c, d⟩ => ⟨a, b, c, d⟩, fun ⟨a, b, c, d⟩ => ⟨a, b, c, d⟩⟩
  | 4 => ⟨fun ⟨a, b⟩ => ⟨a, b⟩, fun ⟨a, b⟩ => ⟨a, b⟩⟩
  | 5 => ⟨fun ⟨a, b, c⟩ => ⟨a, b, c⟩, fun ⟨a, b, c⟩ => ⟨a, b, c⟩⟩
  | 6 => ⟨fun ⟨a⟩ => ⟨a⟩, fun ⟨a⟩ => ⟨a⟩⟩
  | 7 => ⟨fun ⟨a, b, c, d, e, f, g⟩ => ⟨a, b, c, d, e, f, g⟩, fun ⟨a, b, c, d, e, f, g⟩ => ⟨a, b, c, d, e, f, g⟩⟩
  | 8 => ⟨fun ⟨a, b, c, d, e⟩ => ⟨a, b, c, d, e⟩, fun ⟨a, b, c, d, e⟩ => ⟨a, b, c, d, e⟩⟩
  | 0 => .rfl
  | _ + 9 => .rfl

theorem State.Holds.congr {s t : State} {k : Nat} (h : s.Holds k) (params : t.params = s.params) (run : t.run = s.run)
    (res : t.res.through k = s.res.through k) : t.Holds k := by
  rw [← State.holds_upTo, State.upTo] at h ⊢
  rwa [params, run, res]

/-- A cut at a higher stage does not show below a cut at a lower one. -/
theorem ite_le_ite_le {α : Type} {i j k : Nat} (le : j ≤ k) (x y : α) :
    (if i ≤ j then if i ≤ k then x else y else y) = if i ≤ j then x else y := by
  by_cases h : i ≤ j
  · rw [if_pos h, if_pos h, if_pos (h.trans le)]
  · rw [if_neg h, if_neg h]

theorem Results.through_through (r : Results) {j k : Nat} (le : j ≤ k) : (r.through k).through j = r.through j := by
  simp only [Results.through, ite_le_ite_le le]

theorem Results.through_congr_le {r r' : Results} {j k : Nat} (h : r.through k = r'.through k) (le : j ≤ k) :
    r.through j = r'.through j := by
  rw [← r.through_through le, h, r'.through_through le]


/-! ### What the sequencer's turn does in a run that passed validation -/

/-- The stages of a run that passed validation, by its modulation type (R95, R96). -/
theorem runCode_modulating {s : State} (phase : s.phase = .modulating) (passed : Passed s.params s.run s.res.runbits) :
    runCode (.stage s.selector) s = .next (s.modulated (waveOf s.run s.res.runbits)) := by
  rw [runCode_stage, phase, waveOf]
  rcases passed.scheme with ⟨scheme, modtype⟩ | ⟨scheme, modtype, -⟩ <;> rw [scheme, modtype] <;> rfl

theorem runCode_demodulating {s : State} (phase : s.phase = .demodulating)
    (passed : Passed s.params s.run s.res.runbits) :
    ∃ ok, runCode (.stage s.selector) s = .next (s.demodulated ok (bitsOf s.run s.res.rx)) := by
  rw [runCode_stage, phase, bitsOf]
  rcases passed.scheme with ⟨scheme, modtype⟩ | ⟨scheme, modtype, even⟩ <;> rw [scheme, modtype]
  · exact ⟨_, rfl⟩
  · exact ⟨_, if_pos even⟩

theorem runCode_mapping {s : State} (phase : s.phase = .mapping) (passed : Passed s.params s.run s.res.runbits) :
    runCode (.stage s.selector) s = .next (s.mapped (idealsOf s.params s.run s.res)) := by
  rw [runCode_stage, phase, idealsOf]
  rcases passed.scheme with ⟨scheme, modtype⟩ | ⟨scheme, modtype, even⟩ <;> rw [scheme, modtype]
  · rfl
  · exact if_pos even

theorem runCode_computing {s : State} (phase : s.phase = .computing) (passed : Passed s.params s.run s.res.runbits) :
    runCode (.stage s.selector) s = .next (s.counted (errorsOf s.run s.res)) := by
  rw [runCode_stage, phase, errorsOf]
  rcases passed.scheme with ⟨scheme, modtype⟩ | ⟨scheme, modtype, even⟩ <;> rw [scheme, modtype]
  · rfl
  · exact if_pos even

theorem idealsOf_length (p : Params) (r : Settings) (res : Results) : (idealsOf p r res).length = r.np p r.scheme := by
  rw [idealsOf]
  cases r.scheme <;> rw [List.length_map, List.length_range]

/-- MOD as a modulation writes it, and the bypass copy RX = MOD (R151, R233). -/
def State.withWave (s : State) (wave : List RNum) : State := { s with res := { s.res with mod := wave } }

def State.withBypass (s : State) (wave : List RNum) : State := { s with res := { s.res with mod := wave, rx := wave } }

/-- RX, DEGEN and the stream as NOISE leaves them (R152, R155, R234). -/
def State.withNoise (s : State) (rx : List RNum) : State :=
  { s.flagDegen with res := { s.res with rx := rx }, urng := s.urng.after (2 * s.run.ns s.run.scheme) }

/-- RXBITS as DEMOD writes it (R171, R175). -/
def State.withBits (s : State) (bits : List Byte) : State := { s with res := { s.res with rxbits := bits } }

/-- The points and the stream as MAP leaves them (R192, R193). -/
def State.withPoints (s : State) (ds : List Ideal) (ps : List Point) : State :=
  { s with
    res := { s.res with ctx := ds.map Ideal.sent, crx := ps, npts := some (BitVec.ofNat 32 ds.length) }
    urng := if s.run.noiseen then s.urng.after (2 * ds.length) else s.urng }

/-- The BER registers and SNRV as BER leaves them (R211 to R214). -/
def State.withCounts (s : State) (errors : Nat) : State :=
  { s with
    snrv := s.snrv || s.run.noiseen
    res := { s.res with
      berErrcnt := some (BitVec.ofNat 32 errors)
      berTotal := some s.run.datalen
      berValue := some (berRate s.run errors)
      berSnrdb := if s.run.noiseen then some s.run.snrdb else s.res.berSnrdb } }

/-- `ps` are points received for the symbols `ds`, without noise the ideal ones (R192, R195, R198). -/
structure ReceivedFor (r : Settings) (ds : List Ideal) (ps : List Point) : Prop where
  length : ps.length = ds.length
  finite : ps.all Point.finite = true
  flags : ps.map Point.err = ds.map (fun d => (BitVec.ofBool d.err).setWidth 32)
  syms : ps.map Point.sym = ds.map Ideal.sym
  ideal : r.noiseen = false → ps = ds.map (fun d => d.received (.rat 0) (.rat 0))

/-- What the sequencer's turn makes of a state `s` whose run, once past Validating, passed validation: nothing outside a
run, else the phase's stage completes with what the spec says it writes, or the run fails. -/
inductive State.StageStep (s t : State) : Prop
  | rests (rest : s.busy = false) (next : t = s)
  | accepts (phase : s.phase = .validating) (mask : s.gateMask = 0)
      (next : t = ({ s with verrmask := 0 } : State).advance .generating)
  | rejects (phase : s.phase = .validating) (mask : s.gateMask ≠ 0)
      (next : t = s.raiseValidation s.gateMask (causeValidation s.firstFailed))
  | fails (busy : s.busy = true) (phase : s.phase ≠ .validating) (failed : s.FailsTo t)
      (still : s.phase = .noiseInjection ∨ s.run.noiseen = true ∨ t.urng = s.urng)
  | generates (phase : s.phase = .generating) (finite : (timeGrid s.run).all RNum.finite = true)
      (next : t = s.withTimeGrid.advance .modulating)
  | modulates (phase : s.phase = .modulating) (noisy : s.run.noiseen = true)
      (finite : (waveOf s.run s.res.runbits).all RNum.finite = true)
      (next : t = (s.withWave (waveOf s.run s.res.runbits)).advance .noiseInjection)
  | bypasses (phase : s.phase = .modulating) (quiet : s.run.noiseen = false)
      (finite : (waveOf s.run s.res.runbits).all RNum.finite = true)
      (next : t = (s.withBypass (waveOf s.run s.res.runbits)).advance .demodulating)
  | injects (phase : s.phase = .noiseInjection) (rx : List RNum) (length : rx.length = s.run.ns s.run.scheme)
      (finite : rx.all RNum.finite = true) (next : t = (s.withNoise rx).advance .demodulating)
  | demodulates (phase : s.phase = .demodulating) (next : t = (s.withBits (bitsOf s.run s.res.rx)).advance .mapping)
  | maps (phase : s.phase = .mapping) (ps : List Point)
      (received : ReceivedFor s.run (idealsOf s.params s.run s.res) ps)
      (next : t = (s.withPoints (idealsOf s.params s.run s.res) ps).advance .computing)
  | counts (phase : s.phase = .computing) (finite : (berRate s.run (errorsOf s.run s.res)).finite = true)
      (next : t = (s.withCounts (errorsOf s.run s.res)).advance .done)

theorem State.busy_of_phase {s : State} {p : Phase} (phase : s.phase = p) (busy : p.busy = true) : s.busy = true := by
  rw [State.busy, phase, busy]

/-! #### Only NOISE and a noisy MAP draw -/

theorem State.modulated_urng (s : State) (wave : List RNum) : (s.modulated wave).urng = s.urng := by
  rw [State.modulated]
  split_ifs <;> rfl

theorem State.demodulated_urng (s : State) (ok : Bool) (bits : List Byte) : (s.demodulated ok bits).urng = s.urng := by
  cases ok <;> rfl

theorem State.counted_urng (s : State) (errors : Nat) : (s.counted errors).urng = s.urng := by
  rw [State.counted]
  split <;> rfl

theorem State.mapped_urng {s : State} (quiet : s.run.noiseen = false) (ds : List Ideal) : (s.mapped ds).urng = s.urng := by
  rw [State.mapped, receivedPoints, quiet]
  cases ds.all (fun d => d.sent.finite) <;> rfl

theorem execGenerate_urng {s t : State} (h : execGenerate s = .next t) : t.urng = s.urng := by
  rw [execGenerate] at h
  split at h <;> cases h <;> rfl

/-- The sequencer's turn completes, and what it does (R95, R238). -/
theorem exists_stageStep {s : State} (validated : 2 ≤ s.phase.stagesDone → s.Validated) :
    ∃ t, runCode (.stage s.selector) s = .next t ∧ s.StageStep t := by
  have fails {p : Phase} {t : State} (phase : s.phase = p) (busy : p.busy = true) (later : p ≠ .validating)
      (failed : s.FailsTo t) (still : s.phase = .noiseInjection ∨ s.run.noiseen = true ∨ t.urng = s.urng) :
      s.StageStep t :=
    .fails (State.busy_of_phase phase busy) (phase ▸ later) failed still
  have rests {p : Phase} (phase : s.phase = p) (rest : p.busy = false) : s.StageStep s :=
    .rests (by rw [State.busy, phase, rest]) rfl
  cases phase : s.phase <;> rw [phase] at validated
  case validating =>
    obtain ⟨t, run⟩ : ∃ t, execValidate s = .next t := by rw [execValidate]; split <;> exact ⟨_, rfl⟩
    refine ⟨t, by rw [runCode_stage, phase, run], ?_⟩
    rcases execValidate_cases run with ⟨mask, next⟩ | ⟨mask, next⟩
    · exact .accepts phase mask next
    · exact .rejects phase mask next
  case generating =>
    obtain ⟨t, run⟩ : ∃ t, execGenerate s = .next t := by rw [execGenerate]; split <;> exact ⟨_, rfl⟩
    refine ⟨t, by rw [runCode_stage, phase, run], ?_⟩
    rcases execGenerate_cases run with ⟨finite, next⟩ | failed
    · exact .generates phase finite next
    · exact fails phase rfl (by decide) failed (.inr (.inr (execGenerate_urng run)))
  case modulating =>
    refine ⟨_, runCode_modulating phase (validated (by decide)).passed, ?_⟩
    rcases s.modulated_cases (waveOf s.run s.res.runbits) with ⟨finite, noisy, next⟩ | ⟨finite, quiet, next⟩ | failed
    · exact .modulates phase noisy finite next
    · exact .bypasses phase quiet finite next
    · exact fails phase rfl (by decide) failed (.inr (.inr (s.modulated_urng _)))
  case noiseInjection =>
    obtain ⟨t, run⟩ : ∃ t, execNoise s = .next t := by
      rw [execNoise]
      split_ifs
      · split <;> exact ⟨_, rfl⟩
      · exact ⟨_, rfl⟩
      · exact ⟨_, rfl⟩
    refine ⟨t, by rw [runCode_stage, phase, run], ?_⟩
    rcases execNoise_cases run with ⟨rx, length, finite, next⟩ | failed
    · exact .injects phase rx length finite next
    · exact fails phase rfl (by decide) failed (.inl phase)
  case demodulating =>
    obtain ⟨ok, run⟩ := runCode_demodulating phase (validated (by decide)).passed
    refine ⟨_, run, ?_⟩
    rcases s.demodulated_cases ok (bitsOf s.run s.res.rx) with ⟨-, next⟩ | failed
    · exact .demodulates phase next
    · exact fails phase rfl (by decide) failed (.inr (.inr (s.demodulated_urng _ _)))
  case mapping =>
    refine ⟨_, runCode_mapping phase (validated (by decide)).passed, ?_⟩
    rcases s.mapped_cases (idealsOf s.params s.run s.res) with ⟨ps, length, finite, flags, syms, ideal, next⟩ | failed
    · exact .maps phase ps ⟨length, finite, flags, syms, ideal⟩ next
    · refine fails phase rfl (by decide) failed (.inr ?_)
      cases quiet : s.run.noiseen
      · exact .inr (State.mapped_urng quiet _)
      · exact .inl rfl
  case computing =>
    refine ⟨_, runCode_computing phase (validated (by decide)).passed, ?_⟩
    rcases s.counted_cases (errorsOf s.run s.res) with ⟨finite, next⟩ | failed
    · exact .counts phase finite next
    · exact fails phase rfl (by decide) failed (.inr (.inr (s.counted_urng _)))
  all_goals exact ⟨s, by rw [runCode_stage, phase], rests phase rfl⟩


/-! ### The invariant -/

theorem State.Inv.holds {s : State} (h : s.Inv) {k : Nat} (pos : 1 ≤ k) (done : k ≤ s.phase.stagesDone) : s.Holds k :=
  (s.produced_iff.1 h.produced).1 k pos done

theorem State.Inv.validated {s : State} (h : s.Inv) (done : 2 ≤ s.phase.stagesDone) : s.Validated := h.holds (by decide) done

/-- A run in flight has recorded no cause (R33, R34). -/
theorem State.Inv.running {s : State} (h : s.Inv) (done : 1 ≤ s.phase.stagesDone) : s.cause = causeNone ∧ s.verrmask = 0 :=
  h.causes.running ((s.past_iff (by decide)).2 done)

theorem Phase.one_le_stagesDone {p : Phase} (busy : p.busy = true) : 1 ≤ p.stagesDone := by
  revert busy
  cases p <;> decide

theorem State.Inv.snrv_of_busy {s : State} (h : s.Inv) (busy : s.busy = true) : s.snrv = false := by
  have notDone : s.phase ≠ .done := fun e => by rw [State.busy, e] at busy; cases busy
  rw [h.snrv, beq_false_of_ne notDone, Bool.false_and]

/-- With no stage done and every result absent the results are as they should be (R70). -/
theorem produced_of_absent {s : State} (res : s.res = Results.absent) (none : s.phase.stagesDone = 0) : s.Produced := by
  rw [State.produced_iff, none, res]
  exact ⟨fun k pos zero => absurd pos (by omega), rfl⟩

theorem causeFits_of_running {s : State} (done : 1 ≤ s.phase.stagesDone) (cause : s.cause = causeNone)
    (mask : s.verrmask = 0) : s.CauseFits where
  running _ := ⟨cause, mask⟩
  idle e := by rw [e] at done; cases done
  failed e := by rw [e] at done; cases done

theorem causeFits_of_idle {s : State} (phase : s.phase = .idle) (cause : s.cause = causeNone ∨ s.cause = causeAborted)
    (mask : s.verrmask = 0) : s.CauseFits where
  running past := by rw [State.past, phase] at past; cases past
  idle _ := ⟨cause, mask⟩
  failed e := by rw [phase] at e; cases e

theorem snrv_of_notDone {s : State} (snrv : s.snrv = false) (phase : s.phase ≠ .done) :
    s.snrv = (s.phase == .done && s.run.noiseen) := by
  rw [snrv, beq_false_of_ne phase, Bool.false_and]

/-! #### A stage that completes -/

/-- `t` is `s` after a stage that completed: `c` stages were done, `d` are; what the first `c` left stays, the next ones
leave what they should, later ones nothing (R71, R244). -/
structure State.Completes (s t : State) (c d : Nat) : Prop where
  busy : s.busy = true
  before : s.phase.stagesDone = c
  after : t.phase.stagesDone = d
  later : c < d
  frame : StageFrame s t
  txbits : t.txbits = s.txbits
  work : t.work = Work.empty
  cause : t.cause = s.cause
  mask : s.verrmask = 0 → t.verrmask = 0
  snrv : s.snrv = false → t.snrv = (t.phase == .done && t.run.noiseen)
  noisy : t.phase = .noiseInjection → t.run.noiseen = true
  keeps : t.res.through c = s.res.through c
  leaves : ∀ k, c < k → k ≤ d → t.Holds k
  rest : s.res = s.res.through d → t.res = t.res.through d

theorem State.Completes.produced {s t : State} {c d : Nat} (h : s.Completes t c d) (produced : s.Produced) :
    t.Produced := by
  rw [State.produced_iff, h.before] at produced
  rw [State.produced_iff, h.after]
  obtain ⟨holds, absent⟩ := produced
  refine ⟨fun k pos le => ?_, h.rest (Results.eq_through_mono absent h.later.le)⟩
  by_cases new : c < k
  · exact h.leaves k new le
  · have old : k ≤ c := by omega
    exact (holds k pos old).congr h.frame.params h.frame.run (Results.through_congr_le h.keeps old)

theorem State.Completes.inv {s t : State} {c d : Nat} (h : s.Completes t c d) (inv : s.Inv) : t.Inv :=
  have running := inv.running (Phase.one_le_stagesDone h.busy)
  { txForm := by rw [h.txbits]; exact inv.txForm
    txBelow := by rw [h.txbits, h.frame.params]; exact inv.txBelow
    work := h.work
    causes := causeFits_of_running (by rw [h.after]; have := h.later; omega) (h.cause.trans running.1) (h.mask running.2)
    snrv := h.snrv (inv.snrv_of_busy h.busy)
    noisy := h.noisy
    produced := h.produced inv.produced }

/-- What holds of `c + 1` holds of every number above `c` up to there. -/
theorem forall_next {P : Nat → Prop} {c : Nat} (h : P (c + 1)) : ∀ k, c < k → k ≤ c + 1 → P k := by
  intro k low high
  obtain rfl : k = c + 1 := by omega
  exact h

/-- The frame of a completing stage: it writes flags, results and the stream position, and moves the phase on. -/
theorem completes_update {s : State} {p q : Phase} {degen snrv : Bool} {mask : BitVec 10} {res : Results} {urng : Urng}
    (phase : s.phase = p) (busy : p.busy = true) (later : p.stagesDone < q.stagesDone)
    (noMask : s.verrmask = 0 → mask = 0) (noSnr : s.snrv = false → snrv = (q == .done && s.run.noiseen))
    (noisy : q = .noiseInjection → s.run.noiseen = true)
    (keeps : res.through p.stagesDone = s.res.through p.stagesDone)
    (leaves : ∀ k, p.stagesDone < k → k ≤ q.stagesDone →
      (({ s with degen := degen, snrv := snrv, verrmask := mask, res := res, urng := urng } : State).advance q).Holds k)
    (rest : s.res = s.res.through q.stagesDone → res = res.through q.stagesDone) :
    s.Completes
      (({ s with degen := degen, snrv := snrv, verrmask := mask, res := res, urng := urng } : State).advance q)
      p.stagesDone q.stagesDone where
  busy := State.busy_of_phase phase busy
  before := congrArg Phase.stagesDone phase
  after := rfl
  later := later
  frame := (StageFrame.update ..).advance _
  txbits := rfl
  work := rfl
  cause := rfl
  mask := noMask
  snrv := noSnr
  noisy := noisy
  keeps := keeps
  leaves := leaves
  rest := rest

theorem completes_accepts {s : State} (phase : s.phase = .validating) (mask : s.gateMask = 0) :
    s.Completes (({ s with verrmask := 0 } : State).advance .generating) 1 2 :=
  completes_update phase rfl (by decide) (fun _ => rfl) id nofun rfl (forall_next ⟨mask⟩) id

theorem completes_generates {s : State} (phase : s.phase = .generating)
    (finite : (timeGrid s.run).all RNum.finite = true) : s.Completes (s.withTimeGrid.advance .modulating) 2 3 :=
  completes_update phase rfl (by decide) id id nofun rfl (forall_next ⟨rfl, finite, rfl, rfl⟩)
    (congrArg fun r : Results => { r with
      time := timeGrid s.run
      nsamp := some (BitVec.ofNat 32 (s.run.ns s.run.scheme))
      nsymb := some (BitVec.ofNat 32 (s.run.nsym s.run.scheme)) })

theorem completes_modulates {s : State} (phase : s.phase = .modulating) (noisy : s.run.noiseen = true)
    (finite : (waveOf s.run s.res.runbits).all RNum.finite = true) :
    s.Completes ((s.withWave (waveOf s.run s.res.runbits)).advance .noiseInjection) 3 4 :=
  completes_update phase rfl (by decide) id id (fun _ => noisy) rfl (forall_next ⟨rfl, finite⟩)
    (congrArg fun r : Results => { r with mod := waveOf s.run s.res.runbits })

theorem completes_bypasses {s : State} (phase : s.phase = .modulating)
    (finite : (waveOf s.run s.res.runbits).all RNum.finite = true) :
    s.Completes ((s.withBypass (waveOf s.run s.res.runbits)).advance .demodulating) 3 5 := by
  refine completes_update phase rfl (by decide) id id nofun rfl (fun k low high => ?_)
    (congrArg fun r : Results => { r with mod := waveOf s.run s.res.runbits, rx := waveOf s.run s.res.runbits })
  change 3 < k at low
  change k ≤ 5 at high
  obtain rfl | rfl : k = 4 ∨ k = 5 := by omega
  · exact ⟨rfl, finite⟩
  · exact ⟨waveOf_length s.run s.res.runbits, finite, fun _ => rfl⟩

theorem completes_injects {s : State} (phase : s.phase = .noiseInjection) (noisy : s.run.noiseen = true)
    {rx : List RNum} (length : rx.length = s.run.ns s.run.scheme) (finite : rx.all RNum.finite = true) :
    s.Completes ((s.withNoise rx).advance .demodulating) 4 5 :=
  completes_update phase rfl (by decide) id id nofun rfl
    (forall_next ⟨length, finite, fun quiet => absurd (noisy.symm.trans quiet) (by decide)⟩)
    (congrArg fun r : Results => { r with rx := rx })

theorem completes_demodulates {s : State} (phase : s.phase = .demodulating) :
    s.Completes ((s.withBits (bitsOf s.run s.res.rx)).advance .mapping) 5 6 :=
  completes_update phase rfl (by decide) id id nofun rfl (forall_next ⟨rfl⟩)
    (congrArg fun r : Results => { r with rxbits := bitsOf s.run s.res.rx })

theorem completes_maps {s : State} (phase : s.phase = .mapping) {ps : List Point}
    (received : ReceivedFor s.run (idealsOf s.params s.run s.res) ps) :
    s.Completes ((s.withPoints (idealsOf s.params s.run s.res) ps).advance .computing) 6 7 :=
  completes_update phase rfl (by decide) id id nofun rfl
    (forall_next
      { ctx := rfl
        crxLength := received.length.trans (idealsOf_length ..)
        crxFinite := received.finite
        crxFlags := received.flags
        crxSym := received.syms
        crxIdeal := received.ideal
        npts := congrArg (fun n => some (BitVec.ofNat 32 n)) (idealsOf_length ..) })
    (congrArg fun r : Results => { r with
      ctx := (idealsOf s.params s.run s.res).map Ideal.sent
      crx := ps
      npts := some (BitVec.ofNat 32 (idealsOf s.params s.run s.res).length) })

theorem completes_counts {s : State} (phase : s.phase = .computing) (absent : s.res.berSnrdb = none)
    (finite : (berRate s.run (errorsOf s.run s.res)).finite = true) :
    s.Completes ((s.withCounts (errorsOf s.run s.res)).advance .done) 7 8 :=
  completes_update phase rfl (by decide) id (congrArg (· || s.run.noiseen)) nofun rfl
    (forall_next ⟨rfl, rfl, rfl, finite, congrArg (fun x => if s.run.noiseen then some s.run.snrdb else x) absent⟩)
    (fun _ => rfl)


/-! #### Failures, commands, transactions and reset -/

/-- Outside a run without results the invariant is about TXBITS, the flags and the cause alone. -/
theorem inv_of_absent {s : State} (txForm : Memory.wf s.txbits = true) (txBelow : ∀ c ∈ s.txbits, c.1 < s.params.lmax)
    (work : s.work = Work.empty) (causes : s.CauseFits) (snrv : s.snrv = false) (res : s.res = Results.absent)
    (phase : s.phase = .idle ∨ s.phase = .failed) : s.Inv where
  txForm := txForm
  txBelow := txBelow
  work := work
  causes := causes
  snrv := snrv_of_notDone snrv (by rcases phase with e | e <;> rw [e] <;> decide)
  noisy e := by rcases phase with e' | e' <;> rw [e'] at e <;> cases e
  produced := produced_of_absent res (by rcases phase with e | e <;> rw [e] <;> rfl)

theorem causeFits_of_failed {s : State} (phase : s.phase = .failed)
    (failed : (s.verrmask ≠ 0 ∧ ∃ i, i < 10 ∧ s.verrmask.getLsbD i = true ∧ (∀ j, j < i → s.verrmask.getLsbD j = false) ∧
        s.cause = causeValidation i) ∨
      (s.verrmask = 0 ∧ (s.cause = causeRngRange ∨ s.cause = causeNonfinite))) : s.CauseFits where
  running past := by rw [State.past, phase] at past; cases past
  idle e := by rw [phase] at e; cases e
  failed _ := failed

/-- The gate's cause is that of the lowest bit of its mask (R230). -/
theorem gateMask_firstFailed {s : State} (mask : s.gateMask ≠ 0) :
    s.firstFailed < 10 ∧ s.gateMask.getLsbD s.firstFailed = true ∧
      ∀ j, j < s.firstFailed → s.gateMask.getLsbD j = false := by
  have bad : ∃ c ∈ checks s.params s.run s.res.runbits, (!c) = true := by
    simpa only [not_forall, exists_prop, Bool.not_eq_true, Bool.not_eq_true'] using (gateMask_zero s).not.1 mask
  have inside : s.firstFailed < (checks s.params s.run s.res.runbits).length := List.findIdx_lt_length.2 bad
  refine ⟨inside, ?_, fun j low => ?_⟩
  · have first : (!(checks s.params s.run s.res.runbits)[s.firstFailed]) = true := List.findIdx_getElem (w := inside)
    rw [Bool.not_eq_true'] at first
    rw [gateMask_bit, List.getElem?_eq_getElem inside, first]
    rfl
  · have passes : (checks s.params s.run s.res.runbits)[j]'(low.trans inside) = true := by
      simpa using List.not_of_lt_findIdx low
    rw [gateMask_bit, List.getElem?_eq_getElem (low.trans inside), passes]
    rfl

theorem State.Inv.raiseValidation {s : State} (h : s.Inv) (phase : s.phase = .validating) (mask : s.gateMask ≠ 0) :
    (s.raiseValidation s.gateMask (causeValidation s.firstFailed)).Inv :=
  have ⟨bound, set, low⟩ := gateMask_firstFailed mask
  inv_of_absent h.txForm h.txBelow h.work (causeFits_of_failed rfl (.inl ⟨mask, s.firstFailed, bound, set, low, rfl⟩))
    (h.snrv_of_busy (State.busy_of_phase phase rfl)) rfl (.inr rfl)

theorem State.Inv.failsTo {s t : State} (h : s.Inv) (busy : s.busy = true) (failed : s.FailsTo t) : t.Inv := by
  obtain ⟨c, d, k, cause, -, rfl⟩ := failed
  have mask := (h.running (Phase.one_le_stagesDone busy)).2
  exact inv_of_absent h.txForm h.txBelow rfl (causeFits_of_failed rfl (.inr ⟨mask, cause⟩)) rfl rfl (.inr rfl)

theorem State.Inv.stageStep {s t : State} (h : s.Inv) (stage : s.StageStep t) : t.Inv := by
  cases stage with
  | rests _ next => exact next ▸ h
  | accepts phase mask next => exact next ▸ (completes_accepts phase mask).inv h
  | rejects phase mask next => exact next ▸ h.raiseValidation phase mask
  | fails busy _ failed => exact h.failsTo busy failed
  | generates phase finite next => exact next ▸ (completes_generates phase finite).inv h
  | modulates phase noisy finite next => exact next ▸ (completes_modulates phase noisy finite).inv h
  | bypasses phase _ finite next => exact next ▸ (completes_bypasses phase finite).inv h
  | injects phase rx length finite next => exact next ▸ (completes_injects phase (h.noisy phase) length finite).inv h
  | demodulates phase next => exact next ▸ (completes_demodulates phase).inv h
  | maps phase ps received next => exact next ▸ (completes_maps phase received).inv h
  | counts phase finite next =>
    have absent := (h.produced.noBer (by rw [State.past, phase]; rfl)).2.2.2
    exact next ▸ (completes_counts phase absent finite).inv h

/-- In a state of the invariant the sequencer's turn completes, does what `StageStep` says, and keeps the invariant. -/
theorem State.Inv.exists_stage {s : State} (h : s.Inv) :
    ∃ t, runCode (.stage s.selector) s = .next t ∧ s.StageStep t ∧ t.Inv := by
  obtain ⟨t, run, stage⟩ := exists_stageStep h.validated
  exact ⟨t, run, stage, h.stageStep stage⟩

theorem State.Inv.startRun {s : State} (h : s.Inv) : s.startRun.Inv where
  txForm := h.txForm
  txBelow := h.txBelow
  work := h.work
  causes := causeFits_of_running le_rfl rfl rfl
  snrv := rfl
  noisy := nofun
  produced := s.startRun.produced_iff.2
    ⟨forall_next (c := 0) ⟨by simp only [State.startRun_res, State.startRun_run, State.startRun_params, State.latchedBits,
      List.length_map, List.length_range]⟩, rfl⟩

theorem State.Inv.abortRun {s : State} (h : s.Inv) (busy : s.busy = true) : s.abortRun.Inv :=
  inv_of_absent h.txForm h.txBelow rfl
    (causeFits_of_idle rfl (.inr rfl) (h.running (Phase.one_le_stagesDone busy)).2) rfl rfl (.inl rfl)

theorem State.Inv.clearAll {s : State} (h : s.Inv) : s.clearAll.Inv :=
  inv_of_absent h.txForm h.txBelow h.work (causeFits_of_idle rfl (.inl rfl) rfl) rfl rfl (.inl rfl)

/-- After reset the machine meets the invariant, whatever the environment (R290, R291). -/
theorem inv_afterReset (s : State) : s.afterReset.Inv :=
  inv_of_absent rfl nofun rfl (causeFits_of_idle rfl (.inl rfl) rfl) rfl rfl (.inl rfl)

/-- The results say nothing of a host field. -/
theorem State.Produced.withHost {s : State} (h : s.Produced) (f : HostFields) : (s.withHost f).Produced := by
  rw [State.produced_iff] at h ⊢
  exact ⟨fun k pos le => (h.1 k pos le).congr rfl rfl rfl, h.2⟩

/-- Of the host fields the invariant reads TXBITS alone. -/
theorem State.Inv.withHost {s : State} (h : s.Inv) (f : HostFields) (txForm : Memory.wf f.txbits = true)
    (txBelow : ∀ c ∈ f.txbits, c.1 < s.params.lmax) : (s.withHost f).Inv where
  txForm := txForm
  txBelow := txBelow
  work := h.work
  causes := ⟨h.causes.running, h.causes.idle, h.causes.failed⟩
  snrv := h.snrv
  noisy := h.noisy
  produced := h.produced.withHost f

/-- A transaction keeps the invariant: it writes host fields alone, of TXBITS at most one element below LMAX (R64, R65). -/
theorem State.Inv.hostOnly {s t : State} (h : s.Inv) (quiet : HostOnly s t) : t.Inv := by
  obtain ⟨f, rfl⟩ := State.exists_withHost quiet.view
  have tx := quiet.txbits
  rw [State.withHost_txbits] at tx
  rcases tx with same | ⟨a, b, below, stored⟩
  · exact h.withHost f (same ▸ h.txForm) (same ▸ h.txBelow)
  · refine h.withHost f (stored ▸ Memory.wf_set a b h.txForm) fun c mem => ?_
    rcases Memory.mem_set (stored ▸ mem) with rfl | old
    · exact below
    · exact h.txBelow c old

theorem State.Inv.runCode_host {s t : State} (h : s.Inv) {c : Code} (host : ∀ x, c ≠ .stage x)
    (run : runCode c s = .next t) : t.Inv := by
  obtain ⟨u, hu, outcome⟩ := Machine.runCode_host c s host
  obtain rfl : u = t := Host.Outcome.next.inj (hu.symm.trans run)
  rcases outcome with quiet | ⟨-, rfl⟩ | ⟨busy, rfl⟩ | ⟨-, rfl⟩
  · exact h.hostOnly quiet
  · exact h.startRun
  · exact h.abortRun busy
  · exact h.clearAll

theorem State.Inv.runCode_stage {s t : State} (h : s.Inv) (run : runCode (.stage s.selector) s = .next t) : t.Inv := by
  obtain ⟨u, hu, -, inv⟩ := h.exists_stage
  exact Host.Outcome.next.inj (hu.symm.trans run) ▸ inv

/-- Taking a turn off the list keeps the invariant. -/
theorem State.Inv.takeTurn {s : State} (h : s.Inv) (ts : List Turn) : ({ s with turns := ts } : State).Inv :=
  h.withHost { s with turns := ts } h.txForm h.txBelow

/-- Settles O47: the invariant through every kind of turn, the sequencer's by its stages. -/
theorem stepKeepsInvariant : Obligations.StepKeepsInvariant := by
  intro s t h step
  rcases step_cases s with ⟨-, -, e⟩ | ⟨-, -, e⟩ | ⟨ts, ⟨-, -, e⟩ | ⟨-, -, e⟩ | ⟨w, -, e⟩ | ⟨x, i, v, -, e⟩ | ⟨-, e⟩⟩ <;>
    rw [e] at step
  · cases step; exact h
  · exact h.runCode_stage step
  · cases step; exact h.takeTurn ts
  · exact (h.takeTurn ts).runCode_stage step
  · exact (h.takeTurn ts).runCode_host (by simp) step
  · exact (h.takeTurn ts).runCode_host (by simp) step
  · cases step; exact inv_afterReset _

/-- Settles O12: the reset state is Idle, with no result, no cause and no flag. -/
theorem resetMeetsInvariant : Obligations.ResetMeetsInvariant :=
  inv_of_absent rfl nofun rfl (causeFits_of_idle rfl (.inl rfl) rfl) rfl rfl (.inl rfl)


/-! ### The phases -/

theorem Phase.mem_follows_self (noise : Bool) (p : Phase) : p ∈ p.follows noise := by
  cases p <;> exact List.mem_cons_self

theorem Phase.mem_follows_of_rest {noise : Bool} {p q : Phase} (rest : p.busy = false)
    (next : q = .validating ∨ q = .idle) : q ∈ p.follows noise := by
  rcases (Phase.busy_iff p).1 rest with rfl | rfl | rfl <;> rcases next with rfl | rfl <;> simp [Phase.follows]

theorem Phase.mem_follows_of_busy {noise : Bool} {p q : Phase} (busy : p.busy = true)
    (next : q = .failed ∨ q = .idle) : q ∈ p.follows noise := by
  revert busy
  rcases next with rfl | rfl <;> cases p <;> simp [Phase.busy, Phase.code, Phase.follows]

/-- A stage leads to its successor in the source, or to Failed (R231 to R238). -/
theorem stage_mem_follows {s t : State} (h : runCode (.stage s.selector) s = .next t) :
    t.phase ∈ s.phase.follows s.run.noiseen := by
  rcases stage_cases h with ⟨-, rfl⟩ | ⟨p, ⟨-, rfl⟩ | ⟨-, rfl⟩⟩ | ⟨busy, -, c, d, k, -, -, rfl⟩ | ⟨p, rfl⟩ | ⟨p, noisy, -, rfl⟩ |
    ⟨p, quiet, -, rfl⟩ | ⟨p, -, rfl⟩ | ⟨p, -, rfl⟩ | ⟨p, -, -, -, -, rfl⟩ | ⟨p, -, rfl⟩
  case inl => exact t.phase.mem_follows_self _
  case inr.inr.inl => exact Phase.mem_follows_of_busy busy (.inl rfl)
  all_goals simp [Phase.follows, *]

theorem runCode_host_mem_follows {c : Code} {s t : State} (host : ∀ x, c ≠ .stage x) (h : runCode c s = .next t) :
    t.phase ∈ s.phase.follows s.run.noiseen := by
  obtain ⟨u, hu, outcome⟩ := runCode_host c s host
  obtain rfl : u = t := Host.Outcome.next.inj (hu.symm.trans h)
  rcases outcome with quiet | ⟨rest, rfl⟩ | ⟨busy, rfl⟩ | ⟨rest, rfl⟩
  · rw [show u.phase = s.phase from congrArg RunView.phase quiet.view]
    exact s.phase.mem_follows_self _
  · exact Phase.mem_follows_of_rest rest (.inl rfl)
  · exact Phase.mem_follows_of_busy busy (.inr rfl)
  · exact Phase.mem_follows_of_rest rest (.inr rfl)

/-- Settles O9: the phase after each kind of turn but the reset input. -/
theorem phaseOrder : Obligations.PhaseOrder := by
  intro s t noReset step
  rcases step_cases s with ⟨-, -, e⟩ | ⟨-, -, e⟩ | ⟨ts, ⟨-, -, e⟩ | ⟨-, -, e⟩ | ⟨w, -, e⟩ | ⟨x, i, v, -, e⟩ | ⟨reset, -⟩⟩
  case inr.inr.inr.inr.inr.inr => exact absurd reset (noReset ts)
  all_goals rw [e] at step
  · cases step; exact s.phase.mem_follows_self _
  · exact stage_mem_follows step
  · cases step; exact s.phase.mem_follows_self _
  · exact stage_mem_follows (s := { s with turns := ts }) step
  · exact runCode_host_mem_follows (s := { s with turns := ts }) (c := .cmd w) (by simp) step
  · exact runCode_host_mem_follows (s := { s with turns := ts }) (c := .bus x i v) (by simp) step

/-! ### A run with the sequencer scheduled -/

theorem runCode_of_rest {s : State} (rest : s.busy = false) : runCode (.stage s.selector) s = .next s := by
  rw [runCode_stage]
  rcases (Phase.busy_iff _).1 rest with p | p | p <;> rw [p]

/-- With no turn listed every step is the sequencer's (R95, R238, R310). -/
theorem step_eq_stage {s : State} (turns : s.turns = []) : step s = runCode (.stage s.selector) s := by
  cases busy : s.busy
  · rw [step_rest turns busy, runCode_of_rest busy]
  · exact step_stage turns busy

/-- The sequencer's turn runs the stage, or leaves the machine resting (R20, R238). -/
theorem step_of_sequencer {s : State} {ts : List Turn} (turns : s.turns = .sequencer :: ts) :
    step s = runCode (.stage s.selector) { s with turns := ts } := by
  rw [step_sequencer turns]
  cases busy : s.busy
  · exact (runCode_of_rest (s := { s with turns := ts }) busy).symm
  · rfl

/-- The host's command turn (R92). -/
theorem step_of_command {s : State} {w : Word} {ts : List Turn} (turns : s.turns = .command w :: ts) :
    step s = runCode (.cmd w) { s with turns := ts } := by
  rw [step, State.fetch, turns]

/-- The host's bus turn (R94). -/
theorem step_of_bus {s : State} {x i : Word} {v : Val} {ts : List Turn} (turns : s.turns = .bus x i v :: ts) :
    step s = runCode (.bus x i v) { s with turns := ts } := by
  rw [step, State.fetch, turns]

/-- What the sequencer's turn keeps, a run with no turn listed keeps. -/
theorem run_keeps {P : State → Prop}
    (keeps : ∀ s t, P s → runCode (.stage s.selector) s = .next t → P t) {n : Nat} {s t : State} (start : P s)
    (turns : s.turns = []) (run : Host.Core.run Sys2Proof.core n s = .next t) : P t := by
  induction n generalizing s with
  | zero => cases run; exact start
  | succ n ih =>
    obtain ⟨u, first, rest⟩ := run_succ_next run
    rw [step_eq_stage turns] at first
    exact ih (keeps s u start first) ((stage_frame first).turns.trans turns) rest

theorem run_of_rest {s : State} (turns : s.turns = []) (rest : s.busy = false) (n : Nat) :
    Host.Core.run Sys2Proof.core n s = .next s := by
  induction n with
  | zero => rfl
  | succ n ih => rw [run_next (step_rest turns rest), ih]

/-- In a run the sequencer's turn fails, or completes a further stage. -/
theorem State.StageStep.progress {s t : State} (h : s.StageStep t) (busy : s.busy = true) :
    t.phase = .failed ∨ s.phase.stagesDone < t.phase.stagesDone := by
  cases h with
  | rests rest => exact absurd (rest.symm.trans busy) (by decide)
  | rejects _ _ next => exact .inl (next ▸ rfl)
  | fails _ _ failed => obtain ⟨c, d, k, -, -, rfl⟩ := failed; exact .inl rfl
  | accepts phase _ next | generates phase _ next | modulates phase _ _ next | bypasses phase _ _ next
  | injects phase _ _ _ next | demodulates phase next | maps phase _ _ next | counts phase _ next =>
    right
    rw [phase, next, State.advance_phase]
    decide

theorem Phase.stagesDone_lt_of_busy {p : Phase} (busy : p.busy = true) : p.stagesDone < 8 := by
  revert busy
  cases p <;> decide

theorem Phase.eq_done {p : Phase} (rest : p.busy = false) (done : 1 ≤ p.stagesDone) : p = .done := by
  revert rest done
  cases p <;> decide

/-- As many steps as there are stages left end a run (R310). -/
theorem run_ends {n : Nat} {s : State} (inv : s.Inv) (turns : s.turns = []) (started : 1 ≤ s.phase.stagesDone)
    (enough : 8 ≤ s.phase.stagesDone + n) :
    ∃ t, Host.Core.run Sys2Proof.core n s = .next t ∧ (t.phase = .done ∨ t.phase = .failed) := by
  induction n generalizing s with
  | zero =>
    have rest : s.busy = false := by
      by_contra busy
      have := Phase.stagesDone_lt_of_busy (Bool.not_eq_false _ ▸ busy : s.phase.busy = true)
      omega
    exact ⟨s, rfl, .inl (Phase.eq_done rest started)⟩
  | succ n ih =>
    cases busy : s.busy
    · exact ⟨s, run_of_rest turns busy _, .inl (Phase.eq_done busy started)⟩
    · obtain ⟨t, first, stage, inv'⟩ := inv.exists_stage
      have turns' : t.turns = [] := (stage_frame first).turns.trans turns
      rw [run_next ((step_eq_stage turns).trans first)]
      rcases stage.progress busy with failed | further
      · exact ⟨t, run_of_rest turns' (by rw [State.busy, failed]; rfl) n, .inr failed⟩
      · exact ih inv' turns' (by omega) (by omega)

/-- Settles O55: a busy phase has a stage done, so seven steps would do. -/
theorem runEnds : Obligations.RunEnds := fun _ inv busy turns =>
  run_ends inv turns (Phase.one_le_stagesDone busy) (by omega)

/-! ### The draws of a run -/

/-- The draws a run has made when it reaches a phase (R240). -/
def Settings.drawsBy (r : Settings) (p : Params) (phase : Phase) : Nat :=
  if r.noiseen then
    match phase with
    | .demodulating | .mapping => 2 * r.ns r.scheme
    | .computing | .done => 2 * r.ns r.scheme + 2 * r.np p r.scheme
    | _ => 0
  else 0

theorem Settings.drawsBy_quiet {r : Settings} (quiet : r.noiseen = false) (p : Params) (phase : Phase) :
    r.drawsBy p phase = 0 := if_neg (by rw [quiet]; decide)

/-- What the stream of a state `t` of the run that `s` starts is (R46, R240). -/
structure Drawn (s t : State) : Prop where
  params : t.params = s.params
  run : t.run = s.run
  quiet : s.run.noiseen = false → t.urng = s.urng
  rejected : t.verrmask ≠ 0 → t.urng = s.urng
  running : 1 ≤ t.phase.stagesDone → t.urng = s.urng.after (s.run.drawsBy s.params t.phase)

/-- A stage that completes after `k` draws. -/
theorem Drawn.completes {s t u : State} {c d k : Nat} (h : Drawn s t) (inv : t.Inv) (completes : t.Completes u c d)
    (urng : u.urng = t.urng.after k)
    (count : t.run.drawsBy t.params u.phase = t.run.drawsBy t.params t.phase + k) : Drawn s u := by
  have started := Phase.one_le_stagesDone completes.busy
  rw [h.run, h.params] at count
  exact
    { params := completes.frame.params.trans h.params
      run := completes.frame.run.trans h.run
      quiet := fun quiet => by
        rw [Settings.drawsBy_quiet quiet, Settings.drawsBy_quiet quiet] at count
        rw [urng, show k = 0 by omega, Urng.after_zero, h.quiet quiet]
      rejected := fun mask => absurd (completes.mask (inv.running started).2) mask
      running := fun _ => by rw [urng, h.running started, Urng.after_after, count] }

theorem Drawn.failsTo {s t u : State} (h : Drawn s t) (inv : t.Inv) (busy : t.busy = true) (failed : t.FailsTo u)
    (still : t.phase = .noiseInjection ∨ t.run.noiseen = true ∨ u.urng = t.urng) : Drawn s u where
  params := failed.frame.params.trans h.params
  run := failed.frame.run.trans h.run
  quiet quiet := by
    rcases still with noise | noisy | same
    · exact absurd ((h.run ▸ quiet).symm.trans (inv.noisy noise)) (by decide)
    · exact absurd ((h.run ▸ quiet).symm.trans noisy) (by decide)
    · exact same.trans (h.quiet quiet)
  rejected mask := by
    obtain ⟨c, d, k, -, -, rfl⟩ := failed
    exact absurd (inv.running (Phase.one_le_stagesDone busy)).2 mask
  running done := by
    obtain ⟨c, d, k, -, -, rfl⟩ := failed
    exact absurd done (Nat.not_succ_le_self 0)

/-- Validation draws nothing, accepted or not (R240). -/
theorem Drawn.urng_of_validating {s t : State} (h : Drawn s t) (phase : t.phase = .validating) : t.urng = s.urng := by
  have e := h.running (by rw [phase]; decide)
  rw [phase] at e
  simpa [Settings.drawsBy] using e

theorem Drawn.stageStep {s t u : State} (h : Drawn s t) (inv : t.Inv) (stage : t.StageStep u) : Drawn s u := by
  have drawless {p q : Phase} (phase : t.phase = p) (next : u.phase = q)
      (same : t.run.drawsBy t.params q = t.run.drawsBy t.params p) :
      t.run.drawsBy t.params u.phase = t.run.drawsBy t.params t.phase + 0 := by rw [phase, next, same, Nat.add_zero]
  cases stage with
  | rests _ next => exact next ▸ h
  | accepts phase mask next =>
    subst next
    exact h.completes inv (completes_accepts phase mask) (Urng.after_zero _).symm (drawless phase rfl rfl)
  | rejects phase mask next =>
    subst next
    have urng := h.urng_of_validating phase
    exact ⟨h.params, h.run, fun _ => urng, fun _ => urng, fun done => absurd done (Nat.not_succ_le_self 0)⟩
  | fails busy _ failed still => exact h.failsTo inv busy failed still
  | generates phase finite next =>
    subst next
    exact h.completes inv (completes_generates phase finite) (Urng.after_zero _).symm (drawless phase rfl rfl)
  | modulates phase noisy finite next =>
    subst next
    exact h.completes inv (completes_modulates phase noisy finite) (Urng.after_zero _).symm (drawless phase rfl rfl)
  | bypasses phase quiet finite next =>
    subst next
    exact h.completes inv (completes_bypasses phase finite) (Urng.after_zero _).symm
      (drawless phase rfl (by rw [Settings.drawsBy_quiet quiet, Settings.drawsBy_quiet quiet]))
  | injects phase rx length finite next =>
    subst next
    have noisy := inv.noisy phase
    refine h.completes inv (completes_injects phase noisy length finite) (k := 2 * t.run.ns t.run.scheme) rfl ?_
    rw [phase]
    simp [Settings.drawsBy, noisy]
  | demodulates phase next =>
    subst next
    exact h.completes inv (completes_demodulates phase) (Urng.after_zero _).symm (drawless phase rfl rfl)
  | maps phase ps received next =>
    subst next
    refine h.completes inv (completes_maps phase received)
      (k := if t.run.noiseen then 2 * t.run.np t.params t.run.scheme else 0) ?_ ?_
    · rw [← idealsOf_length t.params t.run t.res]
      change (if t.run.noiseen then _ else _) = _
      split
      · rfl
      · exact (Urng.after_zero _).symm
    · rw [phase]
      cases noisy : t.run.noiseen <;> simp [Settings.drawsBy, noisy]
  | counts phase finite next =>
    subst next
    have absent := (inv.produced.noBer (by rw [State.past, phase]; rfl)).2.2.2
    exact h.completes inv (completes_counts phase absent finite) (Urng.after_zero _).symm (drawless phase rfl rfl)

/-- Where a run starts nothing has been drawn for it. -/
theorem Drawn.start {s : State} (phase : s.phase = .validating) : Drawn s s where
  params := rfl
  run := rfl
  quiet _ := rfl
  rejected _ := rfl
  running _ := by rw [phase]; simp [Settings.drawsBy]

/-- Settles O58: what a run has drawn when it reaches a phase, through its stages. -/
theorem drawsConsumed : Obligations.DrawsConsumed := by
  intro s t inv phase turns run
  obtain ⟨-, drawn⟩ : t.Inv ∧ Drawn s t := by
    refine run_keeps (P := fun t => t.Inv ∧ Drawn s t) (fun t u ⟨inv, drawn⟩ next => ?_) ⟨inv, .start phase⟩ turns run
    obtain ⟨u', next', stage, inv'⟩ := inv.exists_stage
    obtain rfl : u' = u := Host.Outcome.next.inj (next'.symm.trans next)
    exact ⟨inv', drawn.stageStep inv stage⟩
  refine ⟨drawn.quiet, drawn.rejected, fun noisy done => ?_⟩
  rw [drawn.running (by rw [done]; decide), done]
  simp [Settings.drawsBy, noisy]

/-! ### The host beside a run -/

/-- A quiet word starts, aborts and clears nothing. -/
theorem execCommandWord_quiet {w : Word} {s t : State} (quiet : quietWord w = true)
    (h : execCommandWord w s = .next t) : HostOnly s t := by
  obtain ⟨u, hu, outcome⟩ := execCommandWord_cases w s
  obtain rfl : u = t := Host.Outcome.next.inj (hu.symm.trans h)
  rcases outcome with only | ⟨rfl, -⟩ | ⟨rfl, -⟩ | ⟨rfl, -⟩
  · exact only
  all_goals cases quiet

theorem runCode_quiet_bus {x i : Word} {v : Val} {s t : State} (quiet : (Turn.bus x i v).quiet = true)
    (h : runCode (.bus x i v) s = .next t) : HostOnly s t := by
  rcases runCode_bus h with only | ⟨write, command⟩
  · exact only
  · rw [Turn.quiet, show decodeBus x i v = .ok (.wr 0x01 v) from write] at quiet
    exact execCommandWord_quiet quiet command

/-- A quiet turn of the host writes host fields alone. -/
theorem step_quiet_host {s t : State} {u : Turn} {ts : List Turn} (quiet : u.quiet = true) (host : u ≠ .sequencer)
    (turns : s.turns = u :: ts) (h : step s = .next t) : HostOnly { s with turns := ts } t := by
  cases u with
  | sequencer => exact absurd rfl host
  | reset => cases quiet
  | command w =>
    rw [step_of_command turns, runCode_cmd] at h
    exact execCommandWord_quiet quiet h
  | bus x i v =>
    rw [step_of_bus turns] at h
    exact runCode_quiet_bus quiet h

/-- The turns `ts` from `s` and the sequencer's turns among them from `s'` lead to the same run view. -/
theorem run_quiet_view {ts : List Turn} {s s' t : State} (quiet : ∀ u ∈ ts, u.quiet = true) (turns : s.turns = ts)
    (alone : s'.turns = []) (view : s'.view = s.view) (run : Host.Core.run Sys2Proof.core ts.length s = .next t) :
    ∃ u, Host.Core.run Sys2Proof.core (ts.count .sequencer) s' = .next u ∧ t.view = u.view := by
  induction ts generalizing s s' with
  | nil => cases run; exact ⟨s', rfl, view.symm⟩
  | cons turn ts ih =>
    obtain ⟨v, first, rest⟩ := run_succ_next run
    have quiet' : ∀ u ∈ ts, u.quiet = true := fun u mem => quiet u (List.mem_cons_of_mem _ mem)
    by_cases sequencer : turn = .sequencer
    · subst sequencer
      rw [step_of_sequencer turns] at first
      obtain ⟨v', first', view'⟩ := stage_view_congr (s := { s with turns := ts }) view first
      have turns' : v.turns = ts := (stage_frame (s := { s with turns := ts }) first).turns
      obtain ⟨u, run', same⟩ := ih quiet' turns' ((stage_frame first').turns.trans alone) view' rest
      exact ⟨u, by rw [List.count_cons_self, run_next ((step_eq_stage alone).trans first'), run'], same⟩
    · have only := step_quiet_host (quiet turn List.mem_cons_self) sequencer turns first
      rw [List.count_cons_of_ne sequencer]
      exact ih quiet' only.turns alone (view.trans only.view.symm) rest

/-- Settles O57: by induction on the turns; the host's keep the run's view, and a stage reads nothing outside it. -/
theorem hostDoesNotDisturb : Obligations.HostDoesNotDisturb := fun s _ ts quiet run =>
  run_quiet_view (s := { s with turns := ts }) quiet rfl rfl rfl run


/-! ### What the results of a finished run are -/

theorem qpskErrors_le (r : Settings) (res : Results) : qpskErrors r res ≤ 2 * r.nsym .qpsk := by
  have count := List.countP_le_length (p := fun k =>
    bitAt res.rxbits (2 * k) != bitAt res.runbits (2 * k) || bitAt res.rxbits (2 * k + 1) != bitAt res.runbits (2 * k + 1))
    (l := List.range (r.nsym .qpsk))
  rw [List.length_range] at count
  exact Nat.mul_le_mul_left 2 count

theorem bpskErrors_le (r : Settings) (res : Results) : bpskErrors r res ≤ r.len := by
  have count := List.countP_le_length (p := fun k => bitAt res.rxbits k != bitAt res.runbits k) (l := List.range r.len)
  rwa [List.length_range] at count

theorem nsym_bpsk (r : Settings) : r.nsym .bpsk = r.len := by
  rw [Settings.nsym, Scheme.bps, Nat.sub_self, Nat.add_zero, Nat.div_one]

theorem nsym_qpsk (r : Settings) : r.nsym .qpsk = (r.len + 1) / 2 := rfl

/-- A number below `2 ^ 32` fits a word. -/
theorem ofNat_toNat {n : Nat} (h : n < 2 ^ 32) : (BitVec.ofNat 32 n).toNat = n := by
  rw [BitVec.toNat_ofNat, Nat.mod_eq_of_lt h]

section
variable {p : Params} {r : Settings} {bits : List Byte}

/-- The numbers of a run that passed validation, against its bit count (R9, R69). -/
theorem Passed.bps_mul_nsym (h : Passed p r bits) : r.scheme.bps * r.nsym r.scheme = r.len := by
  rcases h.scheme with ⟨e, -⟩ | ⟨e, -, even⟩ <;> rw [e]
  · rw [nsym_bpsk, Scheme.bps, Nat.one_mul]
  · rw [nsym_qpsk, Scheme.bps]
    omega

theorem Passed.nsym_le (h : Passed p r bits) : r.nsym r.scheme ≤ r.len := by
  rw [← h.bps_mul_nsym]
  exact Nat.le_mul_of_pos_left _ (by cases r.scheme <;> decide)

theorem Passed.errorsOf_le (h : Passed p r bits) (res : Results) : errorsOf r res ≤ r.len := by
  rw [← h.bps_mul_nsym, errorsOf]
  cases r.scheme
  · rw [nsym_bpsk, Scheme.bps, Nat.one_mul]
    exact bpskErrors_le r res
  · exact qpskErrors_le r res

theorem Passed.bitsOf_length (h : Passed p r bits) (rx : List RNum) : (bitsOf r rx).length = r.len := by
  rw [← h.bps_mul_nsym, bitsOf]
  cases r.scheme
  · rw [bpskBits_length, nsym_bpsk, Scheme.bps, Nat.one_mul]
  · exact qpskBits_length r rx

theorem Settings.len_lt (r : Settings) : r.len < 2 ^ 32 := r.datalen.isLt

/-- The error count fits its register (R47, R215). -/
theorem Passed.errorsOf_toNat (h : Passed p r bits) (res : Results) :
    (BitVec.ofNat 32 (errorsOf r res)).toNat = errorsOf r res :=
  ofNat_toNat ((h.errorsOf_le res).trans_lt r.len_lt)
end

theorem berRate_val (r : Settings) (errors : Nat) : (berRate r errors).val = errors / r.datalen.toNat := by
  rw [berRate, RNum.val_over, RNum.val_ofNat, RNum.val_ofNat, Settings.len]

/-- The numbers of elements in the buffers of a finished run (R49, R70). -/
structure Finished (s : State) : Prop where
  passed : Passed s.params s.run s.res.runbits
  runbits : s.res.runbits.length = s.run.len
  time : s.res.time.length = s.run.ns s.run.scheme
  mod : s.res.mod.length = s.run.ns s.run.scheme
  rx : s.res.rx.length = s.run.ns s.run.scheme
  rxbits : s.res.rxbits.length = s.run.len
  ctx : s.res.ctx.length = s.run.np s.params s.run.scheme
  crx : s.res.crx.length = s.run.np s.params s.run.scheme
  generated : s.Generated
  mapped : s.Mapped
  counted : s.Counted

theorem State.Inv.finished {s : State} (h : s.Inv) (done : s.phase = .done) : Finished s := by
  have holds {k : Nat} (pos : 1 ≤ k) (le : k ≤ 8) : s.Holds k := h.holds pos (by rw [done]; exact le)
  have latched : s.Latched := holds (k := 1) (by decide) (by decide)
  have validated : s.Validated := holds (k := 2) (by decide) (by decide)
  have generated : s.Generated := holds (k := 3) (by decide) (by decide)
  have modulated : s.Modulated := holds (k := 4) (by decide) (by decide)
  have received : s.Received := holds (k := 5) (by decide) (by decide)
  have demodulated : s.Demodulated := holds (k := 6) (by decide) (by decide)
  have mapped : s.Mapped := holds (k := 7) (by decide) (by decide)
  have passed := validated.passed
  have count : s.run.txcount.toNat = s.run.len := congrArg BitVec.toNat passed.count
  exact
    { passed := passed
      runbits := by rw [latched.length, count, Nat.min_eq_left passed.high]
      time := by rw [generated.time, timeGrid_length]
      mod := by rw [modulated.mod, waveOf_length]
      rx := received.length
      rxbits := by rw [demodulated.bits, passed.bitsOf_length]
      ctx := by rw [mapped.ctx, List.length_map, idealsOf_length]
      crx := mapped.crxLength
      generated := generated
      mapped := mapped
      counted := holds (k := 8) (by decide) (by decide) }

/-- Settles O53: the error count is at most the bit count, and validation keeps the bit count from 0. -/
theorem berBounds : Obligations.BerBounds := by
  intro s inv done
  have finished := inv.finished done
  obtain ⟨errcnt, total, value, -, -⟩ := finished.counted
  have count := finished.passed.errorsOf_toNat s.res
  have le : errorsOf s.run s.res ≤ s.run.datalen.toNat := finished.passed.errorsOf_le s.res
  have pos : 0 < s.run.datalen.toNat := lt_of_lt_of_le (by decide) finished.passed.low
  refine ⟨_, _, _, errcnt, total, value, count.trans_le le, pos, by rw [berRate_val, count], ?_, ?_⟩ <;> rw [berRate_val]
  · positivity
  · exact div_le_one_of_le₀ (Nat.cast_le.2 le) (Nat.cast_nonneg _)

/-! ### Reads -/

theorem State.regValue_index (s : State) (r : Reg) : s.regValue r.index = s.readReg r := by
  rw [State.regValue, Reg.ofIndex_index]

theorem State.bufValue_id (s : State) (sp : Space) (i : Word) : s.bufValue sp.id i = s.readBuf sp i.toNat := by
  rw [State.bufValue, Space.ofId_id]

theorem exec_rd (s : State) (idx : BitVec 16) : exec (.rd idx) s = .next (s.answer (s.regValue idx)) := rfl

theorem exec_rb (s : State) (space : BitVec 4) (i : Word) :
    exec (.rb space i) s = .next (s.answer (s.bufValue space i)) := rfl

/-- A read that is not refused leaves its value and nothing else (R26, R64). -/
theorem exec_rd_of_value {s : State} {r : Reg} {v : Val} (value : s.readReg r = some v) :
    exec (.rd r.index) s = .next { s with rdata := some v } := by
  rw [exec_rd, State.regValue_index, value, State.answer]

/-- A refused read sets ACCERR and returns no value (R27). -/
theorem exec_rd_of_refused {s : State} {r : Reg} (refused : s.readReg r = none) :
    exec (.rd r.index) s = .next { s with accerr := true, rdata := none } := by
  rw [exec_rd, State.regValue_index, refused, State.answer, State.refuseRead]

theorem exec_rb_of_value {s : State} {sp : Space} {i : Word} {v : Val} (value : s.readBuf sp i.toNat = some v) :
    exec (.rb sp.id i) s = .next { s with rdata := some v } := by
  rw [exec_rb, State.bufValue_id, value, State.answer]

/-- In Done a result that is there is visible (R70). -/
theorem State.visible_of_done {s : State} (done : s.phase = .done) (v : Option Val) : s.visible v = v := if_pos done

theorem State.visible_of_not_done {s : State} (notDone : s.phase ≠ .done) (v : Option Val) : s.visible v = none :=
  if_neg notDone

/-! #### Buffers -/

/-- The element of a result buffer below its length, as a read of its space gives it. -/
theorem exec_rb_element {α : Type} {s : State} {sp : Space} {l : List α} {mk : α → Val} (done : s.phase = .done)
    (space : ∀ i, s.readBuf sp i = s.visible (l[i]?.map mk)) {i : Word} (inside : i.toNat < l.length) :
    ∃ x, l[i.toNat]? = some x ∧ exec (.rb sp.id i) s = .next { s with rdata := some (mk x) } := by
  refine ⟨l[i.toNat], List.getElem?_eq_getElem inside, exec_rb_of_value ?_⟩
  rw [space, State.visible_of_done done, List.getElem?_eq_getElem inside]
  rfl

/-- The field of a point that the index names, by its remainder (R63). -/
theorem pointField_of_get {l : List Point} {i : Nat} {p : Point} (get : l[i / 4]? = some p) :
    (i % 4 = 0 → pointField l i = some (.num p.i)) ∧ (i % 4 = 1 → pointField l i = some (.num p.q)) ∧
    (i % 4 = 2 → pointField l i = some (.u32 p.sym)) ∧ (i % 4 = 3 → pointField l i = some (.u32 p.err)) := by
  simp only [pointField, get]
  refine ⟨fun e => ?_, fun e => ?_, fun e => ?_, fun e => ?_⟩ <;> rw [e] <;> rfl

/-- The point of a result buffer at a quarter of an index below its length, field by field. -/
theorem exec_rb_point {s : State} {sp : Space} {l : List Point} {n : Nat} (done : s.phase = .done)
    (space : ∀ i, s.readBuf sp i = s.visible (pointField l i)) (length : l.length = n) {i : Word}
    (inside : i.toNat < 4 * n) :
    ∃ p, l[i.toNat / 4]? = some p ∧
      (i.toNat % 4 = 0 → exec (.rb sp.id i) s = .next { s with rdata := some (.num p.i) }) ∧
      (i.toNat % 4 = 1 → exec (.rb sp.id i) s = .next { s with rdata := some (.num p.q) }) ∧
      (i.toNat % 4 = 2 → exec (.rb sp.id i) s = .next { s with rdata := some (.u32 p.sym) }) ∧
      (i.toNat % 4 = 3 → exec (.rb sp.id i) s = .next { s with rdata := some (.u32 p.err) }) := by
  have get : l[i.toNat / 4]? = some (l[i.toNat / 4]'(by omega)) := List.getElem?_eq_getElem (by omega)
  have read {v : Val} (field : pointField l i.toNat = some v) :
      exec (.rb sp.id i) s = .next { s with rdata := some v } :=
    exec_rb_of_value (by rw [space, State.visible_of_done done, field])
  obtain ⟨f0, f1, f2, f3⟩ := pointField_of_get get
  exact ⟨_, get, fun e => read (f0 e), fun e => read (f1 e), fun e => read (f2 e), fun e => read (f3 e)⟩

/-- Settles O28: the buffers of a finished run have their valid lengths, so every read below them finds its element. -/
theorem buffersInDone : Obligations.BuffersInDone := by
  intro s inv done i
  have finished := inv.finished done
  exact
    ⟨fun h => exec_rb_element (sp := .runbits) done (fun _ => rfl) (h.trans_eq finished.runbits.symm),
      fun h => exec_rb_element (sp := .time) done (fun _ => rfl) (h.trans_eq finished.time.symm),
      fun h => exec_rb_element (sp := .mod) done (fun _ => rfl) (h.trans_eq finished.mod.symm),
      fun h => exec_rb_element (sp := .rx) done (fun _ => rfl) (h.trans_eq finished.rx.symm),
      fun h => exec_rb_element (sp := .rxbits) done (fun _ => rfl) (h.trans_eq finished.rxbits.symm),
      fun h => exec_rb_point (sp := .ctx) done (fun _ => rfl) finished.ctx h,
      fun h => exec_rb_point (sp := .crx) done (fun _ => rfl) finished.crx h⟩

/-! #### Registers -/

/-- A result register in Done (R70). -/
theorem exec_rd_result {α : Type} {s : State} {r : Reg} {o : Option α} {x : α} {mk : α → Val} (done : s.phase = .done)
    (reg : s.readReg r = s.visible (o.map mk)) (value : o = some x) :
    exec (.rd r.index) s = .next { s with rdata := some (mk x) } :=
  exec_rd_of_value (by rw [reg, State.visible_of_done done, value]; rfl)

/-- Settles O29: what the stages left is what the registers read, and each number is below `2 ^ 32`. -/
theorem registersInDone : Obligations.RegistersInDone := by
  intro s inv fits done
  have finished := inv.finished done
  obtain ⟨errcnt, total, value, -, snr⟩ := finished.counted
  have passed := finished.passed
  have count := passed.errorsOf_toNat s.res
  have ns_lt : s.run.ns s.run.scheme < 2 ^ 32 := by rw [passed.ns]; exact passed.fits.trans_lt fits.nsMax
  have nsym_lt : s.run.nsym s.run.scheme < 2 ^ 32 := passed.nsym_le.trans_lt s.run.len_lt
  have np_lt : s.run.np s.params s.run.scheme < 2 ^ 32 := (Nat.min_le_left _ _).trans_lt nsym_lt
  have snrv : s.snrv = s.run.noiseen := by rw [inv.snrv, done]; rfl
  have berSnrdb : s.readReg .berSnrdb = if s.snrv then s.visible (s.res.berSnrdb.map .num) else none := rfl
  refine ⟨_, _, _, _, _, exec_rd_result (r := .berErrcnt) done rfl errcnt, count,
    exec_rd_result (r := .berTotal) done rfl total, exec_rd_result (r := .berValue) done rfl value,
    by rw [berRate_val, count], exec_rd_result (r := .nsamp) done rfl finished.generated.nsamp,
    ofNat_toNat ns_lt, exec_rd_result (r := .nsymb) done rfl finished.generated.nsymb,
    ofNat_toNat nsym_lt, exec_rd_result (r := .npts) done rfl finished.mapped.npts,
    ofNat_toNat np_lt, fun noisy => ?_, fun quiet => ?_⟩
  · rw [noisy] at snrv snr
    exact ⟨snrv, exec_rd_result (r := .berSnrdb) done (berSnrdb.trans (if_pos snrv)) snr⟩
  · rw [quiet] at snrv
    exact ⟨snrv, exec_rd_of_refused (r := .berSnrdb) (by rw [berSnrdb, snrv]; rfl)⟩

/-! #### A read again -/

/-- No register's value depends on the last answer. -/
theorem State.regValue_rdata (s : State) (v : Option Val) (idx : BitVec 16) :
    ({ s with rdata := v } : State).regValue idx = s.regValue idx := by
  rw [State.regValue, State.regValue]
  cases Reg.ofIndex idx with
  | none => rfl
  | some r => cases r <;> rfl

theorem State.readReg_refuseRead (s : State) {r : Reg} (other : r ≠ .status) :
    s.refuseRead.readReg r = s.readReg r := by
  cases r with
  | status => exact absurd rfl other
  | _ => rfl

/-- A read refused once is refused again: STATUS, the one register in which ACCERR shows, is never refused. -/
theorem State.regValue_refuseRead {s : State} {idx : BitVec 16} (refused : s.regValue idx = none) :
    s.refuseRead.regValue idx = none := by
  rw [State.regValue] at refused ⊢
  cases e : Reg.ofIndex idx with
  | none => rfl
  | some r =>
    rw [e] at refused
    have other : r ≠ .status := by rintro rfl; cases refused
    exact (s.readReg_refuseRead other).trans refused

/-- No buffer's value depends on the last answer or on ACCERR. -/
theorem State.bufValue_answer (s : State) (a : Bool) (v : Option Val) (space : BitVec 4) (i : Word) :
    ({ s with accerr := a, rdata := v } : State).bufValue space i = s.bufValue space i := by
  rw [State.bufValue, State.bufValue]
  cases Space.ofId space with
  | none => rfl
  | some sp => cases sp <;> rfl

/-- An answer given again in the state it left gives that state. -/
theorem State.answer_answer {s : State} {value : State → Option Val}
    (stable : ∀ v, value { s with rdata := v } = value s) (refused : value s = none → value s.refuseRead = none) :
    (s.answer (value s)).answer (value (s.answer (value s))) = s.answer (value s) := by
  cases e : value s with
  | none => rw [State.answer, refused e]; rfl
  | some v => rw [State.answer, stable, e]; rfl

theorem State.answer_frame (s : State) (v : Option Val) :
    s.answer v = { s with rdata := (s.answer v).rdata, accerr := (s.answer v).accerr } := by
  cases v <;> rfl

/-- Settles O30: what a read leaves, its answer and ACCERR, no read depends on, but a read of STATUS on ACCERR. -/
theorem readsHaveNoSideEffect : Obligations.ReadsHaveNoSideEffect := by
  rintro s i (⟨idx, rfl⟩ | ⟨space, j, rfl⟩)
  · exact ⟨_, exec_rd s idx, s.answer_frame _,
      congrArg Host.Outcome.next
        (State.answer_answer (value := (·.regValue idx)) (fun v => s.regValue_rdata v idx) State.regValue_refuseRead)⟩
  · exact ⟨_, exec_rb s space j, s.answer_frame _,
      congrArg Host.Outcome.next
        (State.answer_answer (value := (·.bufValue space j)) (fun v => s.bufValue_answer s.accerr v space j)
          (s.bufValue_answer true none space j).trans)⟩


/-! ### Register accesses -/

/-- WR of any register but CMD stores, or is refused (R26, R27). -/
theorem exec_wr (s : State) {r : Reg} (v : Val) (other : r ≠ .cmd) :
    exec (.wr r.index v) s = .next ((s.writeReg r v).getD s.refuseAccess) := by
  change execWr r.index v s = _
  rw [execWr, Reg.ofIndex_index]
  split
  next e => cases e; exact absurd rfl other
  next e => cases e; cases s.writeReg r v <;> rfl
  next e => cases e

/-- WR of CMD runs the command in the value (R31). -/
theorem exec_wr_cmd (s : State) (v : Val) : exec (.wr Reg.cmd.index v) s = execCommandWord (operandWord v) s := rfl

theorem exec_wr_unmapped {s : State} {idx : BitVec 16} (unmapped : Reg.ofIndex idx = none) (v : Val) :
    exec (.wr idx v) s = .next { s with accerr := true } := by
  change execWr idx v s = _
  rw [execWr, unmapped]
  rfl

theorem exec_rd_unmapped {s : State} {idx : BitVec 16} (unmapped : Reg.ofIndex idx = none) :
    exec (.rd idx) s = .next { s with accerr := true, rdata := none } := by
  rw [exec_rd, State.regValue, unmapped]
  rfl

/-- A register that the host cannot write (R27). -/
theorem exec_wr_readOnly {s : State} {r : Reg} {v : Val} (other : r ≠ .cmd) (readOnly : s.writeReg r v = none) :
    exec (.wr r.index v) s = .next { s with accerr := true } := by
  rw [exec_wr s v other, readOnly]
  rfl

/-- Settles O24: the registers by the index each has, and the indices that no register has. -/
theorem refusedRegisterAccesses : Obligations.RefusedRegisterAccesses := by
  intro s idx v
  refine ⟨fun readOnly => ?_, fun cmd => ?_, fun unmapped => ?_, fun result notDone => ?_, fun noSnr => ?_,
    fun writable => ?_⟩
  · have reg {r : Reg} (other : r ≠ .cmd) (store : s.writeReg r v = none) := exec_wr_readOnly other store
    simp only [List.mem_cons, List.not_mem_nil, or_false] at readOnly
    rcases readOnly with rfl | rfl | rfl | rfl | rfl | rfl | rfl | rfl | rfl | rfl | rfl
    · exact reg (r := .id) (by decide) rfl
    · exact reg (r := .status) (by decide) rfl
    · exact reg (r := .cause) (by decide) rfl
    · exact reg (r := .verrmask) (by decide) rfl
    · exact reg (r := .berErrcnt) (by decide) rfl
    · exact reg (r := .berTotal) (by decide) rfl
    · exact reg (r := .berValue) (by decide) rfl
    · exact reg (r := .berSnrdb) (by decide) rfl
    · exact reg (r := .nsamp) (by decide) rfl
    · exact reg (r := .nsymb) (by decide) rfl
    · exact reg (r := .npts) (by decide) rfl
  · subst cmd
    exact exec_rd_of_refused (r := .cmd) rfl
  · have none : Reg.ofIndex idx = none :=
      Reg.ofIndex_none.2 fun r e => unmapped (e ▸ List.mem_map_of_mem (f := Reg.index) (Reg.mem_all r))
    exact ⟨exec_wr_unmapped none v, exec_rd_unmapped none⟩
  · have hidden := s.visible_of_not_done notDone
    simp only [List.mem_cons, List.not_mem_nil, or_false] at result
    rcases result with rfl | rfl | rfl | rfl | rfl | rfl | rfl
    · exact exec_rd_of_refused (r := .berErrcnt) (hidden _)
    · exact exec_rd_of_refused (r := .berTotal) (hidden _)
    · exact exec_rd_of_refused (r := .berValue) (hidden _)
    · exact exec_rd_of_refused (r := .berSnrdb) (by rw [State.readReg, hidden, ite_self])
    · exact exec_rd_of_refused (r := .nsamp) (hidden _)
    · exact exec_rd_of_refused (r := .nsymb) (hidden _)
    · exact exec_rd_of_refused (r := .npts) (hidden _)
  · exact exec_rd_of_refused (r := .berSnrdb) (by rw [State.readReg, noSnr]; rfl)
  · simp only [List.mem_cons, List.not_mem_nil, or_false] at writable
    rcases writable with rfl | rfl | rfl | rfl | rfl | rfl | rfl | rfl | rfl | rfl <;> exact ⟨_, rfl, rfl, rfl⟩

/-- Settles O20: format CMD and a write to CMD run the same word. -/
theorem cmdRegister : Obligations.CmdRegister := by
  refine ⟨fun s w i decoded => ?_, fun s => exec_rd_of_refused (r := .cmd) rfl⟩
  calc exec (.wr Reg.cmd.index (.u32 w)) s
      = execCommandWord w s := exec_wr_cmd s (.u32 w)
    _ = runCode (.cmd w) s := (runCode_cmd w s).symm
    _ = exec i s := by rw [runCode, decoded]

/-- The one stored bit of NOISEEN as the register reads (R43). -/
theorem ofBool_word (b : Bool) : (BitVec.ofBool b).setWidth 32 = if b then 1 else 0 := by cases b <;> rfl

/-- Settles O21: each register by the value `readReg` gives it. -/
theorem registerReads : Obligations.RegisterReads := fun s =>
  ⟨exec_rd_of_value (r := .id) rfl, exec_rd_of_value (r := .cause) rfl, exec_rd_of_value (r := .verrmask) rfl,
    exec_rd_of_value (r := .ien) rfl, exec_rd_of_value (r := .txcount) rfl, exec_rd_of_value (r := .bitrate) rfl,
    exec_rd_of_value (r := .carfreq) rfl, exec_rd_of_value (r := .caramp) rfl, exec_rd_of_value (r := .modtype) rfl,
    exec_rd_of_value (r := .datalen) rfl, exec_rd_of_value (r := .noiseen) (by rw [State.readReg, ofBool_word]),
    exec_rd_of_value (r := .snrdb) rfl, exec_rd_of_value (r := .spb) rfl⟩

/-- Settles O23: each register by what `writeReg` stores; IEN keeps the two low bits. -/
theorem registerWrites : Obligations.RegisterWrites := by
  intro s w x
  have ien : (operandWord (.u32 w)).setWidth 2 = w.extractLsb' 0 2 := by
    rw [BitVec.setWidth_eq_extractLsb' (by decide), operandWord]
  refine ⟨(exec_wr s (r := .ien) (.u32 w) (by decide)).trans ?_, exec_wr s (r := .txcount) _ (by decide),
    exec_wr s (r := .bitrate) _ (by decide), exec_wr s (r := .carfreq) _ (by decide),
    exec_wr s (r := .caramp) _ (by decide), exec_wr s (r := .modtype) _ (by decide),
    exec_wr s (r := .datalen) _ (by decide), exec_wr s (r := .noiseen) _ (by decide),
    exec_wr s (r := .snrdb) _ (by decide), exec_wr s (r := .spb) _ (by decide)⟩
  rw [State.writeReg, ien]
  rfl

/-! ### STATUS and the interrupt line -/

section
variable {n : Nat} (x : BitVec n) (flag : Bool)

theorem getLsbD_append_flag_zero : (x ++ BitVec.ofBool flag).getLsbD 0 = flag := by
  rw [BitVec.getLsbD_append, if_pos (by decide)]
  cases flag <;> rfl

theorem getLsbD_append_flag_succ (i : Nat) : (x ++ BitVec.ofBool flag).getLsbD (i + 1) = x.getLsbD i := by
  rw [BitVec.getLsbD_append, if_neg (by omega), Nat.add_sub_cancel]

theorem extractLsb'_append_flag_succ (i len : Nat) :
    (x ++ BitVec.ofBool flag).extractLsb' (i + 1) len = x.extractLsb' i len := by
  rw [BitVec.extractLsb'_append_eq_of_le (by omega), Nat.add_sub_cancel]
end

/-- The flags of STATUS, above PHASE (R32). -/
def State.flags (s : State) : BitVec 28 :=
  (0 : BitVec 21) ++ BitVec.ofBool s.accerr ++ BitVec.ofBool s.cmderr ++ BitVec.ofBool s.snrv ++ BitVec.ofBool s.degen ++
    BitVec.ofBool s.isFailed ++ BitVec.ofBool s.isDone ++ BitVec.ofBool s.busy

/-- The flags in the order of R32, and nothing above them. -/
theorem State.flags_bits (s : State) :
    s.flags.getLsbD 0 = s.busy ∧ s.flags.getLsbD 1 = s.isDone ∧ s.flags.getLsbD 2 = s.isFailed ∧
    s.flags.getLsbD 3 = s.degen ∧ s.flags.getLsbD 4 = s.snrv ∧ s.flags.getLsbD 5 = s.cmderr ∧
    s.flags.getLsbD 6 = s.accerr ∧ s.flags.extractLsb' 7 21 = 0 := by
  refine ⟨?_, ?_, ?_, ?_, ?_, ?_, ?_, ?_⟩
  · exact getLsbD_append_flag_zero ..
  · iterate 1 refine (getLsbD_append_flag_succ ..).trans ?_
    exact getLsbD_append_flag_zero ..
  · iterate 2 refine (getLsbD_append_flag_succ ..).trans ?_
    exact getLsbD_append_flag_zero ..
  · iterate 3 refine (getLsbD_append_flag_succ ..).trans ?_
    exact getLsbD_append_flag_zero ..
  · iterate 4 refine (getLsbD_append_flag_succ ..).trans ?_
    exact getLsbD_append_flag_zero ..
  · iterate 5 refine (getLsbD_append_flag_succ ..).trans ?_
    exact getLsbD_append_flag_zero ..
  · iterate 6 refine (getLsbD_append_flag_succ ..).trans ?_
    exact getLsbD_append_flag_zero ..
  · iterate 7 refine (extractLsb'_append_flag_succ ..).trans ?_
    rfl

theorem State.status_code (s : State) : s.status.extractLsb' 0 4 = s.phase.code :=
  BitVec.extractLsb'_append_eq_right (a := s.flags) (b := s.phase.code)

theorem State.status_flag (s : State) (i : Nat) : s.status.getLsbD (i + 4) = s.flags.getLsbD i :=
  (BitVec.getLsbD_append (x := s.flags) (y := s.phase.code)).trans
    (by rw [if_neg (by omega), Nat.add_sub_cancel])

theorem State.status_high (s : State) : s.status.extractLsb' 11 21 = s.flags.extractLsb' 7 21 :=
  BitVec.extractLsb'_append_eq_of_le (xhi := s.flags) (xlo := s.phase.code) (by decide)

theorem State.isDone_iff (s : State) : s.isDone = true ↔ s.phase.code.toNat = 8 := by
  rw [State.isDone]
  cases s.phase <;> decide

theorem State.isFailed_iff (s : State) : s.isFailed = true ↔ s.phase.code.toNat = 9 := by
  rw [State.isFailed]
  cases s.phase <;> decide

theorem State.busy_iff (s : State) : s.busy = true ↔ 1 ≤ s.phase.code.toNat ∧ s.phase.code.toNat ≤ 7 := by
  rw [State.busy, Phase.busy, Bool.and_eq_true, decide_eq_true_eq, decide_eq_true_eq]

/-- Settles O22: PHASE is the low field, the flags stand above it. -/
theorem statusWord : Obligations.StatusWord := by
  intro s
  obtain ⟨busy, isDone, isFailed, degen, snrv, cmderr, accerr, high⟩ := s.flags_bits
  refine ⟨s.status, exec_rd_of_value (r := .status) rfl, s.status_code, ?_, ?_, ?_, (s.status_flag 3).trans degen,
    (s.status_flag 4).trans snrv, (s.status_flag 5).trans cmderr, (s.status_flag 6).trans accerr,
    s.status_high.trans high⟩ <;> rw [s.status_code]
  · rw [s.status_flag 0, busy, s.busy_iff]
  · rw [s.status_flag 1, isDone, s.isDone_iff]
  · rw [s.status_flag 2, isFailed, s.isFailed_iff]

/-- Settles O52: bits 5 and 6 of STATUS are DONE and FAILED. -/
theorem irqLevel : Obligations.IrqLevel := by
  intro s
  obtain ⟨-, isDone, isFailed, -⟩ := s.flags_bits
  rw [s.status_flag 1, s.status_flag 2, isDone, isFailed, State.irq, Bool.or_eq_true, Bool.and_eq_true, Bool.and_eq_true]

/-! ### A step, and the state after reset -/

theorem runCode_of_decode {c : Code} {i : Instr} (decoded : decode c = .ok i) (s : State) : runCode c s = exec i s := by
  rw [runCode, decoded]

/-- Settles O5: each kind of turn runs its code on the state with the turn taken. -/
theorem stepRunsDecoded : Obligations.StepRunsDecoded := fun _ _ _ =>
  ⟨fun _ _ turns decoded => (step_of_command turns).trans (runCode_of_decode decoded _),
    fun _ _ _ _ turns decoded => (step_of_bus turns).trans (runCode_of_decode decoded _),
    fun _ decoded => ⟨fun turns => (step_eq_stage turns).trans (runCode_of_decode decoded _),
      fun _ turns => (step_of_sequencer turns).trans (runCode_of_decode decoded _)⟩⟩

/-- An element of TXBITS below LMAX can be read in every state, written or not (R65, R291). -/
theorem readBuf_txbits {s : State} {i : Nat} (below : i < s.params.lmax) :
    s.readBuf .txbits i = some (.u8 (s.txRead i)) := if_pos below

/-- Settles O10: the values of R53 are those `State.reset` is written with. -/
theorem resetState : Obligations.ResetState :=
  ⟨rfl, rfl, rfl, rfl, rfl, rfl, rfl, rfl, rfl, rfl, rfl, rfl, rfl, rfl, rfl, rfl, rfl, rfl,
    fun _ below => ⟨_, readBuf_txbits below⟩⟩

/-- The checks on the configuration of reset: bit rate, carrier and amplitude are not positive and the length is below 3;
the others pass (R230, R291). -/
theorem checks_reset {p : Params} (spb : p.spbMin ≤ 100) :
    checks p Settings.reset [] = [false, false, false, true, false, true, true, true, true, true] := by
  have zero (m : Option RNum) : positiveWithin m (.rat 0) = false := by cases m <;> rfl
  simp [checks, zero, Settings.reset, Settings.len, spb]

/-- STATUS of a failed run with no other flag set (R32). -/
theorem status_failed {s : State} (phase : s.phase = .failed) (degen : s.degen = false) (snrv : s.snrv = false)
    (cmderr : s.cmderr = false) (accerr : s.accerr = false) : s.status = 0x49 := by
  rw [State.status, State.isFailed, State.isDone, State.busy, phase, degen, snrv, cmderr, accerr]
  rfl

/-- A machine after reset with parameters `p` and no turn to come. -/
def resetWith (p : Params) : State := { State.reset with params := p }

theorem latchedBits_resetWith (p : Params) : (resetWith p).latchedBits = [] := by
  rw [State.latchedBits, show (resetWith p).cfg.txcount.toNat = 0 from rfl, Nat.zero_min]
  rfl

theorem gateMask_startRun_resetWith {p : Params} (spb : p.spbMin ≤ 100) :
    (resetWith p).startRun.gateMask = 0x17 ∧ (resetWith p).startRun.firstFailed = 0 := by
  rw [State.gateMask, State.firstFailed, State.startRun_res, latchedBits_resetWith]
  change BitVec.ofNat 10 (failMask (checks p Settings.reset [])) = 0x17 ∧
    (checks p Settings.reset []).findIdx (fun c => !c) = 0
  rw [checks_reset spb]
  decide

/-- Settles O14: START latches no bits, and the gate fails the configuration of reset. -/
theorem startAfterReset : Obligations.StartAfterReset := by
  intro p spb
  obtain ⟨mask, first⟩ := gateMask_startRun_resetWith spb
  have start : step { State.reset with params := p, turns := [.command 1] } = .next (resetWith p).startRun :=
    (step_of_command rfl).trans (runCode_cmd ..)
  have validate : step (resetWith p).startRun =
      .next ((resetWith p).startRun.raiseValidation 0x17 (causeValidation 0)) := by
    rw [step_eq_stage rfl, runCode_stage]
    change execValidate _ = _
    rw [execValidate, mask, first]
    rfl
  exact ⟨_, (run_next start 1).trans ((run_next validate 0).trans (run_zero _)), rfl, rfl, rfl,
    status_failed rfl rfl rfl rfl rfl, rfl⟩

end Sys2Proof.Machine

/-! ## The memory of the host and of a run (spec/20_memory.md) -/

namespace Sys2Proof.Machine

/-! ### The spaces -/

theorem Space.id_of_ofId {id : BitVec 4} {sp : Space} (h : Space.ofId id = some sp) : sp.id = id := by
  simpa using List.find?_some h

/-- A WB stores in space 0 below LMAX and nowhere else (R65, R66). -/
theorem State.storeIndex_eq_some_iff {s : State} {space : BitVec 4} {i : Word} {a : Nat} :
    s.storeIndex space i = some a ↔ space = 0 ∧ i.toNat < s.params.lmax ∧ i.toNat = a := by
  constructor
  · intro store
    rw [State.storeIndex] at store
    split at store
    next txbits =>
      split at store <;> cases store
      exact ⟨(Space.id_of_ofId txbits).symm, by assumption, rfl⟩
    next => cases store
  · rintro ⟨rfl, below, rfl⟩
    exact if_pos below

theorem State.storeIndex_of_other_space {s : State} {space : BitVec 4} (other : 1 ≤ space.toNat) (i : Word) :
    s.storeIndex space i = none := by
  refine Option.eq_none_iff_forall_ne_some.2 fun a store => ?_
  obtain ⟨rfl, -, -⟩ := State.storeIndex_eq_some_iff.1 store
  exact absurd other (by decide)

/-! ### Writes -/

/-- A WB that stores puts the low byte of the value there and changes nothing else (R65). -/
theorem exec_wb_of_store {s : State} {space : BitVec 4} {i : Word} {a : Nat} (store : s.storeIndex space i = some a)
    (v : Val) :
    exec (.wb space i v) s = .next { s with txbits := Memory.set s.txbits a ((operandWord v).extractLsb' 0 8) } := by
  change execWb space i v s = _
  rw [execWb, store, BitVec.setWidth_eq_extractLsb' (by decide)]

/-- A refused write sets ACCERR (R66). -/
theorem exec_wb_of_refused {s : State} {space : BitVec 4} {i : Word} (refused : s.storeIndex space i = none) (v : Val) :
    exec (.wb space i v) s = .next { s with accerr := true } := by
  change execWb space i v s = _
  rw [execWb, refused, State.refuseAccess]

/-- Settles O26: a WB stores at the index of `State.storeIndex`, or is refused. -/
theorem wbFrame : Obligations.WbFrame := by
  intro s space i v
  cases index : s.storeIndex space i with
  | some a =>
    refine ⟨_, exec_wb_of_store index v, fun a' same => ?_, nofun, rfl⟩
    cases same
    exact ⟨s.txRead_store_same a _, fun j other => s.txRead_store_other _ other, rfl⟩
  | none => exact ⟨_, exec_wb_of_refused index v, nofun, fun _ => ⟨fun _ => rfl, rfl⟩, rfl⟩

/-- Settles O25: below LMAX `State.storeIndex` is the operand's own index, and `State.readBuf` has the element. -/
theorem txbitsRule : Obligations.TxbitsRule := by
  intro s i w below
  have store : s.storeIndex 0 i = some i.toNat := State.storeIndex_eq_some_iff.2 ⟨rfl, below, rfl⟩
  exact ⟨⟨_, exec_wb_of_store store (.u32 w), s.txRead_store_same _ _, fun j other => s.txRead_store_other _ other, rfl⟩,
    exec_rb_of_value (sp := .txbits) (readBuf_txbits below)⟩

/-! ### Refused reads -/

/-- A refused read sets ACCERR and returns no value (R66). -/
theorem exec_rb_of_refused {s : State} {space : BitVec 4} {i : Word} (refused : s.bufValue space i = none) :
    exec (.rb space i) s = .next { s with accerr := true, rdata := none } := by
  rw [exec_rb, refused, State.answer, State.refuseRead]

/-- Outside Done no result buffer can be read (R70). -/
theorem readBuf_of_not_done {s : State} (notDone : s.phase ≠ .done) {sp : Space} (result : sp ≠ .txbits) (i : Nat) :
    s.readBuf sp i = none := by
  cases sp with
  | txbits => exact absurd rfl result
  | _ => exact s.visible_of_not_done notDone _

theorem bufValue_of_not_done {s : State} (notDone : s.phase ≠ .done) {space : BitVec 4} (other : 1 ≤ space.toNat)
    (i : Word) : s.bufValue space i = none := by
  rw [State.bufValue]
  split
  next sp named =>
    refine readBuf_of_not_done notDone ?_ _
    rintro rfl
    rw [← Space.id_of_ofId named] at other
    exact absurd other (by decide)
  next => rfl

theorem bufValue_of_reserved {space : BitVec 4} (reserved : 8 ≤ space.toNat) (s : State) (i : Word) :
    s.bufValue space i = none := by
  rw [State.bufValue, (Space.ofId_none space).2 reserved]

theorem State.visible_none (s : State) : s.visible none = none := ite_self none

/-- No element of a result buffer is visible at or beyond its length. -/
theorem visible_element_beyond {α : Type} (s : State) {l : List α} (mk : α → Val) {i : Nat} (beyond : l.length ≤ i) :
    s.visible (l[i]?.map mk) = none := by
  rw [List.getElem?_eq_none beyond]
  exact s.visible_none

/-- No field of a point is visible at or beyond four times the number of points (R63). -/
theorem visible_pointField_beyond (s : State) {l : List Point} {i : Nat} (beyond : 4 * l.length ≤ i) :
    s.visible (pointField l i) = none := by
  rw [pointField, List.getElem?_eq_none (by omega)]
  exact s.visible_none

/-- The valid lengths of a finished run are the numbers of elements its buffers hold, so beyond them a read finds nothing
(R49, R66). -/
theorem readBuf_beyond {s : State} (finished : Finished s) {sp : Space} (result : sp ≠ .txbits) {i : Nat}
    (beyond : s.validLength sp ≤ i) : s.readBuf sp i = none := by
  cases sp with
  | txbits => exact absurd rfl result
  | runbits => exact visible_element_beyond s _ (finished.runbits.trans_le beyond)
  | time => exact visible_element_beyond s _ (finished.time.trans_le beyond)
  | mod => exact visible_element_beyond s _ (finished.mod.trans_le beyond)
  | rx => exact visible_element_beyond s _ (finished.rx.trans_le beyond)
  | rxbits => exact visible_element_beyond s _ (finished.rxbits.trans_le beyond)
  | ctx => exact visible_pointField_beyond s ((congrArg (4 * ·) finished.ctx).trans_le beyond)
  | crx => exact visible_pointField_beyond s ((congrArg (4 * ·) finished.crx).trans_le beyond)

/-- Settles O27: no such access has an index to store at or a value to read. -/
theorem refusedBufferAccesses : Obligations.RefusedBufferAccesses := by
  intro s space i v
  refine ⟨?_, fun other => ?_, fun other notDone => ?_, fun inv done sp result named beyond => ?_⟩
  · rintro (reserved | ⟨rfl, high⟩)
    · exact ⟨exec_wb_of_refused (State.storeIndex_of_other_space (by omega) i) v,
        exec_rb_of_refused (bufValue_of_reserved reserved s i)⟩
    · have outside : ¬i.toNat < s.params.lmax := Nat.not_lt.2 high
      have noIndex : s.storeIndex 0 i = none := if_neg outside
      have noElement : s.bufValue 0 i = none := if_neg outside
      exact ⟨exec_wb_of_refused noIndex v, exec_rb_of_refused noElement⟩
  · exact exec_wb_of_refused (State.storeIndex_of_other_space other i) v
  · exact exec_rb_of_refused (bufValue_of_not_done notDone other i)
  · subst named
    exact exec_rb_of_refused ((s.bufValue_id sp i).trans (readBuf_beyond (inv.finished done) result beyond))

/-! ### What a stage leaves of the stages before it -/

/-- What one condition keeps in two values agrees where the condition holds. -/
theorem eq_of_ite_eq_ite {α : Type} {p : Prop} [Decidable p] {x y z : α}
    (h : (if p then x else z) = if p then y else z) (holds : p) : x = y := by
  rwa [if_pos holds, if_pos holds] at h

/-- A stage of a run that does not fail writes outputs of its own stage or later ones only (R71, R244). -/
theorem stage_keeps_through {s t : State} (h : runCode (.stage s.selector) s = .next t) (runs : t.phase ≠ .failed) :
    t.res.through s.phase.code.toNat = s.res.through s.phase.code.toNat := by
  rcases stage_cases h with ⟨-, rfl⟩ | ⟨-, ⟨-, rfl⟩ | ⟨-, rfl⟩⟩ | ⟨-, -, failed⟩ | ⟨phase, rfl⟩ | ⟨phase, -, wave, rfl⟩ |
    ⟨phase, -, wave, rfl⟩ | ⟨phase, rx, rfl⟩ | ⟨phase, bits, rfl⟩ | ⟨phase, ds, ps, -, -, rfl⟩ | ⟨phase, errors, rfl⟩
  case inl => rfl
  case inr.inl.inl => rfl
  case inr.inl.inr => exact absurd rfl runs
  case inr.inr.inl =>
    obtain ⟨c, d, k, -, -, rfl⟩ := failed
    exact absurd rfl runs
  all_goals rw [phase]; rfl

/-- Settles O50: each field from the outputs that a stage keeps; RUNBITS is kept from phase 1 on, so in every run. -/
theorem stageOutputsStay : Obligations.StageOutputsStay := by
  intro s t busy alone h runs
  rw [step_stage alone busy] at h
  have keeps := stage_keeps_through h runs
  have started : 1 ≤ s.phase.code.toNat := (s.busy_iff.1 busy).1
  exact
    ⟨eq_of_ite_eq_ite (congrArg Results.runbits keeps) started,
      fun past => ⟨eq_of_ite_eq_ite (congrArg Results.time keeps) past,
        eq_of_ite_eq_ite (congrArg Results.nsamp keeps) past, eq_of_ite_eq_ite (congrArg Results.nsymb keeps) past⟩,
      eq_of_ite_eq_ite (congrArg Results.mod keeps), eq_of_ite_eq_ite (congrArg Results.rx keeps),
      eq_of_ite_eq_ite (congrArg Results.rxbits keeps),
      fun past => ⟨eq_of_ite_eq_ite (congrArg Results.ctx keeps) past,
        eq_of_ite_eq_ite (congrArg Results.crx keeps) past, eq_of_ite_eq_ite (congrArg Results.npts keeps) past⟩⟩

end Sys2Proof.Machine

/-! ## Encoding: the decoder and the encoder (spec/30_encoding.md) -/

namespace Sys2Proof

/-! ### Format CMD -/

theorem encode_of_decodeCommand {w : Word} {i : Instr} (decoded : decodeCommand w = .ok i) : encode i = .cmd w := by
  rcases decodeCommand_ok.1 decoded with ⟨rfl, rfl⟩ | ⟨rfl, rfl⟩ | ⟨rfl, rfl⟩ | ⟨rfl, rfl⟩ <;> rfl

/-- A command word is refused for its must-be-zero field or for its opcode (R92, R98). -/
theorem decodeCommand_error {w : Word} :
    decodeCommand w = .error .illegalCommand ↔ w.extractLsb' 8 24 ≠ 0 ∨ 3 < (w.extractLsb' 0 8).toNat := by
  rw [decodeCommand]
  split
  next nonzero => exact iff_of_true rfl (.inl nonzero)
  next zero =>
    split
    case h_5 => exact iff_of_true rfl (.inr (by grind))
    all_goals exact iff_of_false nofun (not_or.2 ⟨zero, by omega⟩)

/-! ### Format BUS -/

/-- The header of a register transaction, of kind 0 or 1 (R94). -/
def registerHeader (write : Bool) (idx : BitVec 16) : Word :=
  (if write then 1 else 0 : BitVec 2) ++ (0 : BitVec 14) ++ idx

/-- The header of a buffer transaction, of kind 2 or 3 (R94). -/
def bufferHeader (write : Bool) (space : BitVec 4) : Word :=
  (if write then 3 else 2 : BitVec 2) ++ space ++ (0 : BitVec 26)

theorem encode_register (write : Bool) (idx : BitVec 16) (v : Val) :
    encode (if write then .wr idx v else .rd idx) =
      .bus (registerHeader write idx) 0 (if write then v else .u32 0) := by
  cases write <;> rfl

theorem encode_buffer (write : Bool) (space : BitVec 4) (i : Word) (v : Val) :
    encode (if write then .wb space i v else .rb space i) =
      .bus (bufferHeader write space) i (if write then v else .u32 0) := by
  cases write <;> rfl

theorem decodeBus_registerHeader (write : Bool) (idx : BitVec 16) (j : Word) (v : Val) :
    decodeBus (registerHeader write idx) j v = .ok (if write then .wr idx v else .rd idx) := by
  obtain ⟨kind, zero, target⟩ := registerHeader_fields (registerHeader_toNat (if write then 1 else 0) idx)
  rw [registerHeader, decodeBus, kind, zero, target]
  cases write <;> rfl

theorem decodeBus_bufferHeader (write : Bool) (space : BitVec 4) (j : Word) (v : Val) :
    decodeBus (bufferHeader write space) j v = .ok (if write then .wb space j v else .rb space j) := by
  obtain ⟨kind, zero, target⟩ := bufferHeader_fields (bufferHeader_toNat (if write then 3 else 2) space)
  rw [bufferHeader, decodeBus, kind, zero, target]
  cases write <;> rfl

/-- The kind is bits 31 and 30 (R94). -/
theorem kind_eq_bits (h : Word) :
    h.extractLsb' 30 2 = BitVec.ofBool (h.getLsbD 31) ++ BitVec.ofBool (h.getLsbD 30) := by
  apply BitVec.eq_of_getLsbD_eq
  intro k hk
  rw [BitVec.getLsbD_append]
  interval_cases k <;> simp

/-- A register header is made of its direction and its index once its must-be-zero field is 0. -/
theorem registerHeader_of_zero {h : Word} (register : h.getLsbD 31 = false) (zero : h.extractLsb' 16 14 = 0) :
    registerHeader (h.getLsbD 30) (h.extractLsb' 0 16) = h := by
  have kind : (if h.getLsbD 30 then 1 else 0 : BitVec 2) = h.extractLsb' 30 2 := by
    rw [kind_eq_bits, register]
    cases h.getLsbD 30 <;> rfl
  have field := congrArg BitVec.toNat zero
  apply BitVec.eq_of_toNat_eq
  rw [registerHeader, kind, registerHeader_toNat]
  simp only [field_toNat, BitVec.ofNat_eq_ofNat, BitVec.toNat_ofNat] at field ⊢
  omega

/-- A buffer header is made of its direction and its space once its must-be-zero field is 0. -/
theorem bufferHeader_of_zero {h : Word} (buffer : h.getLsbD 31 = true) (zero : h.extractLsb' 0 26 = 0) :
    bufferHeader (h.getLsbD 30) (h.extractLsb' 26 4) = h := by
  have kind : (if h.getLsbD 30 then 3 else 2 : BitVec 2) = h.extractLsb' 30 2 := by
    rw [kind_eq_bits, buffer]
    cases h.getLsbD 30 <;> rfl
  have field := congrArg BitVec.toNat zero
  apply BitVec.eq_of_toNat_eq
  rw [bufferHeader, kind, bufferHeader_toNat]
  simp only [field_toNat, BitVec.ofNat_eq_ofNat, BitVec.toNat_ofNat] at field ⊢
  omega

/-- The decoder of format BUS by the two bits of the kind: bit 31 tells a buffer from a register, and so which field
must be 0, and bit 30 tells a write from a read (R94). -/
theorem decodeBus_eq (h j : Word) (v : Val) :
    decodeBus h j v =
      if h.getLsbD 31 then
        if h.extractLsb' 0 26 = 0 then
          .ok (if h.getLsbD 30 then .wb (h.extractLsb' 26 4) j v else .rb (h.extractLsb' 26 4) j)
        else .error .nonzeroField
      else
        if h.extractLsb' 16 14 = 0 then
          .ok (if h.getLsbD 30 then .wr (h.extractLsb' 0 16) v else .rd (h.extractLsb' 0 16))
        else .error .nonzeroField := by
  rw [decodeBus, kind_eq_bits]
  cases h.getLsbD 31 <;> cases h.getLsbD 30 <;> rfl

/-- A header is refused for the must-be-zero field of its kind (R94, R98). -/
theorem decodeBus_error {h j : Word} {v : Val} : decodeBus h j v = .error .nonzeroField ↔
    (h.getLsbD 31 = false ∧ h.extractLsb' 16 14 ≠ 0) ∨ (h.getLsbD 31 = true ∧ h.extractLsb' 0 26 ≠ 0) := by
  rw [decodeBus_eq]
  cases h.getLsbD 31 <;> simp

/-- The operands that the kind does not have are 0 in the encoding (R94). -/
theorem encode_of_decodeBus {h j : Word} {v : Val} {i : Instr} (decoded : decodeBus h j v = .ok i) :
    encode i = .bus h (if h.getLsbD 31 then j else 0) (if h.getLsbD 30 then v else .u32 0) := by
  rw [decodeBus_eq] at decoded
  cases buffer : h.getLsbD 31 <;> rw [buffer] at decoded
  case false =>
    by_cases zero : h.extractLsb' 16 14 = 0
    · cases decoded.symm.trans (if_pos zero)
      rw [encode_register, registerHeader_of_zero buffer zero]
      rfl
    · cases decoded.symm.trans (if_neg zero)
  case true =>
    by_cases zero : h.extractLsb' 0 26 = 0
    · cases decoded.symm.trans (if_pos zero)
      rw [encode_buffer, bufferHeader_of_zero buffer zero]
      rfl
    · cases decoded.symm.trans (if_neg zero)

/-! ### Format STAGE -/

/-- The bits of a selector that select: phases 1, 2 and 4 ignore `m` (R95, and the masks of R96). -/
def maskedSelector (x : BitVec 5) : BitVec 5 :=
  if x.extractLsb' 0 4 = 1 ∨ x.extractLsb' 0 4 = 2 ∨ x.extractLsb' 0 4 = 4 then x &&& 0b01111 else x

/-- The rows of R96, over the 32 selectors. -/
theorem encode_of_decodeStage {x : BitVec 5} {i : Instr} (decoded : decodeStage x = .ok i) :
    encode i = .stage (maskedSelector x) := by
  have rows : ∀ x,
      (decodeStage x).map encode = .ok (.stage (maskedSelector x)) ∨ decodeStage x = .error .noStage := by decide
  rcases rows x with row | refused
  · rw [decoded] at row
    exact Except.ok.inj row
  · cases decoded.symm.trans refused

theorem maskedSelector_phase (x : BitVec 5) : (maskedSelector x).extractLsb' 0 4 = x.extractLsb' 0 4 := by
  rw [maskedSelector]
  split
  · rw [BitVec.extractLsb'_and]
    exact BitVec.and_allOnes
  · rfl

theorem maskedSelector_eq_or (x : BitVec 5) : maskedSelector x = x ∨
    x.extractLsb' 0 4 = 1 ∨ x.extractLsb' 0 4 = 2 ∨ x.extractLsb' 0 4 = 4 := by
  rw [maskedSelector]
  split
  · exact .inr ‹_›
  · exact .inl rfl

/-- A selector is refused for its phase alone, over the 32 selectors (R96). -/
theorem decodeStage_error : ∀ x : BitVec 5, decodeStage x = .error .noStage ↔
    (x.extractLsb' 0 4).toNat = 0 ∨ 8 ≤ (x.extractLsb' 0 4).toNat := by
  decide

/-! ### The whole decoder -/

theorem decode_encode_register (write : Bool) (idx : BitVec 16) (v : Val) :
    decode (encode (if write then .wr idx v else .rd idx)) = .ok (if write then .wr idx v else .rd idx) := by
  rw [encode_register, decode, decodeBus_registerHeader]
  cases write <;> rfl

theorem decode_encode_buffer (write : Bool) (space : BitVec 4) (i : Word) (v : Val) :
    decode (encode (if write then .wb space i v else .rb space i)) =
      .ok (if write then .wb space i v else .rb space i) := by
  rw [encode_buffer, decode, decodeBus_bufferHeader]
  cases write <;> rfl

/-- Settles O1: the operations without operands by evaluation, the bus transactions by the fields of their headers. -/
theorem encodeThenDecode : Obligations.EncodeThenDecode := by
  intro i _
  cases i with
  | rd idx => exact decode_encode_register false idx (.u32 0)
  | wr idx v => exact decode_encode_register true idx v
  | rb space j => exact decode_encode_buffer false space j (.u32 0)
  | wb space j v => exact decode_encode_buffer true space j v
  | _ => rfl

/-- Settles O2: per format the encoding is the code itself with what is ignored made 0. -/
theorem decodeThenEncode : Obligations.DecodeThenEncode := by
  intro c i decoded
  cases c with
  | cmd w => rw [encode_of_decodeCommand decoded]
  | bus h j v =>
    rw [encode_of_decodeBus decoded]
    exact ⟨rfl, fun buffer => if_pos buffer, fun write => if_pos write⟩
  | stage x =>
    rw [encode_of_decodeStage decoded]
    exact ⟨maskedSelector_phase x, maskedSelector_eq_or x⟩

/-- Settles O3: each format has one reason to refuse, and one lemma that says when. -/
theorem refusedEncodings : Obligations.RefusedEncodings :=
  ⟨fun _ => decodeCommand_error, fun _ _ _ => decodeBus_error, decodeStage_error⟩

/-- Settles O4: the decoder evaluated on the eleven words. -/
theorem knownWords : Obligations.KnownWords := by
  unfold Obligations.KnownWords
  decide

end Sys2Proof

namespace Sys2Proof.Machine

/-! ### Encodings in a step -/

theorem runCode_of_error {c : Code} {e : DecodeError} (refused : decode c = .error e) (s : State) :
    runCode c s = .next (s.refuseCode c e) := by
  rw [runCode, refused]

/-- An illegal header is a refused access; a read, bit 30 clear, returns nothing (R94, R98). -/
theorem State.refuseCode_bus (s : State) (h j : Word) (v : Val) :
    s.refuseCode (.bus h j v) .nonzeroField =
      { s with accerr := true, rdata := if h.getLsbD 30 then s.rdata else none } := by
  rw [State.refuseCode]
  cases h.getLsbD 30 <;> rfl

/-- Settles O6: the turn is taken, and its code is refused. -/
theorem stepOnIllegalEncoding : Obligations.StepOnIllegalEncoding := fun _ =>
  ⟨fun _ _ turns refused => (step_of_command turns).trans (runCode_of_error refused _),
    fun h j v _ turns refused =>
      ((step_of_bus turns).trans (runCode_of_error refused _)).trans (congrArg _ (State.refuseCode_bus _ h j v))⟩

/-- The selector is RUN.MODTYPE[0] above the code of the phase (R95). -/
theorem decode_selector {s : State} {p : Phase} {i : Instr} (phase : s.phase = p)
    (names : decodeStage (BitVec.ofBool (s.run.modtype.getLsbD 0) ++ p.code) = .ok i) :
    decode (.stage s.selector) = .ok i := by
  rw [State.selector, phase]
  exact names

/-- Phases 1, 2 and 4: the operation whatever `m` is (R95, R96). -/
theorem decode_selector_ignoring_modtype {s : State} {p : Phase} {i : Instr}
    (names : ∀ m, decodeStage (BitVec.ofBool m ++ p.code) = .ok i) (phase : s.phase = p) :
    decode (.stage s.selector) = .ok i := decode_selector phase (names _)

/-- Phases 3 and 5 to 7: the operation of the modulation type (R95, R96). -/
theorem decode_selector_of_modtype {s : State} {p : Phase} {i : Instr} {m : Word} (modtype : s.run.modtype = m)
    (names : decodeStage (BitVec.ofBool (m.getLsbD 0) ++ p.code) = .ok i) (phase : s.phase = p) :
    decode (.stage s.selector) = .ok i := decode_selector phase (modtype ▸ names)

/-- Settles O7: each busy phase by its row of R96. -/
theorem selectorNamesStage : Obligations.SelectorNamesStage := fun _ =>
  ⟨decode_selector_ignoring_modtype (by decide), decode_selector_ignoring_modtype (by decide),
    decode_selector_ignoring_modtype (by decide),
    fun bpsk => ⟨decode_selector_of_modtype bpsk rfl, decode_selector_of_modtype bpsk rfl,
      decode_selector_of_modtype bpsk rfl, decode_selector_of_modtype bpsk rfl⟩,
    fun qpsk => ⟨decode_selector_of_modtype qpsk rfl, decode_selector_of_modtype qpsk rfl,
      decode_selector_of_modtype qpsk rfl, decode_selector_of_modtype qpsk rfl⟩⟩

end Sys2Proof.Machine

/-! ## The modulated waveforms (spec/40_carrier_generator.md, spec/41_bpsk_modulator.md, spec/42_qpsk_modulator.md) -/

namespace Sys2Proof.Machine

/-! ### The completion of a modulation -/

/-- A modulation whose samples are all real numbers completes: MOD takes them, RX too in the bypass (R151, R233). -/
theorem State.modulated_of_finite {s : State} {wave : List RNum} (finite : wave.all RNum.finite = true) :
    s.modulated wave =
      ({ s with res := { s.res with mod := wave, rx := if s.run.noiseen then s.res.rx else wave } } : State).advance
        (if s.run.noiseen then .noiseInjection else .demodulating) := by
  rw [State.modulated, if_pos finite]
  split <;> rfl

/-- A stage that writes results and moves the phase on is a plain one. -/
theorem plainStage_results_advance (s : State) (res : Results) (p : Phase) :
    PlainStage s (({ s with res := res } : State).advance p) where
  toStageFrame := (StageFrame.update ..).advance p
  degen := rfl
  snrv := rfl
  cause := rfl
  verrmask := rfl
  urng := rfl

/-! ### BPSK -/

theorem sps_bpsk (r : Settings) : r.sps .bpsk = r.spb.toNat := Nat.one_mul _

theorem bpskWave_get (r : Settings) (bits : List Byte) {n : Nat} (h : n < r.ns .bpsk) :
    (bpskWave r bits)[n]? = some (bpskSample r bits n) := by
  simp [bpskWave, h]

theorem bpskWave_finite {r : Settings} (carried : r.Carried) (amplitude : r.caramp.finite = true) (bits : List Byte) :
    (bpskWave r bits).all RNum.finite = true := by
  simp [bpskWave, bpskSample_finite carried amplitude]

/-- A sample of bit period `n div SPB` has the phase of that bit (R131, R132). -/
theorem bpskSample_val_of_bit (r : Settings) {bits : List Byte} {n : Nat} {b : Byte}
    (bit : bits[n / r.spb.toNat]? = some b) :
    (bpskSample r bits n).val = r.caramp.val * Real.cos (r.angle n + if b = 1 then 0 else Real.pi) := by
  rw [bpskSample_val, sps_bpsk, bitAt_val bit]

/-- Settles O33: every sample is a real number, so MOD.BPSK completes, and sample `n` is `bpskSample n`. -/
theorem modBpskWave : Obligations.ModBpskWave := by
  intro s carried amplitude
  have completes : exec .modBpsk s = .next (s.modulated (bpskWave s.run s.res.runbits)) := rfl
  rw [State.modulated_of_finite (bpskWave_finite carried amplitude _)] at completes
  refine ⟨_, completes, plainStage_results_advance s _ _, rfl, rfl, rfl, ?length, ?sample⟩
  case length => exact (bpskWave_length s.run _).trans (ns_bpsk s.run)
  case sample =>
    intro n b hn bit
    rw [← ns_bpsk] at hn
    exact ⟨_, bpskWave_get s.run _ hn, bpskSample_finite carried amplitude _ n, bpskSample_val_of_bit s.run bit⟩

/-! ### QPSK -/

theorem sps_qpsk (r : Settings) : r.sps .qpsk = 2 * r.spb.toNat := rfl

theorem symbolOf_qpsk_lt {r : Settings} {n : Nat} (h : n < r.ns .qpsk) : r.symbolOf .qpsk n < (r.len + 1) / 2 :=
  Nat.div_lt_of_lt_mul (h.trans_eq ((ns_qpsk r).trans (Nat.mul_comm _ _)))

/-- Sample `j` of the block of symbol `k` belongs to that symbol (R69). -/
theorem symbolOf_qpsk_block (r : Settings) {k j : Nat} (h : j < 2 * r.spb.toNat) :
    r.symbolOf .qpsk (k * (2 * r.spb.toNat) + j) = k := by
  rw [Settings.symbolOf, sps_qpsk, Nat.add_comm, Nat.add_mul_div_right _ _ (Nat.zero_lt_of_lt h), Nat.div_eq_of_lt h,
    Nat.zero_add]

/-- The blocks of the `(L+1)/2` symbols lie within the waveform. -/
theorem block_lt_ns_qpsk {r : Settings} {k j : Nat} (hk : k < (r.len + 1) / 2) (hj : j < 2 * r.spb.toNat) :
    k * (2 * r.spb.toNat) + j < r.ns .qpsk := by
  rw [ns_qpsk]
  calc k * (2 * r.spb.toNat) + j < k * (2 * r.spb.toNat) + 2 * r.spb.toNat := Nat.add_lt_add_left hj _
    _ = (k + 1) * (2 * r.spb.toNat) := (Nat.succ_mul _ _).symm
    _ ≤ (r.len + 1) / 2 * (2 * r.spb.toNat) := Nat.mul_le_mul_right _ hk

/-- The partner of a symbol's first bit, 0 where an odd length leaves it out (R143). -/
theorem secondBit_val {r : Settings} {bits : List Byte} {k : Nat} {b : Byte}
    (h : (if 2 * k + 1 < r.len then bits[2 * k + 1]? else some 0) = some b) : secondBit r bits k = b := by
  rw [secondBit]
  by_cases paired : 2 * k + 1 < r.len
  · rw [if_pos paired] at h ⊢
    exact bitAt_val h
  · rw [if_neg paired] at h ⊢
    exact Option.some.inj h

/-- The first `L` elements are bits (R132, R142: no other value reaches a modulator). -/
def AreBits (r : Settings) (bits : List Byte) : Prop := ∀ k, k < r.len → bitAt bits k = 0 ∨ bitAt bits k = 1

theorem areBits_of_get {r : Settings} {bits : List Byte}
    (h : ∀ k, k < r.len → bits[k]? = some 0 ∨ bits[k]? = some 1) : AreBits r bits :=
  fun k hk => (h k hk).imp bitAt_val bitAt_val

theorem AreBits.firstBit {r : Settings} {bits : List Byte} (h : AreBits r bits) {k : Nat} (hk : k < (r.len + 1) / 2) :
    bitAt bits (2 * k) = 0 ∨ bitAt bits (2 * k) = 1 := h _ (by omega)

theorem AreBits.secondBit {r : Settings} {bits : List Byte} (h : AreBits r bits) (k : Nat) :
    secondBit r bits k = 0 ∨ secondBit r bits k = 1 := by
  rw [Machine.secondBit]
  split
  · exact h _ ‹_›
  · exact .inl rfl

theorem qpskWave_get (r : Settings) (bits : List Byte) {n : Nat} (h : n < r.ns .qpsk) :
    (qpskWave r bits)[n]? = some (qpskSample r bits n) := by
  simp [qpskWave, h]

theorem qpskSample_finite {r : Settings} (carried : r.Carried) (amplitude : r.caramp.finite = true) {bits : List Byte}
    (areBits : AreBits r bits) {n : Nat} (hn : n < r.ns .qpsk) : (qpskSample r bits n).finite = true := by
  rw [qpskSample, RNum.finite_times, carrier_finite carried, amplitude,
    qpskPhase_finite (areBits.firstBit (symbolOf_qpsk_lt hn)) (areBits.secondBit _), Bool.and_self]

/-- A sample has the phase of its symbol's pair (R141, R142). -/
theorem qpskSample_val {r : Settings} {bits : List Byte} (areBits : AreBits r bits) {n : Nat} (hn : n < r.ns .qpsk) :
    (qpskSample r bits n).val = r.caramp.val *
      Real.cos (r.angle n + pairAngle (bitAt bits (2 * r.symbolOf .qpsk n)) (secondBit r bits (r.symbolOf .qpsk n))) := by
  rw [qpskSample, RNum.val_times, carrier_val,
    qpskPhase_val (areBits.firstBit (symbolOf_qpsk_lt hn)) (areBits.secondBit _)]

theorem qpskWave_finite {r : Settings} (carried : r.Carried) (amplitude : r.caramp.finite = true) {bits : List Byte}
    (areBits : AreBits r bits) : (qpskWave r bits).all RNum.finite = true := by
  rw [qpskWave, List.all_map, List.all_eq_true]
  exact fun n hn => qpskSample_finite carried amplitude areBits (List.mem_range.1 hn)

/-- Settles O34: of bits every sample is a real number, so MOD.QPSK completes, and a sample of the block of symbol `k` has
the phase of the pair of `k`. -/
theorem modQpskWave : Obligations.ModQpskWave := by
  intro s carried amplitude bits
  have areBits : AreBits s.run s.res.runbits := areBits_of_get bits
  have completes : exec .modQpsk s = .next (s.modulated (qpskWave s.run s.res.runbits)) := rfl
  rw [State.modulated_of_finite (qpskWave_finite carried amplitude areBits)] at completes
  refine ⟨_, completes, plainStage_results_advance s _ _, rfl, rfl, rfl, ?length, ?sample⟩
  case length => exact (qpskWave_length s.run _).trans (ns_qpsk s.run)
  case sample =>
    intro k j b1 b2 hk hj first second
    have hn := block_lt_ns_qpsk hk hj
    refine ⟨_, qpskWave_get s.run _ hn, qpskSample_finite carried amplitude areBits hn, ?_⟩
    rw [qpskSample_val areBits hn, symbolOf_qpsk_block s.run hj, bitAt_val first, secondBit_val second]

end Sys2Proof.Machine

/-! ## The noise injector and the draws (spec/43_gaussian_noise_injector.md) -/

namespace Sys2Proof.Machine

/-! ### The bypass -/

theorem State.FailsTo.phase {s t : State} (h : s.FailsTo t) : t.phase = .failed := by
  obtain ⟨c, d, k, -, -, rfl⟩ := h
  rfl

/-- Without noise a modulation that does not fail makes the bypass copy and goes past NoiseInjection (R151). -/
theorem State.modulated_of_quiet {s : State} {wave : List RNum} (quiet : s.run.noiseen = false)
    (runs : (s.modulated wave).phase ≠ .failed) : s.modulated wave = (s.withBypass wave).advance .demodulating := by
  rcases s.modulated_cases wave with ⟨-, noisy, -⟩ | ⟨-, -, next⟩ | failed
  · exact absurd (noisy.symm.trans quiet) (by decide)
  · exact next
  · exact absurd failed.phase runs

/-- Settles O35: under either scheme what completes is the bypass copy. -/
theorem bypassCopy : Obligations.BypassCopy := by
  intro s t quiet modulates runs
  obtain ⟨wave, rfl⟩ : ∃ wave, s.modulated wave = t := by
    rcases modulates with bpsk | qpsk
    · exact ⟨_, Host.Outcome.next.inj bpsk⟩
    · exact ⟨_, Host.Outcome.next.inj qpsk⟩
  rw [State.modulated_of_quiet quiet runs]
  exact ⟨rfl, rfl, rfl, rfl⟩

/-! ### NOISE on a waveform of real samples -/

/-- GNI reads the whole of MOD when MOD has its `NS` samples (R150). -/
theorem State.signal_eq_mod {s : State} (length : s.res.mod.length = s.run.ns s.run.scheme) : s.signal = s.res.mod := by
  rw [State.signal, ← length, samples_self]

/-- What NOISE needs to compute with real numbers alone: a waveform of `NS > 0` real samples and a real SNR (R150, R154). -/
structure State.NoiseInput (s : State) : Prop where
  length : s.res.mod.length = s.run.ns s.run.scheme
  pos : 0 < s.run.ns s.run.scheme
  finite : s.res.mod.all RNum.finite = true
  snr : s.run.snrdb.finite = true

section
variable {s : State} (h : s.NoiseInput)
include h

theorem State.NoiseInput.signal_finite : s.signal.all RNum.finite = true := by
  rw [State.signal_eq_mod h.length, h.finite]

theorem State.NoiseInput.power_finite : s.power.finite = true := (Machine.power_finite h.pos).trans h.signal_finite

theorem State.NoiseInput.sigma_finite : s.sigma.finite = true := Machine.sigma_finite h.power_finite h.snr

/-- With `P`, `10^(S/10)` and `σ` real, NOISE is its second loop and its completion. -/
theorem State.NoiseInput.exec_of_loop_ok {rx : List RNum} {u : Urng} (loop : noiseLoop s.sigma s.signal s.urng = .ok (rx, u)) :
    exec .noise s =
      .next (({ s.flagDegen with res := { s.res with rx := rx }, urng := u } : State).advance .demodulating) := by
  change execNoise s = _
  rw [execNoise, if_pos (by rw [h.power_finite, snrLinear_finite, h.snr, Bool.and_self]), if_pos h.sigma_finite, loop]

theorem State.NoiseInput.exec_of_loop_error {c : BitVec 8} {u : Urng}
    (loop : noiseLoop s.sigma s.signal s.urng = .error (c, u)) :
    exec .noise s = .next (({ s.flagDegen with urng := u } : State).raiseUnexpected c) := by
  change execNoise s = _
  rw [execNoise, if_pos (by rw [h.power_finite, snrLinear_finite, h.snr, Bool.and_self]), if_pos h.sigma_finite, loop]

end

/-- `MOD[n] + σ·z` with the draws `2n` and `2n+1` (R152, R156). -/
def State.noisySample (s : State) (n : Nat) (x : RNum) : RNum :=
  RNum.plus x (RNum.times s.sigma (gauss (s.urng.value (2 * n)) (s.urng.value (2 * n + 1))))

theorem State.noisySample_val (s : State) (n : Nat) (x : RNum) :
    (s.noisySample n x).val = x.val +
      Real.sqrt (if 0 < s.power.val then s.power.val / (10 : ℝ) ^ (s.run.snrdb.val / 10) else Config.noiseFloor) *
      (Real.sqrt (-2 * Real.log (s.urng.value (2 * n)).val) * Real.cos (2 * Real.pi * (s.urng.value (2 * n + 1)).val)) := by
  rw [State.noisySample, RNum.val_plus, RNum.val_times, sigma_val, gauss_val]

theorem State.NoiseInput.noisySample_finite {s : State} (h : s.NoiseInput) {n : Nat} {x : RNum} (real : x.finite = true)
    (draw1 : inUnit (s.urng.value (2 * n)) = true) (draw2 : inUnit (s.urng.value (2 * n + 1)) = true) :
    (s.noisySample n x).finite = true := by
  rw [State.noisySample, RNum.finite_plus, RNum.finite_times, real, h.sigma_finite, gauss_finite draw1 draw2]
  rfl

/-- With all its draws in (0,1) NOISE completes (R152, R234). -/
theorem State.NoiseInput.exec_of_draws {s : State} (h : s.NoiseInput)
    (draws : ∀ k, k < 2 * s.run.ns s.run.scheme → inUnit (s.urng.value k) = true) :
    exec .noise s = .next ((s.withNoise (s.res.mod.mapIdx s.noisySample)).advance .demodulating) := by
  have loop := noiseLoop_ok s.sigma s.signal s.urng (by rwa [signal_length]) (List.all_eq_true.1 h.signal_finite)
  rw [h.exec_of_loop_ok loop, signal_length, State.signal_eq_mod h.length]
  rfl

/-- DEGEN as NOISE leaves it: the clamp sets it, nothing clears it (R155, R265). -/
theorem State.flagDegen_iff (s : State) : s.flagDegen.degen = true ↔ s.degen = true ∨ s.power.val ≤ 0 := by
  rw [State.flagDegen_degen, Bool.or_eq_true, Bool.not_eq_true', ← Bool.not_eq_true, RNum.isPos_iff, not_lt]

/-- `P` is the mean of the squares of MOD (R153). -/
theorem State.power_val {s : State} (length : s.res.mod.length = s.run.ns s.run.scheme) :
    s.power.val = (s.res.mod.map (fun x => x.val ^ 2)).sum / s.run.ns s.run.scheme := by
  rw [State.power, meanPower_val, State.signal_eq_mod length, length]

/-- Settles O36: NOISE completes with `noisySample` on every sample. -/
theorem noiseSamples : Obligations.NoiseSamples := by
  rintro s _ rfl pos length finite snr draws
  have input : s.NoiseInput := ⟨length, pos, finite, snr⟩
  refine ⟨_, input.exec_of_draws draws, (StageFrame.update ..).advance _, rfl, rfl, rfl, rfl, rfl, rfl,
    State.power_val length, s.flagDegen_iff, List.length_mapIdx.trans length, ?sample⟩
  case sample =>
    intro n x get
    have below : n < s.run.ns s.run.scheme := length ▸ (List.getElem?_eq_some_iff.1 get).1
    have real : x.finite = true := List.all_eq_true.1 finite x (List.mem_of_getElem? get)
    exact ⟨s.noisySample n x, by simp [State.withNoise, get],
      input.noisySample_finite real (draws _ (by omega)) (draws _ (by omega)), s.noisySample_val n x⟩

/-- Settles O37: the loop stops at the first bad draw, and NOISE raises its cause. -/
theorem noiseRangeFailure : Obligations.NoiseRangeFailure := by
  intro s k low length finite snr draws bad
  have input : s.NoiseInput := ⟨length, by omega, finite, snr⟩
  have loop := noiseLoop_range s.sigma s.signal s.urng (by rwa [signal_length]) draws bad
    (List.all_eq_true.1 input.signal_finite)
  exact ⟨_, input.exec_of_loop_error loop, (StageFrame.update ..).raiseUnexpected _, rfl, rfl, rfl, rfl, rfl, rfl, rfl⟩

/-! ### A bad draw in MAP -/

theorem bpskIdeal_sent_finite (res : Results) (j : Nat) : (bpskIdeal res j).sent.finite = true := by
  simp only [Ideal.sent, Point.finite, bpskIdeal, bpskPoint]
  split <;> rfl

/-- The four QPSK points are of real numbers when the scale is (R194). -/
theorem qpskPoint_finite {p : Params} (scale : p.qscale.finite = true) {b1 b2 : Byte} (first : b1 = 0 ∨ b1 = 1)
    (second : b2 = 0 ∨ b2 = 1) : ((qpskPoint p b1 b2).1.finite && (qpskPoint p b1 b2).2.finite) = true := by
  rcases first with rfl | rfl <;> rcases second with rfl | rfl <;> simp [qpskPoint, scale, RNum.finite]

theorem exec_mapBpsk (s : State) :
    exec .mapBpsk s = .next (s.mapped ((List.range (s.run.np s.params .bpsk)).map (bpskIdeal s.res))) := rfl

theorem exec_mapQpsk {s : State} (even : s.run.len % 2 = 0) :
    exec .mapQpsk s = .next (s.mapped ((List.range (s.run.np s.params .qpsk)).map (qpskIdeal s.params s.res))) := if_pos even

theorem bpskIdeals_finite (res : Results) (n : Nat) :
    ∀ d ∈ (List.range n).map (bpskIdeal res), d.sent.finite = true :=
  List.forall_mem_map.2 fun j _ => bpskIdeal_sent_finite res j

theorem qpskIdeals_finite {p : Params} {r : Settings} {res : Results} (even : r.len % 2 = 0)
    (scale : p.qscale.finite = true) (bits : AreBits r res.runbits) :
    ∀ d ∈ (List.range (r.np p .qpsk)).map (qpskIdeal p res), d.sent.finite = true := by
  refine List.forall_mem_map.2 fun j hj => ?_
  have symbol : j < (r.len + 1) / 2 := (List.mem_range.1 hj).trans_le (Nat.min_le_left _ _)
  exact qpskPoint_finite scale (bits (2 * j) (by omega)) (bits (2 * j + 1) (by omega))

/-- MAP of real points fails at the first draw outside (0,1) (R157, R192). -/
theorem State.mapped_of_bad_draw {s : State} {ds : List Ideal} {k : Nat} (real : ∀ d ∈ ds, d.sent.finite = true)
    (noisy : s.run.noiseen = true) (snr : s.run.snrdb.finite = true) (low : k < 2 * ds.length)
    (draws : ∀ j, j < k → inUnit (s.urng.value j) = true) (bad : inUnit (s.urng.value k) = false) :
    s.mapped ds = ({ s with urng := s.urng.after (k + 1) } : State).raiseUnexpected causeRngRange := by
  rw [State.mapped, receivedPoints, if_pos noisy, jitterLoop_range _ ds s.urng low draws bad (dispersion_finite snr) real]

/-- Settles O44: under either scheme the ideal points are real, so MAP fails at its first bad draw. -/
theorem mapRangeFailure : Obligations.MapRangeFailure := by
  intro s i m k op noisy snr low draws bad
  obtain ⟨ds, maps, length, real⟩ : ∃ ds, exec i s = .next (s.mapped ds) ∧ ds.length = s.run.np s.params m ∧
      ∀ d ∈ ds, d.sent.finite = true := by
    rcases op with ⟨rfl, rfl⟩ | ⟨rfl, rfl, even, scale, bits⟩
    · exact ⟨_, exec_mapBpsk s, by rw [List.length_map, List.length_range], bpskIdeals_finite s.res _⟩
    · exact ⟨_, exec_mapQpsk even, by rw [List.length_map, List.length_range],
        qpskIdeals_finite even scale (areBits_of_get bits)⟩
  rw [State.mapped_of_bad_draw real noisy snr (length ▸ low) draws bad] at maps
  exact ⟨_, maps, (StageFrame.update ..).raiseUnexpected _, rfl, rfl, rfl, rfl, rfl, rfl, rfl, rfl⟩

/-! ### What a failing stage writes -/

/-- A stage after Validating that ends in Failed has raised an unexpected failure (R267). -/
theorem failsTo_of_failed {s t : State} (busy : s.busy = true) (later : s.phase ≠ .validating)
    (run : runCode (.stage s.selector) s = .next t) (failed : t.phase = .failed) : s.FailsTo t := by
  rcases stage_cases run with ⟨rest, -⟩ | ⟨validating, -⟩ | ⟨-, -, fails⟩ | ⟨-, rfl⟩ | ⟨-, -, wave, rfl⟩ |
    ⟨-, -, wave, rfl⟩ | ⟨-, rx, rfl⟩ | ⟨-, bits, rfl⟩ | ⟨-, ds, ps, -, -, rfl⟩ | ⟨-, errors, rfl⟩
  case inl => exact absurd (busy.symm.trans rest) (by decide)
  case inr.inl => exact absurd validating later
  case inr.inr.inl => exact fails
  all_goals exact absurd failed (by simp)

/-- The stage that led from `s` to `t` completed, or it was NOISE or MAP in a noisy run and stopped at a bad draw (R157). -/
def State.CompletesButForDraw (s t : State) : Prop :=
  t.phase ≠ .failed ∨
    t.cause = causeRngRange ∧ s.run.noiseen = true ∧ (s.phase = .noiseInjection ∨ s.phase = .mapping)

theorem State.completesButForDraw_of_phase {s t : State} {p : Phase} (phase : t.phase = p) (runs : p ≠ .failed) :
    s.CompletesButForDraw t := .inl (phase ▸ runs)

section
variable {s t : State} (passed : Passed s.params s.run s.res.runbits)
include passed

theorem Passed.generating_completes (spb : 0 < s.params.spbMin) (phase : s.phase = .generating)
    (run : runCode (.stage s.selector) s = .next t) : t.phase = .modulating := by
  have completes := exec_generate_of_timed (passed.carried spb).toTimed
  rw [runCode_stage, phase] at run
  cases run.symm.trans completes
  rfl

theorem Passed.modulating_completes (spb : 0 < s.params.spbMin) (phase : s.phase = .modulating)
    (run : runCode (.stage s.selector) s = .next t) :
    t.phase = if s.run.noiseen then .noiseInjection else .demodulating := by
  rw [runCode_modulating phase passed, State.modulated_of_finite (passed.wave_finite spb)] at run
  cases run
  rfl

/-- The sums of DEMOD on a received waveform are real numbers (R171, R175, R263). -/
theorem Passed.demodulating_completes (spb : 0 < s.params.spbMin) (received : s.Received) (phase : s.phase = .demodulating)
    (run : runCode (.stage s.selector) s = .next t) : t.phase = .mapping := by
  rw [runCode_stage, phase] at run
  rcases passed.scheme with ⟨scheme, modtype⟩ | ⟨scheme, modtype, even⟩ <;> rw [modtype] at run
  · have sums := passed.bpskSums_finite spb scheme received.length received.finite
    cases run
    rw [sums]
    rfl
  · have sums := passed.qpskSums_finite spb scheme received.length received.finite
    cases run.symm.trans (if_pos even)
    rw [sums]
    rfl

theorem Passed.computing_completes (phase : s.phase = .computing) (run : runCode (.stage s.selector) s = .next t) :
    t.phase = .done := by
  have rate : (berRate s.run (errorsOf s.run s.res)).finite = true :=
    berRate_finite (Nat.zero_lt_of_lt passed.low) _
  have attached : (!s.run.noiseen || s.run.snrdb.finite) = true := by
    cases noise : s.run.noiseen
    · rfl
    · exact passed.snr noise
  rw [runCode_computing phase passed, State.counted, if_pos (by rw [rate, attached, Bool.and_self])] at run
  cases run
  rfl

end

theorem State.Modulated.noiseInput {s : State} (h : s.Modulated) (pos : 0 < s.run.ns s.run.scheme)
    (snr : s.run.snrdb.finite = true) : s.NoiseInput :=
  ⟨(congrArg List.length h.mod).trans (waveOf_length ..), pos, h.finite, snr⟩

/-- In a state of the invariant the stages after Validating fail on a draw or not at all (R263, R267). -/
theorem State.Inv.completesButForDraw {s t : State} (inv : s.Inv) (spb : 0 < s.params.spbMin)
    (scale : s.params.qscale.finite = true) (busy : s.busy = true) (later : s.phase ≠ .validating)
    (run : runCode (.stage s.selector) s = .next t) : s.CompletesButForDraw t := by
  have passed (done : 2 ≤ s.phase.stagesDone) : Passed s.params s.run s.res.runbits := (inv.validated done).passed
  cases phase : s.phase <;> rw [phase] at passed
  case validating => exact absurd phase later
  case generating => exact completesButForDraw_of_phase ((passed (by decide)).generating_completes spb phase run) (by decide)
  case modulating =>
    refine completesButForDraw_of_phase ((passed (by decide)).modulating_completes spb phase run) ?_
    split <;> decide
  case noiseInjection =>
    have passed := passed (by decide)
    have noisy := inv.noisy phase
    have modulated : s.Modulated := inv.holds (k := 4) (by decide) (by rw [phase]; decide)
    have input := modulated.noiseInput (passed.ns_pos spb) (passed.snr noisy)
    rw [Machine.runCode_stage, phase] at run
    rcases execNoise_range input.signal_finite input.pos input.snr run with completes | cause
    · exact completesButForDraw_of_phase completes (by decide)
    · exact .inr ⟨cause, noisy, .inl phase⟩
  case demodulating =>
    have received : s.Received := inv.holds (k := 5) (by decide) (by rw [phase]; decide)
    exact completesButForDraw_of_phase ((passed (by decide)).demodulating_completes spb received phase run) (by decide)
  case mapping =>
    have passed := passed (by decide)
    rw [runCode_mapping phase passed] at run
    cases run
    rcases State.mapped_range (passed.ideals_finite scale) passed.snr with completes | ⟨noisy, cause⟩
    · exact completesButForDraw_of_phase completes (by decide)
    · exact .inr ⟨cause, noisy, .inr phase⟩
  case computing => exact completesButForDraw_of_phase ((passed (by decide)).computing_completes phase run) (by decide)
  all_goals exact absurd busy (by rw [State.busy, phase]; decide)

/-- Settles O51: a failing stage writes what `FailsTo` says, and in a validated run its cause is a draw. -/
theorem stageFailure : Obligations.StageFailure := by
  intro s t busy later turns step failed
  rw [step_stage turns busy] at step
  have fails := failsTo_of_failed busy later step failed
  have onDraw (inv : s.Inv) (spb : 0 < s.params.spbMin) (scale : s.params.qscale.finite = true) :=
    (inv.completesButForDraw spb scale busy later step).resolve_left (not_not_intro failed)
  have frame := fails.frame
  obtain ⟨c, d, k, cause, keepsDegen, rfl⟩ := fails
  exact ⟨cause, rfl, rfl, rfl, rfl, frame, Nat.le_add_right _ k, keepsDegen, onDraw⟩

end Sys2Proof.Machine

/-! ## The demodulator (spec/44_matched_filter_demodulator.md) -/

namespace Sys2Proof.Machine

/-! ### A demodulation of real samples -/

/-- The samples that the demodulators read stand for real numbers. -/
def RealSamples (r : Settings) (rx : List RNum) : Prop :=
  ∀ n, n < r.len * r.spb.toNat → (numAt rx n).finite = true

/-- A sample of block `k` of `m` blocks of `w` samples is below their end (R69). -/
theorem lt_of_block {k m w n : Nat} (block : k < m) (inside : n < k * w + w) : n < m * w :=
  inside.trans_le ((Nat.succ_mul k w).symm.trans_le (Nat.mul_le_mul_right w block))

theorem half_len_mul {r : Settings} (even : r.len % 2 = 0) : r.len / 2 * (2 * r.spb.toNat) = r.len * r.spb.toNat := by
  rw [← Nat.mul_assoc, Nat.div_mul_cancel (Nat.dvd_of_mod_eq_zero even)]

theorem nsym_qpsk_of_even {r : Settings} (even : r.len % 2 = 0) : r.nsym .qpsk = r.len / 2 := by
  rw [nsym_qpsk]
  omega

section
variable {r : Settings} {rx : List RNum} (carried : r.Carried) (samples : RealSamples r rx)
include carried samples

/-- The sums of DEMOD.BPSK on real samples are real numbers (R171, R263). -/
theorem RealSamples.bpskSums : (bpskSums r rx).all RNum.finite = true := by
  rw [Machine.bpskSums, List.all_map, List.all_eq_true]
  intro k hk
  refine iSum_finite carried fun n _ inside => samples n ?_
  rw [sps_bpsk] at inside
  exact lt_of_block (List.mem_range.1 hk) inside

/-- Both sums of DEMOD.QPSK too, on an even length (R175, R263). -/
theorem RealSamples.qpskSums (even : r.len % 2 = 0) :
    (qpskSums r rx).all (fun p => p.1.finite && p.2.finite) = true := by
  rw [Machine.qpskSums, List.all_map, List.all_eq_true]
  intro k hk
  have symbol : k < r.len / 2 := nsym_qpsk_of_even even ▸ List.mem_range.1 hk
  have real : ∀ n, k * r.sps .qpsk ≤ n → n < k * r.sps .qpsk + r.sps .qpsk → (numAt rx n).finite = true :=
    fun n _ inside => samples n (half_len_mul even ▸ lt_of_block symbol inside)
  exact Bool.and_eq_true_iff.2 ⟨iSum_finite carried real, qSum_finite carried real⟩

end

/-- DEMOD.BPSK of real samples completes (R171, R235). -/
theorem execDemodBpsk_of_real {s : State} (carried : s.run.Carried) (samples : RealSamples s.run s.res.rx) :
    execDemodBpsk s = .next ((s.withBits (bpskBits s.run s.res.rx)).advance .mapping) := by
  rw [execDemodBpsk, samples.bpskSums carried]
  rfl

/-- DEMOD.QPSK of real samples completes on an even length (R175, R235). -/
theorem execDemodQpsk_of_real {s : State} (carried : s.run.Carried) (samples : RealSamples s.run s.res.rx)
    (even : s.run.len % 2 = 0) :
    execDemodQpsk s = .next ((s.withBits (qpskBits s.run s.res.rx)).advance .mapping) := by
  rw [execDemodQpsk, if_pos even, samples.qpskSums carried even]
  rfl

/-! ### The decisions -/

/-- The decision on a sum is the one on its real value, 1 on the threshold (R172). -/
theorem decideBit_eq (x : RNum) : decideBit x = if 0 ≤ x.val then 1 else 0 := by
  simp only [decideBit, RNum.nonneg_iff]

/-- Bit `k` of DEMOD.BPSK, from the in-phase sum of its block (R171). -/
theorem bpskBits_get_eq {r : Settings} (rx : List RNum) {k : Nat} (hk : k < r.len) :
    (bpskBits r rx)[k]? = some (if 0 ≤ inPhase r rx (k * r.spb.toNat) r.spb.toNat then 1 else 0) := by
  rw [bpskBits_get hk, decideBit_eq, iSumOf, iSum_val, sps_bpsk]

/-- The decision table read column by column: `b1 = 1 − qBit` and `b2 = 1 − iBit` (R176). -/
theorem qpskDecide_eq (iBit qBit : Bool) : qpskDecide iBit qBit = (if qBit then 0 else 1, if iBit then 0 else 1) := by
  cases iBit <;> cases qBit <;> rfl

/-- The pair of symbol `k` of DEMOD.QPSK, the first bit from the quadrature sum and the second from the in-phase one
(R175, R176). -/
theorem qpskPair_eq (r : Settings) (rx : List RNum) (k : Nat) :
    qpskPair r rx k =
      (if 0 ≤ quadrature r rx (k * (2 * r.spb.toNat)) (2 * r.spb.toNat) then 0 else 1,
        if 0 ≤ inPhase r rx (k * (2 * r.spb.toNat)) (2 * r.spb.toNat) then 0 else 1) := by
  simp only [qpskPair, qpskDecide_eq, RNum.nonneg_iff, iSumOf, qSumOf, iSum_val, qSum_val, sps_qpsk]

theorem qpskBits_first {r : Settings} (even : r.len % 2 = 0) (rx : List RNum) {k : Nat} (hk : k < r.len / 2) :
    (qpskBits r rx)[2 * k]? =
      some (if 0 ≤ quadrature r rx (k * (2 * r.spb.toNat)) (2 * r.spb.toNat) then 0 else 1) := by
  rw [(qpskBits_get (nsym_qpsk_of_even even ▸ hk)).1, qpskPair_eq]

theorem qpskBits_second {r : Settings} (even : r.len % 2 = 0) (rx : List RNum) {k : Nat} (hk : k < r.len / 2) :
    (qpskBits r rx)[2 * k + 1]? =
      some (if 0 ≤ inPhase r rx (k * (2 * r.spb.toNat)) (2 * r.spb.toNat) then 0 else 1) := by
  rw [(qpskBits_get (nsym_qpsk_of_even even ▸ hk)).2, qpskPair_eq]

/-- Settles O38: on real samples DEMOD.BPSK completes, and bit `k` is the decision on the real sum of its block. -/
theorem demodBpskDecision : Obligations.DemodBpskDecision := by
  intro s carried samples
  refine ⟨_, execDemodBpsk_of_real carried samples, plainStage_results_advance s _ _, rfl, rfl, bpskBits_length .., ?_⟩
  intro k hk
  have bit := bpskBits_get_eq s.res.rx hk
  exact ⟨fun above => bit.trans (by rw [if_pos above]), fun below => bit.trans (by rw [if_neg below.not_ge])⟩

/-- Settles O39: on real samples and an even length DEMOD.QPSK completes, and each bit of a pair is the decision on its own
sum. -/
theorem demodQpskDecision : Obligations.DemodQpskDecision := by
  intro s carried even samples
  refine ⟨_, execDemodQpsk_of_real carried samples even, plainStage_results_advance s _ _, rfl, rfl, ?length, ?pairs⟩
  case length =>
    change (qpskBits s.run s.res.rx).length = s.run.len
    rw [qpskBits_length, nsym_qpsk_of_even even]
    omega
  case pairs =>
    rintro k i q hk rfl rfl
    have first := qpskBits_first even s.res.rx hk
    have second := qpskBits_second even s.res.rx hk
    exact
      ⟨fun ⟨i, q⟩ => ⟨first.trans (by rw [if_pos q]), second.trans (by rw [if_pos i])⟩,
        fun ⟨i, q⟩ => ⟨first.trans (by rw [if_pos q]), second.trans (by rw [if_neg i.not_ge])⟩,
        fun ⟨i, q⟩ => ⟨first.trans (by rw [if_neg q.not_ge]), second.trans (by rw [if_neg i.not_ge])⟩,
        fun ⟨i, q⟩ => ⟨first.trans (by rw [if_neg q.not_ge]), second.trans (by rw [if_pos i])⟩⟩

/-! ### Where the sampled quadrature reference vanishes -/

/-- The phase of sample `n` is `n` steps (R125). -/
theorem Settings.angle_eq (r : Settings) (n : Nat) : r.angle n = n * r.angleStep := by
  rw [Settings.angle, Settings.time, Settings.angleStep]
  ring

/-- `sin ψ = 0` makes every phase a multiple of `π` (R126, R179). -/
theorem Settings.sin_angle_eq_zero {r : Settings} (blind : Real.sin r.angleStep = 0) (n : Nat) :
    Real.sin (r.angle n) = 0 := by
  obtain ⟨m, step⟩ := Real.sin_eq_zero_iff.1 blind
  exact Real.sin_eq_zero_iff.2 ⟨n * m, by rw [r.angle_eq, ← step]; push_cast; ring⟩

theorem quadrature_of_blind {r : Settings} (blind : Real.sin r.angleStep = 0) (rx : List RNum) (n0 w : Nat) :
    quadrature r rx n0 w = 0 := by
  simp [quadrature, Settings.sin_angle_eq_zero blind]

/-- Settles O40: every quadrature sum is 0, on the threshold, which decides the first bit 0. -/
theorem qpskBlindCarrier : Obligations.QpskBlindCarrier := by
  intro s carried even blind samples
  refine ⟨_, execDemodQpsk_of_real carried samples even, rfl, fun k hk => ?_⟩
  exact (qpskBits_first even s.res.rx hk).trans (by rw [quadrature_of_blind blind, if_pos le_rfl])

/-- Settles O41: an odd length takes the other branch of each operation's test. -/
theorem oddQpskStops : Obligations.OddQpskStops := fun s odd =>
  have notEven : ¬s.run.len % 2 = 0 := by omega
  ⟨if_neg notEven, if_neg notEven, if_neg notEven⟩


/-! ### The sums of a noiseless block in closed form -/

/-- `C2`, the sum of `cos² θ` over a block (R173, R177). -/
noncomputable def Settings.cosPower (r : Settings) (n0 w : Nat) : ℝ := ∑ j ∈ Finset.range w, Real.cos (r.angle (n0 + j)) ^ 2

/-- `S2`, the sum of `sin² θ` over a block (R177). -/
noncomputable def Settings.sinPower (r : Settings) (n0 w : Nat) : ℝ := ∑ j ∈ Finset.range w, Real.sin (r.angle (n0 + j)) ^ 2

/-- `X`, the sum of `sin θ·cos θ` over a block (R177). -/
noncomputable def Settings.crossPower (r : Settings) (n0 w : Nat) : ℝ :=
  ∑ j ∈ Finset.range w, Real.sin (r.angle (n0 + j)) * Real.cos (r.angle (n0 + j))

/-- The block of `w` samples from `n0` is the carrier with amplitude `a` and phase `φ`, as a modulator makes it (R131,
R141). -/
def IsTone (r : Settings) (rx : List RNum) (n0 w : Nat) (a φ : ℝ) : Prop :=
  ∀ j, j < w → (numAt rx (n0 + j)).val = a * Real.cos (r.angle (n0 + j) + φ)

section
variable {r : Settings} {rx : List RNum} {n0 w : Nat} {a φ : ℝ} (tone : IsTone r rx n0 w a φ)
include tone

/-- `iSum` of a tone (R173, R177). -/
theorem IsTone.inPhase :
    inPhase r rx n0 w = a * (Real.cos φ * r.cosPower n0 w - Real.sin φ * r.crossPower n0 w) := by
  rw [Machine.inPhase, Settings.cosPower, Settings.crossPower]
  simp only [Finset.mul_sum, ← Finset.sum_sub_distrib]
  refine Finset.sum_congr rfl fun j hj => ?_
  rw [tone j (Finset.mem_range.1 hj), Real.cos_add]
  ring

/-- `qSum` of a tone (R177). -/
theorem IsTone.quadrature :
    quadrature r rx n0 w = a * (Real.sin φ * r.sinPower n0 w - Real.cos φ * r.crossPower n0 w) := by
  rw [Machine.quadrature, Settings.sinPower, Settings.crossPower]
  simp only [Finset.mul_sum, ← Finset.sum_sub_distrib, ← Finset.sum_neg_distrib]
  refine Finset.sum_congr rfl fun j hj => ?_
  rw [tone j (Finset.mem_range.1 hj), Real.cos_add]
  ring

end

/-! ### The BPSK reference has power in every block of two samples (R173) -/

theorem Settings.angle_succ (r : Settings) (n : Nat) : r.angle (n + 1) = r.angle n + r.angleStep := by
  rw [r.angle_eq, r.angle_eq]
  push_cast
  ring

/-- Two consecutive samples of `cos θ` are not both 0: the step would be a multiple of `π`, and then every `cos θ` is
`±1`. -/
theorem Settings.cos_angle_succ_ne_zero {r : Settings} {n : Nat} (zero : Real.cos (r.angle n) = 0) :
    Real.cos (r.angle (n + 1)) ≠ 0 := by
  intro next
  have sine : Real.sin (r.angle n) ≠ 0 := fun sine => by
    simpa [zero, sine] using Real.sin_sq_add_cos_sq (r.angle n)
  rw [r.angle_succ, Real.cos_add, zero, zero_mul, zero_sub, neg_eq_zero] at next
  exact sine (Settings.sin_angle_eq_zero ((mul_eq_zero.1 next).resolve_left sine) n)

theorem Settings.cosPower_pos (r : Settings) (n0 : Nat) {w : Nat} (two : 2 ≤ w) : 0 < r.cosPower n0 w := by
  obtain ⟨j, low, nonzero⟩ : ∃ j, j < 2 ∧ Real.cos (r.angle (n0 + j)) ≠ 0 := by
    by_cases zero : Real.cos (r.angle n0) = 0
    · exact ⟨1, by decide, Settings.cos_angle_succ_ne_zero zero⟩
    · exact ⟨0, by decide, zero⟩
  exact Finset.sum_pos' (fun _ _ => sq_nonneg _)
    ⟨j, Finset.mem_range.2 (low.trans_le two), sq_pos_of_ne_zero nonzero⟩

/-! ### The QPSK references are told apart where `N·|sin ψ| > √2` (R177, R178) -/

/-- The real part of `D`, the sum of `e^(2iθ)` over a block (R177). -/
noncomputable def Settings.doubleCos (r : Settings) (n0 w : Nat) : ℝ := ∑ j ∈ Finset.range w, Real.cos (2 * r.angle (n0 + j))

/-- The imaginary part of `D` (R177). -/
noncomputable def Settings.doubleSin (r : Settings) (n0 w : Nat) : ℝ := ∑ j ∈ Finset.range w, Real.sin (2 * r.angle (n0 + j))

section
variable (r : Settings) (n0 w : Nat)

theorem Settings.two_mul_cosPower : 2 * r.cosPower n0 w = w + r.doubleCos n0 w := by
  simp [Settings.cosPower, Settings.doubleCos, Real.cos_two_mul, Finset.sum_sub_distrib, Finset.mul_sum]

theorem Settings.cosPower_add_sinPower : r.cosPower n0 w + r.sinPower n0 w = w := by
  simp [Settings.cosPower, Settings.sinPower, ← Finset.sum_add_distrib]

theorem Settings.two_mul_sinPower : 2 * r.sinPower n0 w = w - r.doubleCos n0 w := by
  linarith [r.cosPower_add_sinPower n0 w, r.two_mul_cosPower n0 w]

theorem Settings.two_mul_crossPower : 2 * r.crossPower n0 w = r.doubleSin n0 w := by
  simp [Settings.crossPower, Settings.doubleSin, Real.sin_two_mul, Finset.mul_sum, mul_assoc]

theorem Settings.two_mul_angle_add (j : Nat) : 2 * r.angle (n0 + j) = 2 * r.angleStep * j + 2 * r.angle n0 := by
  rw [r.angle_eq, r.angle_eq]
  push_cast
  ring

/-- `sin ψ · D` has the modulus of `sin (Nψ)` (R177). -/
theorem Settings.sq_sin_mul_double :
    (Real.sin r.angleStep * r.doubleCos n0 w) ^ 2 + (Real.sin r.angleStep * r.doubleSin n0 w) ^ 2 =
      Real.sin (w * r.angleStep) ^ 2 := by
  have cosines := Real.sin_mul_sum_cos w (2 * r.angleStep) (2 * r.angle n0)
  have sines := Real.sin_mul_sum_sin w (2 * r.angleStep) (2 * r.angle n0)
  rw [mul_div_cancel_left₀ _ two_ne_zero, mul_left_comm, mul_div_cancel_left₀ _ two_ne_zero] at cosines sines
  simp only [Settings.doubleCos, Settings.doubleSin, Settings.two_mul_angle_add, cosines, sines]
  rw [mul_pow, mul_pow, ← mul_add, Real.cos_sq_add_sin_sq, mul_one]

/-- `|Re D| + |Im D| ≤ √2·|D| ≤ √2/|sin ψ|` (R178). -/
theorem Settings.abs_double_le :
    |Real.sin r.angleStep| * (|r.doubleCos n0 w| + |r.doubleSin n0 w|) ≤ Real.sqrt 2 := by
  refine Real.le_sqrt_of_sq_le ?_
  calc (|Real.sin r.angleStep| * (|r.doubleCos n0 w| + |r.doubleSin n0 w|)) ^ 2
      = (|Real.sin r.angleStep * r.doubleCos n0 w| + |Real.sin r.angleStep * r.doubleSin n0 w|) ^ 2 := by
        rw [mul_add, abs_mul, abs_mul]
    _ ≤ 2 * (|Real.sin r.angleStep * r.doubleCos n0 w| ^ 2 + |Real.sin r.angleStep * r.doubleSin n0 w| ^ 2) := add_sq_le
    _ = 2 * Real.sin (w * r.angleStep) ^ 2 := by rw [sq_abs, sq_abs, r.sq_sin_mul_double]
    _ ≤ 2 := by linarith [Real.sin_sq_le_one (w * r.angleStep)]

variable {r w}

/-- `|Re D| + |Im D| < N` under R178's sufficient condition. -/
theorem Settings.abs_double_lt (apart : Real.sqrt 2 < w * |Real.sin r.angleStep|) :
    |r.doubleCos n0 w| + |r.doubleSin n0 w| < w :=
  lt_of_mul_lt_mul_left (((r.abs_double_le n0 w).trans_lt apart).trans_eq (mul_comm _ _)) (abs_nonneg _)

/-- `|X| < C2` (R178). -/
theorem Settings.crossPower_lt_cosPower (apart : Real.sqrt 2 < w * |Real.sin r.angleStep|) :
    |r.crossPower n0 w| < r.cosPower n0 w := by
  have small := Settings.abs_double_lt n0 apart
  rw [← r.two_mul_crossPower, abs_mul, abs_two] at small
  linarith [r.two_mul_cosPower n0 w, neg_abs_le (r.doubleCos n0 w)]

/-- `|X| < S2` (R178). -/
theorem Settings.crossPower_lt_sinPower (apart : Real.sqrt 2 < w * |Real.sin r.angleStep|) :
    |r.crossPower n0 w| < r.sinPower n0 w := by
  have small := Settings.abs_double_lt n0 apart
  rw [← r.two_mul_crossPower, abs_mul, abs_two] at small
  linarith [r.two_mul_sinPower n0 w, le_abs_self (r.doubleCos n0 w)]

end

/-! ### Every bit comes back -/

/-- A buffer that reads bit for bit as `bits` is `bits`. -/
theorem eq_of_get_bitAt {l bits : List Byte} (length : l.length = bits.length)
    (get : ∀ k, k < bits.length → l[k]? = some (bitAt bits k)) : l = bits := by
  refine List.ext_getElem? fun k => ?_
  by_cases inside : k < bits.length
  · rw [get k inside, bitAt, List.getElem?_eq_getElem inside, Option.getD_some]
  · rw [List.getElem?_eq_none (length ▸ not_lt.1 inside), List.getElem?_eq_none (not_lt.1 inside)]

/-! #### BPSK -/

/-- Block `k` of the waveform is the carrier in the phase of bit `k` (R131, R133). -/
theorem isTone_bpskWave {r : Settings} (bits : List Byte) {k : Nat} (hk : k < r.len) :
    IsTone r (bpskWave r bits) (k * r.spb.toNat) r.spb.toNat r.caramp.val (if bitAt bits k = 1 then 0 else Real.pi) := by
  intro j hj
  have below : k * r.spb.toNat + j < r.ns .bpsk := ns_bpsk r ▸ lt_of_block hk (Nat.add_lt_add_left hj _)
  have symbol : (k * r.spb.toNat + j) / r.sps .bpsk = k := by
    rw [sps_bpsk, Nat.add_comm, Nat.add_mul_div_right _ _ (Nat.zero_lt_of_lt hj), Nat.div_eq_of_lt hj, Nat.zero_add]
  rw [numAt_val (bpskWave_get r bits below), bpskSample_val, symbol]

/-- `iSum` is `A·C2` for bit 1 and `−A·C2` for bit 0, and `C2` is positive, so each bit is decided as sent (R174). -/
theorem bpskBits_bpskWave {r : Settings} {bits : List Byte} (amplitude : 0 < r.caramp.val) (two : 2 ≤ r.spb.toNat)
    (areBits : AreBits r bits) (length : bits.length = r.len) : bpskBits r (bpskWave r bits) = bits := by
  refine eq_of_get_bitAt ((bpskBits_length ..).trans length.symm) fun k hk => ?_
  rw [length] at hk
  have power := mul_pos amplitude (r.cosPower_pos (k * r.spb.toNat) two)
  rw [bpskBits_get_eq _ hk, (isTone_bpskWave bits hk).inPhase]
  rcases areBits k hk with zero | one
  · have phase : (if bitAt bits k = 1 then 0 else Real.pi) = Real.pi := if_neg (by rw [zero]; decide)
    rw [phase, Real.cos_pi, Real.sin_pi, zero, if_neg (by linarith)]
  · rw [if_pos one, Real.cos_zero, Real.sin_zero, one, if_pos (by linarith)]

/-! #### QPSK -/

/-- The sign a bit gives its axis: `s_I` of the second bit and `s_Q` of the first (R144). -/
def bitSign (b : Byte) : ℝ := if b = 0 then 1 else -1

/-- The coordinates of the four phases (R142, R144). -/
theorem cos_sin_pairAngle {b1 b2 : Byte} (first : b1 = 0 ∨ b1 = 1) (second : b2 = 0 ∨ b2 = 1) :
    Real.cos (pairAngle b1 b2) = bitSign b2 * (Real.sqrt 2 / 2) ∧
      Real.sin (pairAngle b1 b2) = bitSign b1 * (Real.sqrt 2 / 2) := by
  have angle3 : 3 * Real.pi / 4 = Real.pi - Real.pi / 4 := by ring
  have angle5 : 5 * Real.pi / 4 = Real.pi / 4 + Real.pi := by ring
  have angle7 : 7 * Real.pi / 4 = 2 * Real.pi - Real.pi / 4 := by ring
  rcases first with rfl | rfl <;> rcases second with rfl | rfl
  · simp [pairAngle, bitSign]
  · simp [pairAngle, bitSign, angle3, Real.cos_pi_sub, Real.sin_pi_sub]
  · simp [pairAngle, bitSign, angle7, Real.cos_two_pi_sub, Real.sin_two_pi_sub]
  · simp [pairAngle, bitSign, angle5, Real.cos_add_pi, Real.sin_add_pi]

/-- A sum whose own power `c` exceeds the cross power `x` has the sign of its own bit, whatever the other bit (R178). -/
theorem decide_eq_bit {a c x : ℝ} {b b' : Byte} (amplitude : 0 < a) (dominant : |x| < c) (bit : b = 0 ∨ b = 1) :
    (if 0 ≤ a * (bitSign b * (Real.sqrt 2 / 2) * c - bitSign b' * (Real.sqrt 2 / 2) * x) then 0 else 1) = b := by
  have scale : 0 < a * (Real.sqrt 2 / 2) := by positivity
  have cross : |bitSign b' * x| < c := by
    rw [abs_mul, bitSign]
    split <;> simpa using dominant
  obtain ⟨low, high⟩ := abs_lt.1 cross
  rcases bit with rfl | rfl
  · have above := mul_pos scale (sub_pos.2 high)
    rw [bitSign, if_pos rfl, if_pos (by linarith)]
  · have below := mul_pos scale (neg_lt_iff_pos_add.1 low)
    rw [show bitSign 1 = -1 from if_neg (by decide), if_neg (by linarith)]

/-- Block `k` of the waveform is the carrier in the phase of pair `k` (R141). -/
theorem isTone_qpskWave {r : Settings} {bits : List Byte} (areBits : AreBits r bits) (even : r.len % 2 = 0) {k : Nat}
    (hk : k < r.len / 2) :
    IsTone r (qpskWave r bits) (k * (2 * r.spb.toNat)) (2 * r.spb.toNat) r.caramp.val
      (pairAngle (bitAt bits (2 * k)) (bitAt bits (2 * k + 1))) := by
  intro j hj
  have below : k * (2 * r.spb.toNat) + j < r.ns .qpsk := block_lt_ns_qpsk (by omega) hj
  rw [numAt_val (qpskWave_get r bits below), qpskSample_val areBits below, symbolOf_qpsk_block r hj, secondBit,
    if_pos (by omega)]

section
variable {r : Settings} {bits : List Byte} (amplitude : 0 < r.caramp.val)
  (apart : Real.sqrt 2 < 2 * r.spb.toNat * |Real.sin r.angleStep|) (areBits : AreBits r bits) (even : r.len % 2 = 0)
include amplitude apart areBits even

/-- Under R178's sufficient condition each sum has the sign of its own bit, so each pair is decided as sent. -/
theorem qpskBits_qpskWave_pair {k : Nat} (hk : k < r.len / 2) :
    (qpskBits r (qpskWave r bits))[2 * k]? = some (bitAt bits (2 * k)) ∧
      (qpskBits r (qpskWave r bits))[2 * k + 1]? = some (bitAt bits (2 * k + 1)) := by
  have apart : Real.sqrt 2 < (2 * r.spb.toNat : Nat) * |Real.sin r.angleStep| := by exact_mod_cast apart
  have first := areBits (2 * k) (by omega)
  have second := areBits (2 * k + 1) (by omega)
  have tone := isTone_qpskWave areBits even hk
  obtain ⟨cosine, sine⟩ := cos_sin_pairAngle first second
  constructor
  · rw [qpskBits_first even _ hk, tone.quadrature, cosine, sine,
      decide_eq_bit amplitude (Settings.crossPower_lt_sinPower _ apart) first]
  · rw [qpskBits_second even _ hk, tone.inPhase, cosine, sine,
      decide_eq_bit amplitude (Settings.crossPower_lt_cosPower _ apart) second]

theorem qpskBits_qpskWave (length : bits.length = r.len) : qpskBits r (qpskWave r bits) = bits := by
  have sizes : (qpskBits r (qpskWave r bits)).length = bits.length := by
    rw [qpskBits_length, nsym_qpsk_of_even even, length]
    omega
  refine eq_of_get_bitAt sizes fun n hn => ?_
  have pair {k : Nat} := qpskBits_qpskWave_pair amplitude apart areBits even (k := k)
  obtain ⟨k, rfl | rfl⟩ := Nat.even_or_odd' n
  · exact (pair (by omega)).1
  · exact (pair (by omega)).2

end

/-! ### A noiseless run that passes validation -/

/-- The ten checks are what the gate computes (R230). -/
theorem State.Latched.validated {s : State} (latched : s.Latched)
    (checks : ∀ i, CheckHolds s.params s.run s.res.runbits i) : s.Validated := by
  refine ⟨(gateMask_zero s).2 fun c hc => ?_⟩
  obtain ⟨i, hi, rfl⟩ := List.getElem_of_mem hc
  have holds := (checks_iff latched.length ⟨i, hi⟩).2 (checks ⟨i, hi⟩)
  exact Option.some.inj ((List.getElem?_eq_getElem hi).symm.trans holds)

section
variable {p : Params} {r : Settings} {bits : List Byte} (passed : Passed p r bits)
include passed

/-- The latched bits of a run that passed validation are the `L` bits it sends (R222, R230 check 8). -/
theorem Passed.length_eq (latched : bits.length = min r.txcount.toNat p.lmax) : bits.length = r.len := by
  have count : r.txcount.toNat = r.len := congrArg BitVec.toNat passed.count
  rw [latched, count, Nat.min_eq_left passed.high]

/-- The waveform is of real numbers for every positive SPB (R131, R141, R263). -/
theorem Passed.waveOf_finite (carried : r.Carried) : (waveOf r bits).all RNum.finite = true := by
  rw [waveOf]
  rcases passed.scheme with ⟨scheme, -⟩ | ⟨scheme, -, -⟩ <;> rw [scheme]
  · exact bpskWave_finite carried passed.caramp bits
  · exact qpskWave_finite carried passed.caramp passed.bits

/-- The bypass hands the demodulator real samples (R151). -/
theorem Passed.realSamples_waveOf (carried : r.Carried) : RealSamples r (waveOf r bits) := fun n hn =>
  numAt_finite (passed.waveOf_finite carried) (by rwa [waveOf_length, passed.ns])

end

/-- MAP's ideal points are of real numbers, CONST_QSCALE being one where QPSK uses it (R194). -/
theorem Passed.idealsOf_finite {p : Params} {r : Settings} {res : Results} (passed : Passed p r res.runbits)
    (scale : r.modtype = 1 → p.qscale.finite = true) : ∀ d ∈ idealsOf p r res, d.sent.finite = true := by
  rw [idealsOf]
  rcases passed.scheme with ⟨scheme, -⟩ | ⟨scheme, modtype, even⟩ <;> rw [scheme]
  · exact bpskIdeals_finite res _
  · exact qpskIdeals_finite even (scale modtype) passed.bits

/-! #### The sequencer's steps of such a run, none of which fails (R231 to R237, R263) -/

section
variable {s : State} (turns : s.turns = [])
include turns

theorem step_validating (phase : s.phase = .validating) (validated : s.Validated) :
    step s = .next (({ s with verrmask := 0 } : State).advance .generating) := by
  rw [step_eq_stage turns, runCode_stage, phase]
  exact if_pos validated.checks

theorem step_generating (phase : s.phase = .generating) (timed : s.run.Timed) :
    step s = .next (s.withTimeGrid.advance .modulating) := by
  rw [step_eq_stage turns, runCode_stage, phase]
  exact exec_generate_of_timed timed

variable (passed : Passed s.params s.run s.res.runbits)
include passed

theorem step_modulating_of_quiet (phase : s.phase = .modulating) (carried : s.run.Carried) (quiet : s.run.noiseen = false) :
    step s = .next ((s.withBypass (waveOf s.run s.res.runbits)).advance .demodulating) := by
  rw [step_eq_stage turns, runCode_modulating phase passed, State.modulated_of_finite (passed.waveOf_finite carried), quiet]
  rfl

theorem step_demodulating (phase : s.phase = .demodulating) (carried : s.run.Carried)
    (samples : RealSamples s.run s.res.rx) :
    step s = .next ((s.withBits (bitsOf s.run s.res.rx)).advance .mapping) := by
  rw [step_eq_stage turns, runCode_stage, phase, bitsOf]
  rcases passed.scheme with ⟨scheme, modtype⟩ | ⟨scheme, modtype, even⟩ <;> rw [scheme, modtype]
  · exact execDemodBpsk_of_real carried samples
  · exact execDemodQpsk_of_real carried samples even

theorem step_mapping_of_quiet (phase : s.phase = .mapping) (quiet : s.run.noiseen = false)
    (real : ∀ d ∈ idealsOf s.params s.run s.res, d.sent.finite = true) :
    step s = .next ((s.withPoints (idealsOf s.params s.run s.res)
      ((idealsOf s.params s.run s.res).map (fun d => d.received (.rat 0) (.rat 0)))).advance .computing) := by
  rw [step_eq_stage turns, runCode_mapping phase passed, State.mapped, receivedPoints, State.withPoints, quiet,
    List.all_eq_true.2 real]
  rfl

theorem step_computing_of_quiet (phase : s.phase = .computing) (quiet : s.run.noiseen = false) :
    step s = .next ((s.withCounts (errorsOf s.run s.res)).advance .done) := by
  rw [step_eq_stage turns, runCode_computing phase passed, State.counted,
    berRate_finite (Nat.zero_lt_of_lt passed.low), State.withCounts, quiet]
  rfl

end

/-! #### The round trips -/

section
variable {res : Results} (same : res.rxbits = res.runbits)
include same

/-- Equal buffers have no position and no pair that differs (R211, R212). -/
theorem errorsOf_eq_zero (r : Settings) : errorsOf r res = 0 := by
  rw [errorsOf]
  cases r.scheme
  · simp [bpskErrors, same]
  · simp [qpskErrors, same]

/-- And no symbol that MAP flags (R198). -/
theorem idealsOf_err (p : Params) (r : Settings) : ∀ d ∈ idealsOf p r res, d.err = false := by
  rw [idealsOf]
  cases r.scheme
  · exact List.forall_mem_map.2 fun j _ => by simp [bpskIdeal, same]
  · exact List.forall_mem_map.2 fun j _ => by simp [qpskIdeal, same]

end

theorem Ideal.received_err {d : Ideal} (correct : d.err = false) (di dq : RNum) : (d.received di dq).err = 0 := by
  rw [Ideal.received, correct]
  rfl

/-- The run from `s` is Done after six steps with the bits it sent received, no error counted and none flagged (R174, R178,
R216). -/
def State.RoundTrips (s : State) : Prop :=
  ∃ t, Host.Core.run Sys2Proof.core 6 s = .next t ∧ t.phase = .done ∧ t.res.runbits = s.res.runbits ∧
    t.res.rxbits = s.res.runbits ∧ t.res.berErrcnt = some 0 ∧ (∀ x ∈ t.res.berValue, x.val = 0) ∧
    ∀ p ∈ t.res.crx, p.err = 0

/-! The states of a noiseless run from Validating on, each after the stage it is named for (R231 to R237, R239). -/

def State.afterValidate (s : State) : State := ({ s with verrmask := 0 } : State).advance .generating

def State.afterGenerate (s : State) : State := s.afterValidate.withTimeGrid.advance .modulating

def State.afterMod (s : State) : State := (s.afterGenerate.withBypass (waveOf s.run s.res.runbits)).advance .demodulating

def State.afterDemod (s : State) : State :=
  (s.afterMod.withBits (bitsOf s.run (waveOf s.run s.res.runbits))).advance .mapping

def State.symbolsSent (s : State) : List Ideal := idealsOf s.params s.run s.afterDemod.res

def State.afterMap (s : State) : State :=
  (s.afterDemod.withPoints s.symbolsSent (s.symbolsSent.map (fun d => d.received (.rat 0) (.rat 0)))).advance .computing

def State.afterBer (s : State) : State := (s.afterMap.withCounts (errorsOf s.run s.afterMap.res)).advance .done

/-- A noiseless run that passes validation goes through its six stages. -/
theorem run_of_quiet {s : State} (phase : s.phase = .validating) (turns : s.turns = []) (validated : s.Validated)
    (carried : s.run.Carried) (quiet : s.run.noiseen = false)
    (scale : s.run.modtype = 1 → s.params.qscale.finite = true) :
    Host.Core.run Sys2Proof.core 6 s = .next s.afterBer := by
  have passed := validated.passed
  have validate : step s = .next s.afterValidate := step_validating turns phase validated
  have generate : step s.afterValidate = .next s.afterGenerate := step_generating turns rfl carried.toTimed
  have modulate : step s.afterGenerate = .next s.afterMod := step_modulating_of_quiet turns passed rfl carried quiet
  have demodulate : step s.afterMod = .next s.afterDemod :=
    step_demodulating turns passed rfl carried (passed.realSamples_waveOf carried)
  have map : step s.afterDemod = .next s.afterMap :=
    step_mapping_of_quiet turns passed rfl quiet (Passed.idealsOf_finite (res := s.afterDemod.res) passed scale)
  have count : step s.afterMap = .next s.afterBer := step_computing_of_quiet turns passed rfl quiet
  rw [run_next validate, run_next generate, run_next modulate, run_next demodulate, run_next map, run_next count, run_zero]

/-- Where demodulating the waveform gives the sent bits back, a noiseless run that passes validation counts and flags
nothing. -/
theorem State.roundTrips_of_bitsOf_waveOf {s : State} (phase : s.phase = .validating) (turns : s.turns = [])
    (validated : s.Validated) (carried : s.run.Carried) (quiet : s.run.noiseen = false)
    (scale : s.run.modtype = 1 → s.params.qscale.finite = true)
    (back : bitsOf s.run (waveOf s.run s.res.runbits) = s.res.runbits) : s.RoundTrips := by
  have errors : errorsOf s.run s.afterMap.res = 0 := errorsOf_eq_zero back s.run
  refine ⟨_, run_of_quiet phase turns validated carried quiet scale, rfl, rfl, back, ?count, ?rate, ?flags⟩
  case count => exact congrArg (fun e => some (BitVec.ofNat 32 e)) errors
  case rate =>
    rintro x ⟨⟩
    rw [berRate_val, errors, Nat.cast_zero, zero_div]
  case flags =>
    exact List.forall_mem_map.2 fun d hd => Ideal.received_err (idealsOf_err back s.params s.run d hd) _ _

/-- Settles O59: demodulating the BPSK waveform gives the sent bits back, for every carrier. -/
theorem bpskRoundTrip : Obligations.BpskRoundTrip := by
  intro s phase turns latched two checks modtype quiet
  have validated := latched.validated checks
  have passed := validated.passed
  have spb : 2 ≤ s.run.spb.toNat := two.trans passed.spb
  have scheme : s.run.scheme = .bpsk := by rw [Settings.scheme, modtype]; rfl
  refine State.roundTrips_of_bitsOf_waveOf phase turns validated (passed.carried (Nat.zero_lt_of_lt two)) quiet
    (fun qpsk => absurd (modtype.symm.trans qpsk) (by decide)) ?_
  rw [bitsOf, waveOf, scheme]
  exact bpskBits_bpskWave passed.carampPos spb passed.bits (passed.length_eq latched.length)

/-- Settles O60: demodulating the QPSK waveform gives the sent bits back under R178's sufficient condition. -/
theorem qpskRoundTrip : Obligations.QpskRoundTrip := by
  intro s phase turns latched checks modtype quiet scale spb apart
  have validated := latched.validated checks
  have passed := validated.passed
  have carried : s.run.Carried := ⟨⟨spb, passed.bitrate, passed.bitratePos⟩, passed.carfreq⟩
  have scheme : s.run.scheme = .qpsk := if_pos modtype
  refine State.roundTrips_of_bitsOf_waveOf phase turns validated carried quiet (fun _ => scale) ?_
  rw [bitsOf, waveOf, scheme]
  exact qpskBits_qpskWave passed.carampPos apart passed.bits (passed.even modtype) (passed.length_eq latched.length)

end Sys2Proof.Machine

/-! ## The constellation detector (spec/45_constellation_detector.md) -/

namespace Sys2Proof.Machine

/-! ### The completion of MAP -/

/-- What MAP receives of symbol `j`: with noise the ideal point displaced by draws `2j` and `2j+1`, the `i` offset's first,
without noise the ideal point (R192, R196, R197). -/
def State.receivedPoint (s : State) (j : Nat) (d : Ideal) : Point :=
  if s.run.noiseen then
    d.received (RNum.times (dispersion s.run) (.jit (s.urng.value (2 * j))))
      (RNum.times (dispersion s.run) (.jit (s.urng.value (2 * j + 1))))
  else d.received (.rat 0) (.rat 0)

/-- CTX, CRX, NPTS and the stream as MAP leaves them after the `n` symbols `symbol` (R192, R193, R197). -/
def State.withSymbols (s : State) (n : Nat) (symbol : Nat → Ideal) : State :=
  { s with
    res := { s.res with
      ctx := (List.range n).map (fun j => (symbol j).sent)
      crx := (List.range n).map (fun j => s.receivedPoint j (symbol j))
      npts := some (BitVec.ofNat 32 n) }
    urng := if s.run.noiseen then s.urng.after (2 * n) else s.urng }

section
variable {s : State} {n : Nat} {symbol : Nat → Ideal} (real : ∀ j, j < n → (symbol j).sent.finite = true)
  (input : s.run.noiseen = true → s.run.snrdb.finite = true ∧ ∀ k, k < 2 * n → inUnit (s.urng.value k) = true)
include real input

/-- With real ideal points, and with noise a real SNR and draws in (0,1), every received point is computed (R192, R197). -/
theorem receivedPoints_of_real :
    receivedPoints s.run ((List.range n).map symbol) s.urng =
      .ok ((List.range n).map (fun j => s.receivedPoint j (symbol j)),
        if s.run.noiseen then s.urng.after (2 * n) else s.urng) := by
  have ideals : ∀ d ∈ (List.range n).map symbol, d.sent.finite = true :=
    List.forall_mem_map.2 fun j hj => real j (List.mem_range.1 hj)
  rw [receivedPoints]
  cases noise : s.run.noiseen
  case false =>
    simp [List.all_eq_true.2 ideals, State.receivedPoint, noise]
  case true =>
    obtain ⟨snr, draws⟩ := input noise
    rw [if_pos rfl, jitterLoop_ok _ _ s.urng (by simpa using draws) (dispersion_finite snr) ideals]
    congr 2
    · refine List.ext_getElem (by simp) fun j _ _ => ?_
      simp [State.receivedPoint, noise]
    · simp

/-- MAP of such symbols completes (R192, R236). -/
theorem State.mapped_of_real : s.mapped ((List.range n).map symbol) = (s.withSymbols n symbol).advance .computing := by
  rw [State.mapped, receivedPoints_of_real real input, List.map_map, List.length_map, List.length_range]
  rfl

end

/-- The points of symbol `j` in CTX and CRX. -/
theorem State.withSymbols_get (s : State) {n j : Nat} (symbol : Nat → Ideal) (hj : j < n) :
    (s.withSymbols n symbol).res.ctx[j]? = some (symbol j).sent ∧
      (s.withSymbols n symbol).res.crx[j]? = some (s.receivedPoint j (symbol j)) := by
  simp [State.withSymbols, hj]

theorem State.withSymbols_length (s : State) (n : Nat) (symbol : Nat → Ideal) :
    (s.withSymbols n symbol).res.ctx.length = n ∧ (s.withSymbols n symbol).res.crx.length = n := by
  simp [State.withSymbols]

/-! ### The received points -/

/-- The unit of dispersion `g` over the reals (R196). -/
theorem dispersion_val (r : Settings) : (dispersion r).val = max (1 / 10) (1 - r.snrdb.val / 30) := by
  simp [dispersion, RNum.val_greater, RNum.val_minus, RNum.val_over, RNum.val]

theorem State.receivedPoint_sym (s : State) (j : Nat) (d : Ideal) : (s.receivedPoint j d).sym = d.sym := by
  rw [State.receivedPoint]
  split <;> rfl

/-- The error flag of a symbol that is received correctly exactly when `P` holds (R198). -/
theorem State.receivedPoint_err (s : State) (j : Nat) {d : Ideal} {P : Prop} [Decidable P] (correct : d.err = false ↔ P) :
    (s.receivedPoint j d).err = if P then 0 else 1 := by
  have flag : (s.receivedPoint j d).err = (BitVec.ofBool d.err).setWidth 32 := by
    rw [State.receivedPoint]
    split <;> rfl
  rw [flag]
  split
  · rw [correct.2 ‹P›]; rfl
  · rw [Bool.eq_true_of_not_eq_false (mt correct.1 ‹¬P›)]; rfl

/-- Where a received point lies from its ideal one (R192, R196). -/
theorem State.receivedPoint_offset (s : State) (j : Nat) (d : Ideal) :
    (s.run.noiseen = false → (s.receivedPoint j d).i = d.sent.i ∧ (s.receivedPoint j d).q = d.sent.q) ∧
      (s.run.noiseen = true →
        (s.receivedPoint j d).i.val = d.sent.i.val +
          max (1 / 10) (1 - s.run.snrdb.val / 30) * Config.jit (s.urng.value (2 * j)).val ∧
        (s.receivedPoint j d).q.val = d.sent.q.val +
          max (1 / 10) (1 - s.run.snrdb.val / 30) * Config.jit (s.urng.value (2 * j + 1)).val) := by
  have offset (a u : RNum) : (RNum.plus a (RNum.times (dispersion s.run) (.jit u))).val =
      a.val + max (1 / 10) (1 - s.run.snrdb.val / 30) * Config.jit u.val := by
    rw [RNum.val_plus, RNum.val_times, dispersion_val, RNum.val]
  constructor <;> intro noise <;> rw [State.receivedPoint, noise]
  · exact ⟨RNum.plus_zero _, RNum.plus_zero _⟩
  · exact ⟨offset _ _, offset _ _⟩

/-! ### BPSK -/

theorem np_bpsk (r : Settings) (p : Params) : r.np p .bpsk = min r.len p.maxPts := by
  rw [Settings.np, nsym_bpsk]

/-- The ideal points of the two bits (R194). -/
theorem bpskPoint_val (b : Byte) :
    (bpskPoint b).1.val = (if b = 1 then 1 else -1) ∧ (bpskPoint b).2.val = 0 := by
  rw [bpskPoint]
  split <;> simp [RNum.val]

/-- A BPSK symbol from its two bits (R192, R198). -/
theorem bpskIdeal_of_bits {res : Results} {j : Nat} {b d : Byte} (sent : res.runbits[j]? = some b)
    (received : res.rxbits[j]? = some d) :
    bpskIdeal res j = { coord := bpskPoint b, sym := b.setWidth 32, err := d != b } := by
  rw [bpskIdeal, bitAt_val sent, bitAt_val received]

/-- Settles O42: every ideal point is real, so MAP completes with the points of `bpskIdeal`. -/
theorem mapBpskPoints : Obligations.MapBpskPoints := by
  intro s np count input
  have completes := exec_mapBpsk s
  rw [np_bpsk, ← count, State.mapped_of_real (fun j _ => bpskIdeal_sent_finite s.res j) input] at completes
  obtain ⟨ctx, crx⟩ := s.withSymbols_length np (bpskIdeal s.res)
  refine ⟨_, completes, (StageFrame.update ..).advance _, rfl, rfl, rfl, rfl, rfl, rfl, rfl, rfl, ctx, crx, ?point⟩
  case point =>
    intro j b d hj sent received
    obtain ⟨p, q⟩ := s.withSymbols_get (bpskIdeal s.res) hj
    rw [bpskIdeal_of_bits sent received] at p q
    obtain ⟨inPhase, quadrature⟩ := bpskPoint_val b
    exact ⟨_, _, p, q, inPhase, quadrature, rfl, rfl, s.receivedPoint_sym j _, s.receivedPoint_err j (by simp),
      s.receivedPoint_offset j _⟩

/-! ### QPSK -/

theorem np_qpsk {r : Settings} (even : r.len % 2 = 0) (p : Params) : r.np p .qpsk = min (r.len / 2) p.maxPts := by
  rw [Settings.np, nsym_qpsk_of_even even]

/-- The ideal points of the four pairs: the second bit gives the sign of `i`, the first that of `q` (R194). -/
theorem qpskPoint_val (p : Params) {b1 b2 : Byte} (first : b1 = 0 ∨ b1 = 1) (second : b2 = 0 ∨ b2 = 1) :
    (qpskPoint p b1 b2).1.val = bitSign b2 * p.qscale.val ∧ (qpskPoint p b1 b2).2.val = bitSign b1 * p.qscale.val := by
  rcases first with rfl | rfl <;> rcases second with rfl | rfl <;>
    simp [qpskPoint, bitSign, RNum.val_minus, RNum.val]

/-- A QPSK symbol from its four bits (R193, R198). -/
theorem qpskIdeal_of_bits (p : Params) {res : Results} {j : Nat} {b1 b2 d1 d2 : Byte}
    (sent1 : res.runbits[2 * j]? = some b1) (sent2 : res.runbits[2 * j + 1]? = some b2)
    (received1 : res.rxbits[2 * j]? = some d1) (received2 : res.rxbits[2 * j + 1]? = some d2) :
    qpskIdeal p res j =
      { coord := qpskPoint p b1 b2, sym := 4 + 2 * b1.setWidth 32 + b2.setWidth 32, err := d1 != b1 || d2 != b2 } := by
  rw [qpskIdeal, bitAt_val sent1, bitAt_val sent2, bitAt_val received1, bitAt_val received2]

/-- Settles O43: of bits every ideal point is real, so MAP completes with the points of `qpskIdeal`. -/
theorem mapQpskPoints : Obligations.MapQpskPoints := by
  intro s np count even scale bits input
  have isBit : ∀ k, k < 2 * np → bitAt s.res.runbits k = 0 ∨ bitAt s.res.runbits k = 1 :=
    fun k hk => (bits k hk).imp bitAt_val bitAt_val
  have real : ∀ j, j < np → (qpskIdeal s.params s.res j).sent.finite = true :=
    fun j hj => qpskPoint_finite scale (isBit (2 * j) (by omega)) (isBit (2 * j + 1) (by omega))
  have completes := exec_mapQpsk even
  rw [np_qpsk even, ← count, State.mapped_of_real real input] at completes
  obtain ⟨ctx, crx⟩ := s.withSymbols_length np (qpskIdeal s.params s.res)
  refine ⟨_, completes, (StageFrame.update ..).advance _, rfl, rfl, rfl, rfl, rfl, rfl, rfl, rfl, ctx, crx, ?point⟩
  case point =>
    intro j b1 b2 d1 d2 hj sent1 sent2 received1 received2
    obtain ⟨p, q⟩ := s.withSymbols_get (qpskIdeal s.params s.res) hj
    rw [qpskIdeal_of_bits s.params sent1 sent2 received1 received2] at p q
    have first := isBit (2 * j) (by omega)
    have second := isBit (2 * j + 1) (by omega)
    rw [bitAt_val sent1] at first
    rw [bitAt_val sent2] at second
    obtain ⟨inPhase, quadrature⟩ := qpskPoint_val s.params first second
    exact ⟨_, _, p, q, inPhase, quadrature, rfl, rfl, s.receivedPoint_sym j _, s.receivedPoint_err j (by simp),
      s.receivedPoint_offset j _⟩

/-! ### The error flags of a finished run -/

/-- Symbol `j` as MAP places it under either scheme (R192, R193). -/
def idealOf (p : Params) (r : Settings) (res : Results) (j : Nat) : Ideal :=
  match r.scheme with
  | .bpsk => bpskIdeal res j
  | .qpsk => qpskIdeal p res j

theorem idealsOf_eq_map (p : Params) (r : Settings) (res : Results) :
    idealsOf p r res = (List.range (r.np p r.scheme)).map (idealOf p r res) := by
  unfold idealsOf idealOf
  cases r.scheme <;> rfl

/-- BER counts `BPS` errors for every symbol that MAP would flag, placed or not (R198, R211, R212). -/
theorem errorsOf_eq_countP (p : Params) (r : Settings) (res : Results) :
    errorsOf r res = r.scheme.bps * (List.range (r.nsym r.scheme)).countP (fun j => (idealOf p r res j).err) := by
  unfold errorsOf idealOf
  cases r.scheme
  · rw [nsym_bpsk, Scheme.bps, Nat.one_mul]
    rfl
  · rfl

/-- The flags of CRX are those of the symbols placed (R198). -/
theorem State.Mapped.countP_err {s : State} (mapped : s.Mapped) :
    s.res.crx.countP (fun p => p.err == 1) =
      (List.range (s.run.np s.params s.run.scheme)).countP (fun j => (idealOf s.params s.run s.res j).err) := by
  have flag (b : Bool) : ((BitVec.ofBool b).setWidth 32 == (1 : Word)) = b := by cases b <;> rfl
  calc s.res.crx.countP (fun p => p.err == 1)
      = (s.res.crx.map Point.err).countP (· == 1) := by rw [List.countP_map]; rfl
    _ = (idealsOf s.params s.run s.res).countP Ideal.err := by
        rw [mapped.crxFlags, List.countP_map]
        exact congrArg (List.countP · _) (funext fun d => flag d.err)
    _ = _ := by rw [idealsOf_eq_map, List.countP_map]; rfl

/-- An error flag is one bit (R50). -/
theorem State.Mapped.err_eq {s : State} (mapped : s.Mapped) : ∀ p ∈ s.res.crx, p.err = 0 ∨ p.err = 1 := by
  intro p hp
  have flag := List.mem_map_of_mem (f := Point.err) hp
  rw [mapped.crxFlags] at flag
  obtain ⟨d, -, flag⟩ := List.mem_map.1 flag
  rw [← flag]
  cases d.err
  · exact .inl rfl
  · exact .inr rfl

/-- Settles O54: the symbols MAP places are the first `NP` of those BER counts, and all of them where `NSYM ≤ MAXPTS`. -/
theorem errorFlagsAgree : Obligations.ErrorFlagsAgree := by
  intro s inv done
  have finished := inv.finished done
  have placed := finished.mapped.countP_err
  have count := (finished.passed.errorsOf_toNat s.res).trans (errorsOf_eq_countP s.params s.run s.res)
  refine ⟨_, finished.counted.errcnt, finished.mapped.err_eq, ?atMost, fun all => ?equal⟩ <;> rw [placed, count]
  case atMost =>
    exact Nat.mul_le_mul_left _ (List.range_sublist.2 (Nat.min_le_left _ _)).countP_le
  case equal => rw [Settings.np, Nat.min_eq_left all]

end Sys2Proof.Machine

/-! ## The error counter (spec/46_ber_counter.md) -/

namespace Sys2Proof.Machine

/-! ### The completion of BER -/

/-- With a positive bit count, and with noise a real SNR, BER completes (R213, R214, R237). -/
theorem State.counted_of_real {s : State} (pos : 0 < s.run.len)
    (snr : s.run.noiseen = true → s.run.snrdb.finite = true) (errors : Nat) :
    s.counted errors = (s.withCounts errors).advance .done := by
  have attached : (!s.run.noiseen || s.run.snrdb.finite) = true := by
    cases noise : s.run.noiseen
    case false => rfl
    case true => exact snr noise
  rw [State.counted, berRate_finite pos, attached]
  rfl

theorem State.withCounts_frame (s : State) (errors : Nat) : StageFrame s (s.withCounts errors) :=
  StageFrame.update ..

theorem exec_berBpsk (s : State) : exec .berBpsk s = .next (s.counted (bpskErrors s.run s.res)) := rfl

theorem exec_berQpsk {s : State} (even : s.run.len % 2 = 0) :
    exec .berQpsk s = .next (s.counted (qpskErrors s.run s.res)) := if_pos even

/-! ### The positions that differ -/

/-- A count along `0 … n-1` is the size of the set it counts. -/
theorem countP_range_eq_card {n : Nat} {b : Nat → Bool} {P : Nat → Prop} [DecidablePred P]
    (counts : ∀ k, k < n → (b k = true ↔ P k)) : (List.range n).countP b = ((Finset.range n).filter P).card := by
  rw [← List.toFinset_range, List.nodup_range.card_eq_countP]
  exact List.countP_congr fun k hk => by rw [counts k (List.mem_range.1 hk), decide_eq_true_iff]

/-- Position `k` is filled in both buffers. -/
def FilledAt (res : Results) (k : Nat) : Prop := k < res.runbits.length ∧ k < res.rxbits.length

/-- BER's comparison sees the elements themselves where both are there. -/
theorem FilledAt.bitAt_bne {res : Results} {k : Nat} (filled : FilledAt res k) :
    (bitAt res.rxbits k != bitAt res.runbits k) = true ↔ res.rxbits[k]? ≠ res.runbits[k]? := by
  obtain ⟨sent, received⟩ := filled
  rw [List.getElem?_eq_getElem sent, List.getElem?_eq_getElem received, bitAt_val (List.getElem?_eq_getElem sent),
    bitAt_val (List.getElem?_eq_getElem received), bne_iff_ne, Ne, Ne, Option.some_inj]

section
variable {r : Settings} {res : Results} (filled : ∀ k, k < r.len → FilledAt res k)
include filled

theorem bpskErrors_eq_card :
    bpskErrors r res = ((Finset.range r.len).filter (fun k => res.rxbits[k]? ≠ res.runbits[k]?)).card :=
  countP_range_eq_card fun k hk => (filled k hk).bitAt_bne

theorem qpskErrors_eq_card (even : r.len % 2 = 0) :
    qpskErrors r res = 2 * ((Finset.range (r.len / 2)).filter (fun k =>
      res.rxbits[2 * k]? ≠ res.runbits[2 * k]? ∨ res.rxbits[2 * k + 1]? ≠ res.runbits[2 * k + 1]?)).card := by
  rw [qpskErrors, nsym_qpsk_of_even even]
  refine congrArg (2 * ·) (countP_range_eq_card fun k hk => ?_)
  have first := (filled (2 * k) (by omega)).bitAt_bne
  have second := (filled (2 * k + 1) (by omega)).bitAt_bne
  rw [Bool.or_eq_true, first, second]

end

/-! ### The error count in its register -/

theorem bpskErrors_toNat (r : Settings) (res : Results) :
    (BitVec.ofNat 32 (bpskErrors r res)).toNat = bpskErrors r res :=
  ofNat_toNat ((bpskErrors_le r res).trans_lt r.len_lt)

theorem qpskErrors_toNat {r : Settings} (even : r.len % 2 = 0) (res : Results) :
    (BitVec.ofNat 32 (qpskErrors r res)).toNat = qpskErrors r res := by
  have pairs := qpskErrors_le r res
  rw [nsym_qpsk_of_even even] at pairs
  exact ofNat_toNat ((pairs.trans (Nat.mul_div_le ..)).trans_lt r.len_lt)

/-- Settles O45: BER.BPSK completes, and its count is that of the positions that differ, which fits the register. -/
theorem berBpskCount : Obligations.BerBpskCount := by
  intro s pos snr filled
  have completes := exec_berBpsk s
  rw [State.counted_of_real pos snr] at completes
  have count := bpskErrors_toNat s.run s.res
  exact ⟨_, _, _, completes, (s.withCounts_frame _).advance _, rfl, rfl, rfl, rfl, rfl, rfl, rfl,
    count.trans (bpskErrors_eq_card filled), by rw [berRate_val, count]; rfl⟩

/-- Settles O46: BER.QPSK completes, and its count is twice that of the pairs that differ, at most `L`. -/
theorem berQpskCount : Obligations.BerQpskCount := by
  intro s pos even snr filled
  have completes := exec_berQpsk even
  rw [State.counted_of_real pos snr] at completes
  have count := qpskErrors_toNat even s.res
  exact ⟨_, _, _, completes, (s.withCounts_frame _).advance _, rfl, rfl, rfl, rfl, rfl, rfl, rfl,
    count.trans (qpskErrors_eq_card filled even), by rw [berRate_val, count]; rfl⟩

end Sys2Proof.Machine

/-! ## The sequencer and the host commands (spec/47_sequencer_and_commands.md) -/

namespace Sys2Proof.Machine

/-! ### The meaning of each command -/

theorem State.busy_of_resting {s : State} (resting : s.phase = .idle ∨ s.phase = .done ∨ s.phase = .failed) :
    s.busy = false := (Phase.busy_iff _).2 resting

theorem exec_start_of_rest {s : State} (rest : s.busy = false) : exec .start s = .next s.startRun :=
  if_neg (by rw [rest]; decide)

theorem exec_start_of_busy {s : State} (busy : s.busy = true) : exec .start s = .next s.refuseCommand := if_pos busy

theorem exec_clear_of_rest {s : State} (rest : s.busy = false) : exec .clear s = .next s.clearAll :=
  if_neg (by rw [rest]; decide)

theorem exec_clear_of_busy {s : State} (busy : s.busy = true) : exec .clear s = .next s.refuseCommand := if_pos busy

/-- ABORT where the block supports it (R223). -/
theorem exec_abort_of_supported {s : State} (supported : s.params.abortSupported = true) :
    exec .abort s = if s.busy then .next s.abortRun else .next s := if_pos supported

/-- ABORT where the block does not support it is refused like a word that is no command (R225). -/
theorem exec_abort_of_unsupported {s : State} (unsupported : s.params.abortSupported = false) :
    exec .abort s = .next s.refuseCommand := if_neg (by rw [unsupported]; decide)

theorem State.latchedBits_length (s : State) : s.latchedBits.length = min s.cfg.txcount.toNat s.params.lmax := by
  rw [State.latchedBits, List.length_map, List.length_range]

/-- RUNBITS holds what TXBITS read when START was accepted (R40, R222). -/
theorem State.latchedBits_getElem? (s : State) {k : Nat} (below : k < min s.cfg.txcount.toNat s.params.lmax) :
    s.latchedBits[k]? = some (s.txRead k) := by
  rw [State.latchedBits, List.getElem?_map, List.getElem?_range below]
  rfl

/-- Settles O15: NOP is word 0, and its meaning is the state itself. -/
theorem nopRule : Obligations.NopRule := ⟨decodeCommand_ok.2 (.inl ⟨rfl, rfl⟩), fun _ => rfl⟩

/-- Settles O16: START by the two answers it gives; TXBITS is no field that `startRun` writes. -/
theorem startRule : Obligations.StartRule := by
  refine ⟨decodeCommand_ok.2 (.inr (.inl ⟨rfl, rfl⟩)), fun s resting => ?_, fun s busy => exec_start_of_busy busy⟩
  exact ⟨s.startRun, exec_start_of_rest (State.busy_of_resting resting), rfl, rfl, rfl, rfl, rfl, rfl, rfl,
    s.latchedBits_length, fun k below => s.latchedBits_getElem? below, State.txRead_congr rfl rfl, rfl⟩

/-- Settles O17: ABORT by whether the block supports it, and then by whether there is a run to discard. -/
theorem abortRule : Obligations.AbortRule := by
  refine ⟨decodeCommand_ok.2 (.inr (.inr (.inl ⟨rfl, rfl⟩))), fun s supported => ⟨fun busy => ?_, fun resting => ?_⟩,
    fun s unsupported => exec_abort_of_unsupported unsupported⟩ <;> rw [exec_abort_of_supported supported]
  · rw [busy]
    rfl
  · rw [State.busy_of_resting resting]
    rfl

/-- Settles O18: CLEAR by the two answers it gives. -/
theorem clearRule : Obligations.ClearRule :=
  ⟨decodeCommand_ok.2 (.inr (.inr (.inr ⟨rfl, rfl⟩))),
    fun _ resting => exec_clear_of_rest (State.busy_of_resting resting), fun _ busy => exec_clear_of_busy busy⟩

/-! ### Words that are no command -/

/-- A word above 3 decodes to none of the four commands (R92, R93). -/
theorem decodeCommand_ne_ok {w : Word} (high : 4 ≤ w.toNat) (i : Instr) : decodeCommand w ≠ .ok i := by
  intro decoded
  rcases decodeCommand_ok.1 decoded with ⟨rfl, -⟩ | ⟨rfl, -⟩ | ⟨rfl, -⟩ | ⟨rfl, -⟩ <;> exact absurd high (by decide)

/-- What is no command of the block sets CMDERR and does nothing else (R225). -/
theorem execCommandWord_of_illegal {w : Word} {s : State}
    (illegal : 4 ≤ w.toNat ∨ w = 2 ∧ s.params.abortSupported = false) :
    execCommandWord w s = .next s.refuseCommand := by
  rcases illegal with high | ⟨rfl, unsupported⟩
  · have none := decodeCommand_ne_ok high
    rw [execCommandWord]
    split
    case h_5 => rfl
    all_goals exact absurd ‹_› (none _)
  · exact exec_abort_of_unsupported unsupported

/-- Settles O19: a write to CMD and a command turn run the same word, which is refused. -/
theorem illegalCommandRule : Obligations.IllegalCommandRule := fun s w illegal =>
  ⟨(exec_wr_cmd s (.u32 w)).trans (execCommandWord_of_illegal illegal), fun ts turns =>
    ((step_of_command turns).trans (runCode_cmd w _)).trans
      (execCommandWord_of_illegal (s := { s with turns := ts }) illegal)⟩

/-! ### The resting phases -/

/-- Outside a run only START and CLEAR change the phase (R222 to R225). -/
theorem execCommandWord_of_rest {w : Word} {s t : State} (rest : s.busy = false) (run : execCommandWord w s = .next t)
    (changes : t.phase ≠ s.phase) : (t.phase = .validating ∧ w = 1) ∨ (t.phase = .idle ∧ w = 3) := by
  obtain ⟨u, hu, outcome⟩ := execCommandWord_cases w s
  obtain rfl : u = t := Host.Outcome.next.inj (hu.symm.trans run)
  rcases outcome with only | ⟨start, -, rfl⟩ | ⟨-, busy, -⟩ | ⟨clear, -, rfl⟩
  · exact absurd (congrArg RunView.phase only.view) changes
  · exact .inl ⟨s.startRun_phase, start⟩
  · exact absurd (rest.symm.trans busy) (by decide)
  · exact .inr ⟨s.clearAll_phase, clear⟩

/-- The sequencer's turn outside a run takes the turn and nothing else (R238). -/
theorem step_sequencer_of_rest {s : State} {ts : List Turn} (rest : s.busy = false)
    (turns : s.turns = .sequencer :: ts) : step s = .next { s with turns := ts } :=
  (step_of_sequencer turns).trans (runCode_of_rest (s := { s with turns := ts }) rest)

/-- Settles O8: the sequencer has no stage to run, and of the host's turns only START and CLEAR move the phase. -/
theorem restingPhases : Obligations.RestingPhases := by
  refine ⟨fun s resting => ?_, fun s t ended step changes => ?_⟩
  · have rest := State.busy_of_resting resting
    exact ⟨fun turns => step_rest turns rest, fun ts turns => step_sequencer_of_rest rest turns⟩
  have rest : s.busy = false := State.busy_of_resting (.inr ended)
  rcases step_cases s with ⟨-, -, e⟩ | ⟨-, busy, -⟩ | ⟨ts, ⟨-, -, e⟩ | ⟨-, busy, -⟩ | ⟨w, turns, e⟩ |
    ⟨h, j, v, turns, e⟩ | ⟨turns, e⟩⟩
  case inr.inl | inr.inr.inr.inl => exact absurd (rest.symm.trans busy) (by decide)
  all_goals rw [e] at step
  · cases step; exact absurd rfl changes
  · cases step; exact absurd rfl changes
  · rw [runCode_cmd] at step
    rcases execCommandWord_of_rest (s := { s with turns := ts }) rest step changes with ⟨phase, rfl⟩ | ⟨phase, rfl⟩
    · exact ⟨.inl phase, ts, .inr (.inl turns)⟩
    · exact ⟨.inr phase, ts, .inr (.inr (.inl turns))⟩
  · rcases runCode_bus step with only | ⟨write, command⟩
    · exact absurd (congrArg RunView.phase only.view) changes
    · rcases execCommandWord_of_rest (s := { s with turns := ts }) rest command changes with ⟨phase, w⟩ | ⟨phase, w⟩
      · exact ⟨.inl phase, ts, .inr (.inr (.inr ⟨h, j, v, turns, write, .inl w⟩))⟩
      · exact ⟨.inr phase, ts, .inr (.inr (.inr ⟨h, j, v, turns, write, .inr w⟩))⟩
  · cases step; exact ⟨.inr rfl, ts, .inl turns⟩

/-! ### The validation gate -/

/-- Bit `j` of the gate's mask says that check `j` fails over the reals (R34, R230). -/
theorem State.Latched.gateMask_bit_iff {s : State} (latched : s.Latched) (j : Fin 10) :
    s.gateMask.getLsbD j = true ↔ ¬CheckHolds s.params s.run s.res.runbits j := by
  have inside : (j : Nat) < (checks s.params s.run s.res.runbits).length := j.isLt
  rw [← checks_iff latched.length j, gateMask_bit]
  change ((checks s.params s.run s.res.runbits)[(j : Nat)]? == some false) = true ↔
    ¬(checks s.params s.run s.res.runbits)[(j : Nat)]? = some true
  rw [List.getElem?_eq_getElem inside]
  cases (checks s.params s.run s.res.runbits)[(j : Nat)] <;> decide

theorem State.gateMask_ne_zero {s : State} {i : Nat} (fails : s.gateMask.getLsbD i = true) : s.gateMask ≠ 0 := by
  intro zero
  simp [zero] at fails

/-- The lowest failed check is the one that fails with none failing before it (R230). -/
theorem State.firstFailed_eq {s : State} {i : Nat} (fails : s.gateMask.getLsbD i = true)
    (below : ∀ j, j < i → s.gateMask.getLsbD j = false) : s.firstFailed = i := by
  obtain ⟨-, set, low⟩ := gateMask_firstFailed (State.gateMask_ne_zero fails)
  refine le_antisymm (Nat.le_of_not_lt fun after => ?_) (Nat.le_of_not_lt fun before => ?_)
  · exact absurd (fails.symm.trans (low i after)) (by decide)
  · exact absurd (set.symm.trans (below _ before)) (by decide)

theorem exec_validate_of_passed {s : State} (mask : s.gateMask = 0) :
    exec .validate s = .next (({ s with verrmask := 0 } : State).advance .generating) := by
  rw [exec, execValidate, if_pos mask]

theorem exec_validate_of_failed {s : State} (mask : s.gateMask ≠ 0) :
    exec .validate s = .next (s.raiseValidation s.gateMask (causeValidation s.firstFailed)) := by
  rw [exec, execValidate, if_neg mask]

/-- Settles O31: the mask bit by bit, and its lowest bit as the cause. -/
theorem validationGate : Obligations.ValidationGate := by
  intro s latched
  refine ⟨fun holds => exec_validate_of_passed (latched.validated holds).checks, fun i fails lower => ?_⟩
  have set : s.gateMask.getLsbD i = true := (latched.gateMask_bit_iff i).2 fails
  have below (j : Nat) (low : j < i) : s.gateMask.getLsbD j = false := by
    have bit := latched.gateMask_bit_iff ⟨j, low.trans i.isLt⟩
    exact Bool.eq_false_iff.2 fun one => bit.1 one (lower _ low)
  refine ⟨s.gateMask, latched.gateMask_bit_iff,
    (exec_validate_of_failed (State.gateMask_ne_zero set)).trans ?_⟩
  rw [State.firstFailed_eq set below]
  rfl

/-! ### Progress -/

/-- What the host presents always has a next state (R220 to R226). -/
theorem exists_runCode_host (c : Code) (s : State) (host : ∀ x, c ≠ .stage x) : ∃ t, runCode c s = .next t :=
  (runCode_host c s host).imp fun _ outcome => outcome.1

/-- In a state of the invariant so has the sequencer's turn: the odd QPSK length did not pass check 5 (R230, R305). -/
theorem State.Inv.exists_runCode_stage {s : State} (inv : s.Inv) : ∃ t, runCode (.stage s.selector) s = .next t :=
  inv.exists_stage.imp fun _ stage => stage.1

/-- Settles O48: each kind of turn has a next state. -/
theorem stepNeverStops : Obligations.StepNeverStops := by
  intro s inv
  rcases step_cases s with ⟨-, -, e⟩ | ⟨-, -, e⟩ | ⟨ts, ⟨-, -, e⟩ | ⟨-, -, e⟩ | ⟨w, -, e⟩ | ⟨x, i, v, -, e⟩ |
    ⟨-, e⟩⟩ <;> rw [e]
  · exact ⟨_, rfl⟩
  · exact inv.exists_runCode_stage
  · exact ⟨_, rfl⟩
  · exact (inv.takeTurn ts).exists_runCode_stage
  · exact exists_runCode_host _ _ (by simp)
  · exact exists_runCode_host _ _ (by simp)
  · exact ⟨_, rfl⟩

/-! ### A run is a function of its snapshot, its latched bits and, with noise, the stream -/

/-- `s` and `s'` are at the same point of the same run: they agree on all that R239 says a run is a function of and on
all that it leaves to read but DEGEN, and with noise their streams hold the same values from here on (R242). -/
structure SameRun (s s' : State) : Prop where
  params : s'.params = s.params
  run : s'.run = s.run
  phase : s'.phase = s.phase
  res : s'.res = s.res
  cause : s'.cause = s.cause
  verrmask : s'.verrmask = s.verrmask
  snrv : s'.snrv = s.snrv
  stream : s.run.noiseen = true → ∀ k, s.urng.value k = s'.urng.value k

/-- `s` with what else a run's view holds changed: DEGEN, the working registers and the stream. -/
def State.aside (s : State) (degen : Bool) (work : Work) (urng : Urng) : State :=
  { s with degen := degen, work := work, urng := urng }

/-- What `aside` and the host's fields leave out is all that `SameRun` compares. -/
theorem SameRun.aside_view {s s' : State} (h : SameRun s s') : s'.view = (s.aside s'.degen s'.work s'.urng).view := by
  simp only [State.view, State.aside, h.params, h.run, h.phase, h.res, h.cause, h.verrmask, h.snrv]

theorem SameRun.of_view {s s' s'' : State} (h : SameRun s s') (view : s''.view = s'.view) : SameRun s s'' where
  params := (congrArg RunView.params view).trans h.params
  run := (congrArg RunView.run view).trans h.run
  phase := (congrArg RunView.phase view).trans h.phase
  res := (congrArg RunView.res view).trans h.res
  cause := (congrArg RunView.cause view).trans h.cause
  verrmask := (congrArg RunView.verrmask view).trans h.verrmask
  snrv := (congrArg RunView.snrv view).trans h.snrv
  stream noisy k := (h.stream noisy k).trans (congrArg (fun v : RunView => v.urng.value k) view.symm)

/-- A changed stream shows in a noisy run alone, and there by its values. -/
theorem SameRun.aside {s : State} {degen : Bool} {work : Work} {urng : Urng}
    (stream : s.run.noiseen = true → ∀ k, s.urng.value k = urng.value k) : SameRun s (s.aside degen work urng) :=
  ⟨rfl, rfl, rfl, rfl, rfl, rfl, rfl, stream⟩

theorem SameRun.ite {c : Prop} [Decidable c] {s t s' t' : State} (yes : SameRun s s') (no : SameRun t t') :
    SameRun (if c then s else t) (if c then s' else t') := by
  split
  · exact yes
  · exact no

/-- Where `o` goes on, `o'` goes on to the same point of the same run. -/
def SameOutcome (o o' : Host.Outcome State Fault Refusal) : Prop :=
  ∀ t, o = .next t → ∃ t', o' = .next t' ∧ SameRun t t'

theorem SameRun.next {s s' : State} (h : SameRun s s') : SameOutcome (.next s) (.next s') := by
  rintro t ⟨⟩
  exact ⟨s', rfl, h⟩

theorem SameOutcome.ite {c : Prop} [Decidable c] {o p o' p' : Host.Outcome State Fault Refusal}
    (yes : SameOutcome o o') (no : SameOutcome p p') : SameOutcome (if c then o else p) (if c then o' else p') := by
  split
  · exact yes
  · exact no

theorem sameOutcome_refused (r : Refusal) (o : Host.Outcome State Fault Refusal) : SameOutcome (.refused r) o := by
  rintro t ⟨⟩

theorem sameOutcome_fault (r : Fault) (o : Host.Outcome State Fault Refusal) : SameOutcome (.fault r) o := by
  rintro t ⟨⟩

theorem Urng.value_after_congr {u v : Urng} (values : ∀ k, u.value k = v.value k) (n k : Nat) :
    (u.after n).value k = (v.after n).value k := by
  rw [Urng.value_after, Urng.value_after, values]

/-- The received points depend on the stream only through its values, and without noise not at all (R196, R242). -/
theorem receivedPoints_congr (r : Settings) (ds : List Ideal) {u v : Urng}
    (stream : r.noiseen = true → ∀ k, u.value k = v.value k) :
    (∃ ps u' v', receivedPoints r ds u = .ok (ps, u') ∧ receivedPoints r ds v = .ok (ps, v') ∧
      (r.noiseen = true → ∀ k, u'.value k = v'.value k)) ∨
    (∃ c u' v', receivedPoints r ds u = .error (c, u') ∧ receivedPoints r ds v = .error (c, v') ∧
      (r.noiseen = true → ∀ k, u'.value k = v'.value k)) := by
  cases noisy : r.noiseen
  · simp only [receivedPoints, noisy]
    cases ds.all (fun d => d.sent.finite)
    · exact .inr ⟨_, u, v, rfl, rfl, nofun⟩
    · exact .inl ⟨_, u, v, rfl, rfl, nofun⟩
  · have values := stream noisy
    simp only [receivedPoints, noisy]
    rcases jitterLoop_congr (dispersion r) ds u v values with ⟨ps, n, eu, ev⟩ | ⟨c, n, eu, ev⟩
    · exact .inl ⟨ps, _, _, eu, ev, fun _ => Urng.value_after_congr values n⟩
    · exact .inr ⟨c, _, _, eu, ev, fun _ => Urng.value_after_congr values n⟩

section
variable (s : State) (degen : Bool) (work : Work) {urng : Urng}
  (stream : s.run.noiseen = true → ∀ k, s.urng.value k = urng.value k)
include stream

theorem execValidate_aside : SameOutcome (execValidate s) (execValidate (s.aside degen work urng)) :=
  .ite (SameRun.next (.aside stream)) (SameRun.next (.aside stream))

theorem execGenerate_aside : SameOutcome (execGenerate s) (execGenerate (s.aside degen work urng)) :=
  .ite (SameRun.next (.aside stream)) (SameRun.next (.aside stream))

theorem State.modulated_aside (wave : List RNum) :
    SameRun (s.modulated wave) ((s.aside degen work urng).modulated wave) :=
  .ite (.ite (.aside stream) (.aside stream)) (.aside stream)

theorem State.demodulated_aside (ok : Bool) (bits : List Byte) :
    SameRun (s.demodulated ok bits) ((s.aside degen work urng).demodulated ok bits) :=
  .ite (.aside stream) (.aside stream)

theorem State.counted_aside (errors : Nat) :
    SameRun (s.counted errors) ((s.aside degen work urng).counted errors) :=
  .ite (.aside stream) (.aside stream)

theorem State.mapped_aside (ds : List Ideal) : SameRun (s.mapped ds) ((s.aside degen work urng).mapped ds) := by
  have points : receivedPoints (s.aside degen work urng).run ds (s.aside degen work urng).urng =
      receivedPoints s.run ds urng := rfl
  rw [State.mapped, State.mapped, points]
  rcases receivedPoints_congr s.run ds stream with ⟨ps, u, v, eu, ev, later⟩ | ⟨c, u, v, eu, ev, later⟩ <;> rw [eu, ev]
  · exact .aside later
  · exact .aside later

theorem execDemodQpsk_aside : SameOutcome (execDemodQpsk s) (execDemodQpsk (s.aside degen work urng)) :=
  .ite (s.demodulated_aside degen work stream _ _).next (sameOutcome_refused _ _)

theorem execMapQpsk_aside : SameOutcome (execMapQpsk s) (execMapQpsk (s.aside degen work urng)) :=
  .ite (s.mapped_aside degen work stream _).next (sameOutcome_fault _ _)

theorem execBerQpsk_aside : SameOutcome (execBerQpsk s) (execBerQpsk (s.aside degen work urng)) :=
  .ite (s.counted_aside degen work stream _).next (sameOutcome_fault _ _)

/-- NOISE, which only a noisy run meets (R95): the same samples, or the same failure. -/
theorem execNoise_aside (noisy : s.run.noiseen = true) :
    SameOutcome (execNoise s) (execNoise (s.aside degen work urng)) := by
  have values := stream noisy
  refine .ite (.ite ?_ (SameRun.next (.aside stream))) (SameRun.next (.aside stream))
  have loop : noiseLoop (s.aside degen work urng).sigma (s.aside degen work urng).signal
      (s.aside degen work urng).urng = noiseLoop s.sigma s.signal urng := rfl
  rw [loop]
  rcases noiseLoop_congr s.sigma s.signal s.urng urng values with ⟨rx, n, eu, ev⟩ | ⟨c, n, eu, ev⟩ <;> rw [eu, ev]
  · exact SameRun.next (.aside fun _ => Urng.value_after_congr values n)
  · exact SameRun.next (.aside fun _ => Urng.value_after_congr values n)

/-- The sequencer's turn reads none of what `aside` changes, but the stream in a noisy run (R239, R242). -/
theorem runCode_stage_aside (noisy : s.phase = .noiseInjection → s.run.noiseen = true) :
    SameOutcome (runCode (.stage s.selector) s)
      (runCode (.stage (s.aside degen work urng).selector) (s.aside degen work urng)) := by
  have phase : (s.aside degen work urng).phase = s.phase := rfl
  have run : (s.aside degen work urng).run = s.run := rfl
  rw [runCode_stage, runCode_stage, phase, run]
  cases p : s.phase
  case validating => exact execValidate_aside s degen work stream
  case generating => exact execGenerate_aside s degen work stream
  case noiseInjection => exact execNoise_aside s degen work stream (noisy p)
  case modulating => cases s.run.modtype.getLsbD 0 <;> exact (State.modulated_aside s degen work stream _).next
  case demodulating =>
    cases s.run.modtype.getLsbD 0
    · exact (s.demodulated_aside degen work stream _ _).next
    · exact execDemodQpsk_aside s degen work stream
  case mapping =>
    cases s.run.modtype.getLsbD 0
    · exact (s.mapped_aside degen work stream _).next
    · exact execMapQpsk_aside s degen work stream
  case computing =>
    cases s.run.modtype.getLsbD 0
    · exact (s.counted_aside degen work stream _).next
    · exact execBerQpsk_aside s degen work stream
  all_goals exact (SameRun.aside stream).next

end

/-- From the same point of the same run the sequencer's turn leads to the same point of the same run. -/
theorem SameRun.stage {s s' : State} (h : SameRun s s') (noisy : s.phase = .noiseInjection → s.run.noiseen = true) :
    SameOutcome (runCode (.stage s.selector) s) (runCode (.stage s'.selector) s') := by
  intro t next
  obtain ⟨u, next', same⟩ := runCode_stage_aside s s'.degen s'.work h.stream noisy t next
  obtain ⟨t', next'', view⟩ := stage_view_congr h.aside_view next'
  exact ⟨t', next'', same.of_view view⟩

/-- NoiseInjection follows a noisy Modulating alone (R233). -/
theorem Phase.noisy_of_follows {noise : Bool} {p : Phase} (next : .noiseInjection ∈ p.follows noise) :
    p = .noiseInjection ∨ noise = true := by
  revert next
  cases p <;> cases noise <;> decide

/-- A run with no turn listed is in NoiseInjection only with noise (R95, R233). -/
theorem stage_keeps_noisy {s t : State} (noisy : s.phase = .noiseInjection → s.run.noiseen = true)
    (next : runCode (.stage s.selector) s = .next t) (phase : t.phase = .noiseInjection) : t.run.noiseen = true := by
  have follows := stage_mem_follows next
  rw [phase] at follows
  rw [(stage_frame next).run]
  exact (Phase.noisy_of_follows follows).elim noisy id

/-- The same runs stay the same through any number of steps (R239, R242). -/
theorem SameRun.steps {n : Nat} {s s' t : State} (h : SameRun s s')
    (noisy : s.phase = .noiseInjection → s.run.noiseen = true) (turns : s.turns = []) (turns' : s'.turns = [])
    (run : Host.Core.run Sys2Proof.core n s = .next t) :
    ∃ t', Host.Core.run Sys2Proof.core n s' = .next t' ∧ SameRun t t' := by
  induction n generalizing s s' with
  | zero => cases run; exact ⟨s', rfl, h⟩
  | succ n ih =>
    obtain ⟨u, first, rest⟩ := run_succ_next run
    rw [step_eq_stage turns] at first
    obtain ⟨u', first', same⟩ := h.stage noisy u first
    rw [run_next ((step_eq_stage turns').trans first')]
    exact ih same (stage_keeps_noisy noisy first) ((stage_frame first).turns.trans turns)
      ((stage_frame first').turns.trans turns') rest

/-- Settles O56: the two states start at the same point of the same run, and stay there step by step. -/
theorem runIsAFunction : Obligations.RunIsAFunction := by
  intro s₁ s₂ phase₁ phase₂ turns₁ turns₂ params run res snrv cause verrmask stream n t₁ steps
  have start : SameRun s₁ s₂ :=
    ⟨params.symm, run.symm, phase₂.trans phase₁.symm, res.symm, cause.symm, verrmask.symm, snrv.symm, stream⟩
  obtain ⟨t₂, steps', same⟩ := start.steps (by rw [phase₁]; nofun) turns₁ turns₂ steps
  exact ⟨t₂, steps', same.phase, same.res, same.cause, same.verrmask, same.snrv⟩

end Sys2Proof.Machine

/-! ## The reset input (spec/70_reset_and_hazards.md) -/

namespace Sys2Proof.Machine

/-- The reset input has the turn: the phase is not asked (R290). -/
theorem step_of_reset {s : State} {ts : List Turn} (turns : s.turns = .reset :: ts) :
    step s = .next ({ s with turns := ts } : State).afterReset := by
  rw [step, State.fetch, turns]

@[simp] theorem State.afterReset_status (s : State) : s.afterReset.status = State.reset.status := rfl
@[simp] theorem State.afterReset_irq (s : State) : s.afterReset.irq = State.reset.irq := rfl

/-- Settles O11: what the block holds is as in `State.reset` (R53, R291); the parameters, the stream and the turns to come
are the environment's and stay. TXBITS, rid of its writes, can still be read below LMAX (R65). -/
theorem resetInput : Obligations.ResetInput := by
  intro s ts turns
  obtain ⟨phase, status, cause, verrmask, ien, -, -, -, -, -, -, -, -, -, -, res, work, irq, -⟩ := resetState
  exact ⟨_, step_of_reset turns, phase, (State.afterReset_status _).trans status, cause, verrmask, ien,
    State.afterReset_cfg _, res, work, (State.afterReset_irq _).trans irq, fun _ below => ⟨_, readBuf_txbits below⟩,
    State.afterReset_params _, State.afterReset_urng _, State.afterReset_turns _⟩

end Sys2Proof.Machine
